-- ==== Sys2Proof/Word.lean ====
section
/-! DEFINITION. The word types of HUFFCORE: the command word CW and the operand ARG (30_encoding.md R60, R61), bytes and
symbols (20_memory.md R40: "A byte is 8 bits everywhere"), counts (10_state.md R11, R12). -/

namespace Sys2Proof

/-- A byte of FILE, INP or BS_BUF; the immediate IMM8 of a command (R60). -/
abbrev Byte := BitVec 8

/-- A symbol: "one possible byte value (0-255)" (00_scope.md, glossary). -/
abbrev Symbol := BitVec 8

/-- A count, 64 bits unsigned, arithmetic modulo 2^64 (R4, R9, D17). -/
abbrev Count := BitVec 64

/-- A 64-bit operand or result: ARG, RESULT, BS_TOTAL, a status register (R61, R62, R22, R34). -/
abbrev Wide := BitVec 64

/-- The command word CW (R60). -/
abbrev CmdWord := BitVec 32

end Sys2Proof
end

