-- ==== Sys2Proof/Syntax.lean ====
section
/-! DEFINITION. The thirty commands of HUFFCORE (30_encoding.md R64), one constructor per row of spec/opcode_table.json.
IMM8 is carried as the byte it is ("always taken as an unsigned integer 0..255", R63), whatever its value: a command that
takes an immediate accepts every IMM8 at decode (R67). ARG is an operand of exactly two commands, PQ_ENQ and BS_WU64 (R61). -/

namespace Sys2Proof

/-- A command with its operands (R64). -/
inductive Instr where
  | nop
  | freqClr
  | freqAdd (sym : Symbol)
  | freqScan
  | freqRd (sym : Symbol)
  | htLeaves
  | htMerge
  | htBuild
  | htCode (sym : Symbol)
  | htFind
  | htSize
  | htFree
  | pqClr
  | pqEnq (sym : Symbol) (count : Count)
  | pqDeq
  | pqPeekc (idx : Byte)
  | pqPeekk (idx : Byte)
  | codeClr
  | codePush (b : Byte)
  | bsOpen (m : Byte)
  | bsClose
  | bsWbit (b : Byte)
  | bsRbit
  | bsWu64 (v : Wide)
  | bsRu64
  | bsNbytes
  | tcWtree
  | tcRtree
  | rdsr (idx : Byte)
  | sreset
  deriving DecidableEq, Repr

end Sys2Proof
end

