-- ==== Sys2Proof/WellFormed.lean ====
section
/-! DEFINITION. Well-formed commands: the operand legality that 30_encoding.md R63 fixes from the command alone. An
ill-formed command is no illegal word: it decodes (R67) and the machine answers it with E_ARG (R63, R164). The legal
heap indices of PQ_PEEKC and PQ_PEEKK depend on QN, which is state, so they are checked by the commands' own rules. -/

namespace Sys2Proof

/-- The check on IMM8 that needs no state (R63): BS_WBIT and CODE_PUSH take a bit, BS_OPEN a mode 0 or 1, RDSR an index
0..11; a symbol value is legal whatever it is. -/
def Instr.wellFormed : Instr → Bool
  | .codePush b => b.toNat ≤ 1
  | .bsOpen m => m.toNat ≤ 1
  | .bsWbit b => b.toNat ≤ 1
  | .rdsr idx => idx.toNat ≤ 11
  | .nop => true
  | .freqClr => true
  | .freqAdd _ => true
  | .freqScan => true
  | .freqRd _ => true
  | .htLeaves => true
  | .htMerge => true
  | .htBuild => true
  | .htCode _ => true
  | .htFind => true
  | .htSize => true
  | .htFree => true
  | .pqClr => true
  | .pqEnq _ _ => true
  | .pqDeq => true
  | .pqPeekc _ => true
  | .pqPeekk _ => true
  | .codeClr => true
  | .bsClose => true
  | .bsRbit => true
  | .bsWu64 _ => true
  | .bsRu64 => true
  | .bsNbytes => true
  | .tcWtree => true
  | .tcRtree => true
  | .sreset => true

end Sys2Proof
end

