-- ==== Sys2Proof/Decode.lean ====
section
/-! DEFINITION. The decoder of HUFFCORE (30_encoding.md R60, R64 to R68), total on every pair (CW, ARG), rejecting by name;
after it the encoder, written from the same table; and the match and mask pairs of spec/opcode_table.json. -/

namespace Sys2Proof

/-- Why a command word is illegal (R65, R66, R67): each is answered with E_ILLEGAL. -/
inductive DecodeError where
  /-- Some bit of CW[31:16] is 1 (R65). -/
  | reservedBits
  /-- OPC is none of the thirty values of R64 (R66). -/
  | unassignedOpcode
  /-- IMM8 is not 0 on a command that takes no immediate (R67). -/
  | unusedImmediate
  deriving DecidableEq, Repr

/-- OPC = CW[7:0] (R60). -/
def opcField (cw : CmdWord) : Byte := cw.extractLsb' 0 8

/-- IMM8 = CW[15:8] (R60). -/
def immField (cw : CmdWord) : Byte := cw.extractLsb' 8 8

/-- RSV = CW[31:16] (R60). -/
def rsvField (cw : CmdWord) : BitVec 16 := cw.extractLsb' 16 16

/-- A command that takes no immediate: IMM8 must be 0 (R67). -/
def withoutImm (imm : Byte) (i : Instr) : Except DecodeError Instr :=
  if imm = 0 then .ok i else .error .unusedImmediate

/-- Steps (2) to (4) of R68, by the opcode map of R64: the command that OPC selects, with its operands. -/
def decodeOpcode (opc imm : Byte) (arg : Wide) : Except DecodeError Instr :=
  match opc.toNat with
  | 0x00 => withoutImm imm .nop
  | 0x01 => withoutImm imm .freqClr
  | 0x02 => .ok (.freqAdd imm)
  | 0x03 => withoutImm imm .freqScan
  | 0x04 => .ok (.freqRd imm)
  | 0x08 => withoutImm imm .htLeaves
  | 0x09 => withoutImm imm .htMerge
  | 0x0A => withoutImm imm .htBuild
  | 0x0B => .ok (.htCode imm)
  | 0x0C => withoutImm imm .htFind
  | 0x0D => withoutImm imm .htSize
  | 0x0E => withoutImm imm .htFree
  | 0x10 => withoutImm imm .pqClr
  | 0x11 => .ok (.pqEnq imm arg)
  | 0x12 => withoutImm imm .pqDeq
  | 0x13 => .ok (.pqPeekc imm)
  | 0x14 => .ok (.pqPeekk imm)
  | 0x18 => withoutImm imm .codeClr
  | 0x19 => .ok (.codePush imm)
  | 0x20 => .ok (.bsOpen imm)
  | 0x21 => withoutImm imm .bsClose
  | 0x22 => .ok (.bsWbit imm)
  | 0x23 => withoutImm imm .bsRbit
  | 0x24 => withoutImm imm (.bsWu64 arg)
  | 0x25 => withoutImm imm .bsRu64
  | 0x26 => withoutImm imm .bsNbytes
  | 0x30 => withoutImm imm .tcWtree
  | 0x31 => withoutImm imm .tcRtree
  | 0x40 => .ok (.rdsr imm)
  | 0x7F => withoutImm imm .sreset
  | _ => .error .unassignedOpcode

/-- The decoder (R68): "(1) RSV != 0 -> illegal; (2) OPC unassigned -> illegal; (3) command takes no immediate and IMM8 != 0
-> illegal; (4) otherwise the command of rule R64 with operand IMM8". ARG is read by PQ_ENQ and BS_WU64 alone and is not
checked by the others (R61). -/
def decode (cw : CmdWord) (arg : Wide) : Except DecodeError Instr :=
  if rsvField cw = 0 then decodeOpcode (opcField cw) (immField cw) arg else .error .reservedBits

/-- OPC of a command (R64). -/
def Instr.opcode : Instr → Byte
  | .nop => 0x00
  | .freqClr => 0x01
  | .freqAdd _ => 0x02
  | .freqScan => 0x03
  | .freqRd _ => 0x04
  | .htLeaves => 0x08
  | .htMerge => 0x09
  | .htBuild => 0x0A
  | .htCode _ => 0x0B
  | .htFind => 0x0C
  | .htSize => 0x0D
  | .htFree => 0x0E
  | .pqClr => 0x10
  | .pqEnq _ _ => 0x11
  | .pqDeq => 0x12
  | .pqPeekc _ => 0x13
  | .pqPeekk _ => 0x14
  | .codeClr => 0x18
  | .codePush _ => 0x19
  | .bsOpen _ => 0x20
  | .bsClose => 0x21
  | .bsWbit _ => 0x22
  | .bsRbit => 0x23
  | .bsWu64 _ => 0x24
  | .bsRu64 => 0x25
  | .bsNbytes => 0x26
  | .tcWtree => 0x30
  | .tcRtree => 0x31
  | .rdsr _ => 0x40
  | .sreset => 0x7F

/-- IMM8 of a command: its operand, or 0 when it takes none (R60, R64). -/
def Instr.imm8 : Instr → Byte
  | .nop => 0
  | .freqClr => 0
  | .freqAdd sym => sym
  | .freqScan => 0
  | .freqRd sym => sym
  | .htLeaves => 0
  | .htMerge => 0
  | .htBuild => 0
  | .htCode sym => sym
  | .htFind => 0
  | .htSize => 0
  | .htFree => 0
  | .pqClr => 0
  | .pqEnq sym _ => sym
  | .pqDeq => 0
  | .pqPeekc idx => idx
  | .pqPeekk idx => idx
  | .codeClr => 0
  | .codePush b => b
  | .bsOpen m => m
  | .bsClose => 0
  | .bsWbit b => b
  | .bsRbit => 0
  | .bsWu64 _ => 0
  | .bsRu64 => 0
  | .bsNbytes => 0
  | .tcWtree => 0
  | .tcRtree => 0
  | .rdsr idx => idx
  | .sreset => 0

/-- ARG of a command: the count of PQ_ENQ, the integer of BS_WU64; any value serves for the others (R61), 0 is used. -/
def Instr.argOf : Instr → Wide
  | .nop => 0
  | .freqClr => 0
  | .freqAdd _ => 0
  | .freqScan => 0
  | .freqRd _ => 0
  | .htLeaves => 0
  | .htMerge => 0
  | .htBuild => 0
  | .htCode _ => 0
  | .htFind => 0
  | .htSize => 0
  | .htFree => 0
  | .pqClr => 0
  | .pqEnq _ count => count
  | .pqDeq => 0
  | .pqPeekc _ => 0
  | .pqPeekk _ => 0
  | .codeClr => 0
  | .codePush _ => 0
  | .bsOpen _ => 0
  | .bsClose => 0
  | .bsWbit _ => 0
  | .bsRbit => 0
  | .bsWu64 v => v
  | .bsRu64 => 0
  | .bsNbytes => 0
  | .tcWtree => 0
  | .tcRtree => 0
  | .rdsr _ => 0
  | .sreset => 0

/-- The command word with RSV = 0: "CW = OPC + 256 * IMM8" (R64). -/
def packWord (opc imm : Byte) : CmdWord := BitVec.ofNat 32 (opc.toNat + 256 * imm.toNat)

/-- The encoder: the pair (CW, ARG) of a command (R60, R61, R64). -/
def encode (i : Instr) : CmdWord × Wide := (packWord i.opcode i.imm8, i.argOf)

/-- The match and mask pairs of spec/opcode_table.json in its order: mask 0xFFFFFFFF for a command without an immediate,
0xFFFF00FF for one with (R68). -/
def opcodeTable : List (CmdWord × CmdWord) :=
  [(0x00000000, 0xFFFFFFFF), (0x00000001, 0xFFFFFFFF), (0x00000002, 0xFFFF00FF), (0x00000003, 0xFFFFFFFF),
   (0x00000004, 0xFFFF00FF), (0x00000008, 0xFFFFFFFF), (0x00000009, 0xFFFFFFFF), (0x0000000A, 0xFFFFFFFF),
   (0x0000000B, 0xFFFF00FF), (0x0000000C, 0xFFFFFFFF), (0x0000000D, 0xFFFFFFFF), (0x0000000E, 0xFFFFFFFF),
   (0x00000010, 0xFFFFFFFF), (0x00000011, 0xFFFF00FF), (0x00000012, 0xFFFFFFFF), (0x00000013, 0xFFFF00FF)] ++
  [(0x00000014, 0xFFFF00FF), (0x00000018, 0xFFFFFFFF), (0x00000019, 0xFFFF00FF), (0x00000020, 0xFFFF00FF),
   (0x00000021, 0xFFFFFFFF), (0x00000022, 0xFFFF00FF), (0x00000023, 0xFFFFFFFF), (0x00000024, 0xFFFFFFFF),
   (0x00000025, 0xFFFFFFFF), (0x00000026, 0xFFFFFFFF), (0x00000030, 0xFFFFFFFF), (0x00000031, 0xFFFFFFFF),
   (0x00000040, 0xFFFF00FF), (0x0000007F, 0xFFFFFFFF)]

/-- CW of an instruction whose bits are `w` numbered as spec/opcode_table.json numbers them: bits 31..0. Bits at or above
`nbits` are 0 (log 14). -/
def cwOfTable (nbits w : Nat) : CmdWord := BitVec.ofNat 32 (w % 2 ^ nbits)

/-- ARG of the same: the 64 bits above CW, which the table gives no bits (log 14). -/
def argOfTable (nbits w : Nat) : Wide := BitVec.ofNat 64 (w % 2 ^ nbits / 2 ^ 32)

/-- The instruction the decoder reads from the bits `w` of a table row (`none` where it refuses). -/
def decodeTableWord (nbits w : Nat) : Option Instr :=
  match decode (cwOfTable nbits w) (argOfTable nbits w) with
  | .ok i => some i
  | .error _ => none

end Sys2Proof
end

