-- ==== Sys2Proof/Config.lean ====
section
/-! DEFINITION. What an implementation of HUFFCORE fixes (00_scope.md R4) and the free values the spec leaves open
(70_reset_and_hazards.md R182, 93_implementation_defined.md U6, U7, U12). -/

namespace Sys2Proof.Config

/-- NSYM, the number of symbols (R4). -/
abbrev nSym : Nat := 256

/-- QCAP, the capacity of the priority queue (R4). -/
abbrev qCap : Nat := 256

/-- CODE_MAX, the longest bit string the CODE register holds (R4, D24). -/
abbrev codeMax : Nat := 256

/-- One less than BUF_BYTES: an unknown constant. DESIGN CHOICE (log 3); safe: nothing can be proved of its value. -/
opaque bufBytesPred : Nat

/-- BUF_BYTES of the machine that `State.reset` describes: some integer >= 1 (R4, "open parameter"). `State` carries the
parameter as a field, so that every statement about all states is about every BUF_BYTES (log 3). -/
def bufBytes : Nat := bufBytesPred + 1

/-- The free value FREQ[s] holds after the reset numbered `reset` ("Each FREQ[s] holds an arbitrary 64-bit value until a
command writes it", R182). DESIGN CHOICE (log 1). -/
opaque freqDraw (reset : Nat) (s : Nat) : Count

/-- The free value BS_BUF[i] holds after the reset numbered `reset` ("BS_BUF bytes are likewise arbitrary", R182).
DESIGN CHOICE (log 2). -/
opaque bufDraw (reset : Nat) (i : Nat) : Byte

end Sys2Proof.Config
end

