-- ==== Sys2Proof/Machine/State.lean ====
section
/-! DEFINITION. The state of HUFFCORE as plain data (10_state.md R10 to R34), the objects the environment owns
(20_memory.md R41, R42), the host's side of the interface (00_scope.md R5), and the state after reset
(70_reset_and_hazards.md R181 to R183). -/

namespace Sys2Proof.Machine

/-- A tree (R12): `Leaf(sym, count)` or `Internal(count, ksym, left, right)`. -/
inductive Tree where
  | leaf (sym : Symbol) (count : Count)
  | node (count : Count) (ksym : Symbol) (left right : Tree)
  deriving DecidableEq, Repr

/-- The priority queue (R14, R15): `slots` is the heap array Q[0..QN-1] (QN is its length), `ovf` the sticky flag Q_OVF. -/
structure Queue where
  slots : List Tree
  ovf : Bool
  deriving DecidableEq, Repr

/-- The CODE register (R17): CODE_LEN and CODE_BITS. -/
structure Code where
  len : Nat
  bits : BitVec 256
  deriving DecidableEq, Repr

/-- BS_MODE (R18). -/
inductive Mode where
  | closed
  | read
  | write
  deriving DecidableEq, Repr

/-- The BS unit (R18 to R23): BS_MODE, BS_ACC, BS_NBITS, BS_BUF, BS_CUR, BS_AVAIL, BS_TOTAL, BS_BITPHASE. -/
structure Stream where
  mode : Mode
  acc : Byte
  nbits : Nat
  buf : List Byte
  cur : Nat
  avail : Nat
  total : Wide
  bitPhase : Bool
  deriving DecidableEq, Repr

/-- The environment object FILE (R41): its bytes and the read position. -/
structure ByteFile where
  data : List Byte
  rpos : Nat
  deriving DecidableEq, Repr

/-- The status codes (60_exceptions.md R162). -/
inductive Status where
  | ok
  | eod
  | eOpen
  | eFormat
  | null
  | eNotFound
  | eMode
  | ePhase
  | eIllegal
  | eArg
  deriving DecidableEq, Repr

/-- A response (STATUS, RESULT) (R62). -/
structure Response where
  status : Status
  result : Wide
  deriving DecidableEq, Repr

/-- What the outside world can do between two commands (R5, R41, R42, R57, R180; log 7). -/
inductive Event where
  /-- The host presents the command (CW, ARG); the environment supplies `env_grant` and `env_inp_grant` with it (R5). -/
  | command (cw : CmdWord) (arg : Wide) (envGrant envInpGrant : Bool)
  /-- The environment replaces FILE, which it may do while BS_MODE = CLOSED (R41). -/
  | setFile (data : List Byte)
  /-- The environment replaces INP, which it may do between commands (R42). -/
  | setInp (data : List Byte)
  /-- The hardware reset, an input of the block (R180). -/
  | reset
  deriving DecidableEq, Repr

/-- The state: the block (R10), its parameter BUF_BYTES (R29; log 3), the environment's objects and grants (R29, R41, R42),
and the host's side: the events to come and the responses received (log 7, log 8). -/
structure State where
  /-- FREQ[0..255] (R11). -/
  freq : Vector Count 256
  /-- Q, QN and Q_OVF (R14, R15). -/
  pq : Queue
  /-- ROOT: a tree or null (R16). -/
  root : Option Tree
  /-- CODE_LEN and CODE_BITS (R17). -/
  code : Code
  /-- The BS unit (R18 to R23). -/
  bs : Stream
  /-- The parameter BUF_BYTES (R4, R29): no step changes it (log 3). -/
  bufBytes : Nat
  /-- FILE (R41). -/
  file : ByteFile
  /-- INP.data (R42). -/
  inp : List Byte
  /-- `env_grant` of the command being performed (R5). -/
  envGrant : Bool
  /-- `env_inp_grant` of the command being performed (R5). -/
  envInpGrant : Bool
  /-- The MODEL's own: the events not yet taken, the next one first (log 7). -/
  pending : List Event
  /-- The MODEL's own: the responses given so far, the newest first (log 8). -/
  responses : List Response
  /-- The MODEL's own: how many resets have drawn free values (log 1, log 2). -/
  draws : Nat
  deriving DecidableEq, Repr

/-- Why the machine stops with a fault. -/
inductive Fault where
  /-- Raised by `takeEvent` when the environment replaces FILE while a stream is open: R57 says it "must not change"
  FILE.data then, the block does not check it and the spec gives no effect. Safe: the model stops (log 9). -/
  | fileReplacedWhileOpen
  deriving DecidableEq, Repr

/-- Why the machine refuses an instruction. -/
inductive Refusal where
  /-- The instruction has no meaning in this model. No arm of `exec` answers with it: every command is modelled. Safe. -/
  | notModelled (mnemonic : String)
  deriving DecidableEq, Repr

/-- The state after the hardware reset (R181, R182): every register the spec gives a reset value has it, FREQ and BS_BUF hold
free values (log 1, log 2); FILE and INP are the environment's, here empty, and nothing has been presented yet (log 6, 7, 8). -/
def State.reset : State where
  freq := ⟨⟨(List.range 256).map (Config.freqDraw 0)⟩, by simp⟩
  pq := ⟨[], false⟩
  root := none
  code := ⟨0, 0⟩
  bs := ⟨.closed, 0, 0, (List.range Config.bufBytes).map (Config.bufDraw 0), 0, 0, 0, false⟩
  bufBytes := Config.bufBytes
  file := ⟨[], 0⟩
  inp := []
  envGrant := true
  envInpGrant := true
  pending := []
  responses := []
  draws := 1

end Sys2Proof.Machine
end

