-- ==== Sys2Proof/Machine/Flags.lean ====
section
/-! DEFINITION. The one flag of HUFFCORE, the sticky Q_OVF (10_state.md R15): when an enqueue sets it, and the fresh queue
that clears it. There are no condition codes. -/

namespace Sys2Proof.Machine

/-- The queue is at capacity: an enqueue finds QN = 256 (R15, R101). -/
def Queue.full (q : Queue) : Bool := Config.qCap ≤ q.slots.length

/-- Q_OVF set because a node was dropped at capacity; nothing else of the queue changes (R101). -/
def Queue.dropped (q : Queue) : Queue := { q with ovf := true }

/-- A fresh queue: no node, Q_OVF = 0 (R15: PQ_CLR, HT_LEAVES, HT_BUILD, TC_RTREE, SRESET and reset begin with one). -/
def Queue.fresh : Queue := ⟨[], false⟩

end Sys2Proof.Machine
end

