-- ==== Sys2Proof/Machine/Operands.lean ====
section
/-! DEFINITION. Every operand form of HUFFCORE (30_encoding.md R63): IMM8 as a bit, as an open mode, as a heap index, as a
status-register index. A symbol value is IMM8 itself, "legal 0..255"; ARG is used whole (R61). `none` is "out of range". -/

namespace Sys2Proof.Machine

/-- IMM8 as the bit of BS_WBIT and CODE_PUSH: 0 or 1 (R63). -/
def bitOperand (b : Byte) : Option Bool :=
  if b = 0 then some false else if b = 1 then some true else none

/-- IMM8 as the mode of BS_OPEN: "0 = read, 1 = write" (R63). -/
def modeOperand (m : Byte) : Option Mode :=
  if m = 0 then some .read else if m = 1 then some .write else none

/-- IMM8 as the heap index of PQ_PEEKC and PQ_PEEKK: the tree in the slot, legal 0..QN-1 (R63). -/
def slotOperand (q : Queue) (idx : Byte) : Option Tree := q.slots[idx.toNat]?

end Sys2Proof.Machine
end

