-- ==== Sys2Proof/Machine/Ops.lean ====
section
/-! DEFINITION. The named operations the commands share: the response, the tree accessors (10_state.md R13), the priority
queue (41_priority_queue.md R100 to R102), the merge (42_huffman_tree.md R120), walk and path (R123), the CODE register
(10_state.md R17), the FILE primitives (20_memory.md R43), the batch buffer (R50, R51), byte order (R46), the tree codec's
text (43_tree_codec.md R142, R144, R147), and the resets (R157, R181). All recursion is structural. -/

namespace Sys2Proof.Machine

/-! ### The response (R62; 00_scope.md R9, `return` and `raise`) -/

/-- The numeric code of a status (R162). -/
def Status.code : Status → BitVec 4
  | .ok => 0
  | .eod => 1
  | .eOpen => 2
  | .eFormat => 3
  | .null => 4
  | .eNotFound => 5
  | .eMode => 6
  | .ePhase => 7
  | .eIllegal => 8
  | .eArg => 9

/-- The response handed to the host (R62). -/
def respond (st : Status) (result : Wide) (s : State) : State :=
  { s with responses := ⟨st, result⟩ :: s.responses }

/-- `return v`: the command ends with STATUS = OK and RESULT = v (R9). -/
def answer (v : Wide) (s : State) : Host.Outcome State Fault Refusal := .next (respond .ok v s)

/-- `raise st`: the command ends with STATUS = st and RESULT = 0; the writes made before it stay (R9, R165). This is all
the block has of exceptions: nothing is saved, no mode changes, control goes nowhere (R165). -/
def refuse (st : Status) (s : State) : Host.Outcome State Fault Refusal := .next (respond st 0 s)

/-! ### Trees (R13) -/

/-- `count(t)` (R13). -/
def Tree.count : Tree → Count
  | .leaf _ c => c
  | .node c _ _ _ => c

/-- `ksym(t)` (R13). -/
def Tree.ksym : Tree → Symbol
  | .leaf s _ => s
  | .node _ k _ _ => k

/-- `is_leaf(t)` (R13). -/
def Tree.isLeaf : Tree → Bool
  | .leaf _ _ => true
  | .node _ _ _ _ => false

/-- `leaves(t)`, left to right, each as the pair (symbol, count) (R13). -/
def Tree.leaves : Tree → List (Symbol × Count)
  | .leaf s c => [(s, c)]
  | .node _ _ l r => l.leaves ++ r.leaves

/-- `size(t)` of a tree (R13). -/
def Tree.size : Tree → Nat
  | .leaf _ _ => 1
  | .node _ _ l r => 1 + l.size + r.size

/-- `size` of ROOT: 0 for null (R13). -/
def rootSize : Option Tree → Nat
  | none => 0
  | some t => t.size

/-- KSYM_INTERNAL(L, R), its default min(ksym(L), ksym(R)) (R4, R13; log 4). -/
def ksymInternal (l r : Tree) : Symbol := if l.ksym ≤ r.ksym then l.ksym else r.ksym

/-- `mk_internal(L, R)`: the count is the sum modulo 2^64 (R13). -/
def mkInternal (l r : Tree) : Tree := .node (l.count + r.count) (ksymInternal l r) l r

/-- `key(a) < key(b)`: count first, then key symbol, both unsigned (R100). -/
def keyLt (a b : Tree) : Bool := decide (a.count < b.count) || (decide (a.count = b.count) && decide (a.ksym < b.ksym))

/-! ### The priority queue (R101, R102) -/

/-- `key(Q[i]) < key(Q[j])`, for indices inside the array. -/
def slotLt (q : List Tree) (i j : Nat) : Bool :=
  match q[i]?, q[j]? with
  | some a, some b => keyLt a b
  | _, _ => false

/-- `swap Q[i], Q[j]`, for indices inside the array. -/
def swapSlots (q : List Tree) (i j : Nat) : List Tree :=
  match q[i]?, q[j]? with
  | some a, some b => (q.set i b).set j a
  | _, _ => q

/-- The sift-up loop of R101 from index `i`; `fuel` bounds the iterations (`i` of them suffice). -/
def siftUp : Nat → Nat → List Tree → List Tree
  | 0, _, q => q
  | fuel + 1, i, q =>
    if i = 0 then q
    else if slotLt q i ((i - 1) / 2) then siftUp fuel ((i - 1) / 2) (swapSlots q i ((i - 1) / 2))
    else q

/-- `enqueue(node)` (R101): dropped when full; else appended and sifted up. -/
def Queue.enqueue (q : Queue) (t : Tree) : Queue :=
  if q.full then q.dropped
  else { q with slots := siftUp q.slots.length q.slots.length (q.slots ++ [t]) }

/-- The child the sift-down compares with: the smaller one, the left on a tie (R102). -/
def smallerChild (q : List Tree) (i : Nat) : Nat :=
  if slotLt q (2 * i + 2) (2 * i + 1) then 2 * i + 2 else 2 * i + 1

/-- The sift-down loop of R102 from index `i`; `fuel` bounds the iterations (QN of them suffice). -/
def siftDown : Nat → Nat → List Tree → List Tree
  | 0, _, q => q
  | fuel + 1, i, q =>
    if slotLt q (smallerChild q i) i then siftDown fuel (smallerChild q i) (swapSlots q i (smallerChild q i))
    else q

/-- What stays in the array after the minimum is taken: "moves the last element into the root position" and sifts it
down (R102); `rest` is the array without its root. -/
def refill (rest : List Tree) : List Tree :=
  match rest.getLast? with
  | none => []
  | some last => siftDown rest.length 0 (last :: rest.dropLast)

/-- `dequeue()` (R102): null if empty, else the root element, and the queue without it. -/
def Queue.dequeue (q : Queue) : Option Tree × Queue :=
  match q.slots with
  | [] => (none, q)
  | m :: rest => (some m, { q with slots := refill rest })

/-! ### The merge (R120) -/

/-- SENTINEL_SYM(s), its default: 0 if s != 0, else 1 (R4, D21; log 5). -/
def sentinelSym (s : Symbol) : Symbol := if s = 0 then 1 else 0

/-- The special case of R120: "if exactly one leaf was enqueued ... synthesize one additional sentinel leaf" with count 0. -/
def addSentinel (q : Queue) : Queue :=
  match q.slots with
  | [t] => q.enqueue (.leaf (sentinelSym t.ksym) 0)
  | _ => q

/-- One pass of the loop of R120: dequeue L, dequeue R, enqueue mk_internal(L, R). -/
def mergePass (q : Queue) : Queue :=
  match q.dequeue with
  | (some l, q1) =>
    match q1.dequeue with
    | (some r, q2) => q2.enqueue (mkInternal l r)
    | (none, _) => q
  | (none, _) => q

/-- The loop of R120, "while the queue holds more than one node"; `fuel` bounds the passes (QN of them suffice). -/
def mergeLoop : Nat → Queue → Queue
  | 0, q => q
  | fuel + 1, q => if 1 < q.slots.length then mergeLoop fuel (mergePass q) else q

/-- `merge()` (R120): a tree, or null when the queue was empty; the queue is left empty. -/
def Queue.merge (q : Queue) : Option Tree × Queue :=
  (mergeLoop (addSentinel q).slots.length (addSentinel q)).dequeue

/-! ### Codes (R123) and the CODE register (R17) -/

/-- `walk(t, bits)`: left = 1, right = 0; `none` is FAIL, "runs off a missing child" (R123). -/
def Tree.walk : Tree → List Bool → Option Tree
  | t, [] => some t
  | .leaf _ _, _ :: _ => none
  | .node _ _ l r, b :: bs => if b then l.walk bs else r.walk bs

/-- `path(t, sym)`: the bits from the root to the first leaf with the symbol, left subtree first; `none` is NONE (R123). -/
def Tree.path : Tree → Symbol → Option (List Bool)
  | .leaf s _, sym => if s = sym then some [] else none
  | .node _ _ l r, sym =>
    match l.path sym with
    | some p => some (true :: p)
    | none =>
      match r.path sym with
      | some p => some (false :: p)
      | none => none

/-- CODE with one more bit: "shift left, insert low" (R129). -/
def Code.push (c : Code) (b : Bool) : Code :=
  ⟨c.len + 1, (c.bits <<< 1) ||| (BitVec.ofBool b).setWidth 256⟩

/-- The empty bit string (R128). -/
def Code.empty : Code := ⟨0, 0⟩

/-- CODE holding a bit string, first bit at position CODE_LEN-1 (R17). -/
def Code.ofBits (p : List Bool) : Code := p.foldl Code.push Code.empty

/-- The bit string in CODE: [CODE_BITS[CODE_LEN-1], ..., CODE_BITS[0]] (R17, R125). -/
def Code.toBits (c : Code) : List Bool := (List.range c.len).map (fun j => c.bits.getLsbD (c.len - 1 - j))

/-! ### The frequency table (R11, R115 to R119) -/

/-- FREQ[s]. -/
def freqAt (f : Vector Count 256) (s : Symbol) : Count := f[s.toNat]

/-- FREQ[s] <- v. -/
def freqSet (f : Vector Count 256) (s : Symbol) (v : Count) : Vector Count 256 := f.set s.toNat v

/-- FREQ[s] <- (FREQ[s] + 1) mod 2^64 (R116). -/
def freqBump (f : Vector Count 256) (s : Symbol) : Vector Count 256 := freqSet f s (freqAt f s + 1)

/-- All 256 counters zero (R115). -/
def freqZero : Vector Count 256 := Vector.replicate 256 0

/-- The table a scan of the bytes `d` leaves: cleared, then one increment a byte (R117). -/
def freqScan (d : List Byte) : Vector Count 256 := d.foldl freqBump freqZero

/-- One turn of the loop of R119: enqueue Leaf(s, FREQ[s]) if FREQ[s] != 0. -/
def enqueueLeaf (f : Vector Count 256) (q : Queue) (s : Symbol) : Queue :=
  if freqAt f s = 0 then q else q.enqueue (.leaf s (freqAt f s))

/-- The symbols 0, 1, ..., 255 in ascending order. -/
def allSymbols : List Symbol := (List.range 256).map (BitVec.ofNat 8)

/-- The queue HT_LEAVES leaves: fresh, then the symbols "in ascending order" (R119). -/
def leavesQueue (f : Vector Count 256) : Queue := allSymbols.foldl (enqueueLeaf f) Queue.fresh

/-! ### FILE (R43) and the batch buffer (R50, R51) -/

/-- `FileAppend(v)` (R43). -/
def fileAppend (v : List Byte) (s : State) : State := { s with file := { s.file with data := s.file.data ++ v } }

/-- The bytes of FILE from the read position on. -/
def fileRest (s : State) : List Byte := s.file.data.drop s.file.rpos

/-- FILE.rpos <- FILE.rpos + n. -/
def fileAdvance (n : Nat) (s : State) : State := { s with file := { s.file with rpos := s.file.rpos + n } }

/-- `FileRead(n)` (R43): the next min(n, remaining) bytes, and the state with the position past them. -/
def fileRead (n : Nat) (s : State) : List Byte × State :=
  ((fileRest s).take n, fileAdvance ((fileRest s).take n).length s)

/-- BS_TOTAL <- (BS_TOTAL + n) mod 2^64 (R22). -/
def addTotal (n : Nat) (s : State) : State := { s with bs := { s.bs with total := s.bs.total + BitVec.ofNat 64 n } }

/-- `flush()` (R50). -/
def flush (s : State) : State :=
  let s := fileAppend (s.bs.buf.take s.bs.cur) s
  { s with bs := { s.bs with cur := 0 } }

/-- `emit_byte(v)` (R50): into the batch buffer, which is flushed at once when it is full. -/
def emitByte (v : Byte) (s : State) : State :=
  let s := addTotal 1 { s with bs := { s.bs with buf := s.bs.buf.set s.bs.cur v, cur := s.bs.cur + 1 } }
  if s.bs.cur = s.bufBytes then flush s else s

/-- The refill of R51: `r` in BS_BUF[0..|r|-1], BS_AVAIL = |r|, BS_CUR = 0. -/
def refillBuf (s : State) : State :=
  let (r, s) := fileRead s.bufBytes s
  { s with bs := { s.bs with buf := r ++ s.bs.buf.drop r.length, avail := r.length, cur := 0 } }

/-- `fetch_byte()` (R51): a byte or NONE. The byte is BS_BUF[BS_CUR]; the index is inside the buffer in every state that
10_state.md R21 describes (log 13 says what is read in others). -/
def fetchByte (s : State) : Option Byte × State :=
  let s := if s.bs.cur = s.bs.avail then refillBuf s else s
  if s.bs.cur = s.bs.avail then (none, s)
  else (some (s.bs.buf.getD s.bs.cur 0), addTotal 1 { s with bs := { s.bs with cur := s.bs.cur + 1 } })

/-- The check of a header command (R75, R48): the mode first, then the phase; `none` when both hold. -/
def headerCheck (m : Mode) (s : State) : Option Status :=
  if s.bs.mode ≠ m then some .eMode else if s.bs.bitPhase then some .ePhase else none

/-! ### Byte order (R46) -/

/-- "a 64-bit unsigned integer as 8 bytes, most-significant byte first" (R46). -/
def bytesOfU64 (v : Wide) : List Byte :=
  [v.extractLsb' 56 8, v.extractLsb' 48 8, v.extractLsb' 40 8, v.extractLsb' 32 8,
   v.extractLsb' 24 8, v.extractLsb' 16 8, v.extractLsb' 8 8, v.extractLsb' 0 8]

/-- The integer eight bytes stand for: r[0]*2^56 + r[1]*2^48 + ... + r[7] (R81). -/
def u64OfBytes (r : List Byte) : Wide := BitVec.ofNat 64 (r.foldl (fun a b => a * 256 + b.toNat) 0)

/-! ### The text of a serialized tree (R140 to R147) -/

/-- `'#'` (R9, R140). -/
abbrev hash : Byte := 0x23

/-- `','` (R9, R140). -/
abbrev comma : Byte := 0x2C

/-- `' '` (R9, R140). -/
abbrev space : Byte := 0x20

/-- The ASCII digit of n < 10: 0x30 + n (R147). -/
def digitByte (n : Nat) : Byte := BitVec.ofNat 8 (0x30 + n)

/-- The recursion of `dec`; `fuel` bounds the digits (n + 1 suffices). -/
def decDigits : Nat → Nat → List Byte
  | 0, _ => []
  | fuel + 1, n => if n < 10 then [digitByte n] else decDigits fuel (n / 10) ++ [digitByte (n % 10)]

/-- `dec(n)`, the decimal spelling with no leading zeros (R147). -/
def dec (n : Nat) : List Byte := decDigits (n + 1) n

/-- One record, `<count> <symbol>,` (R140, R142). -/
def serRecord (x : Symbol × Count) : List Byte := dec x.2.toNat ++ [space] ++ dec x.1.toNat ++ [comma]

/-- `ser` (R142): the tree block of ROOT; `##` for null. -/
def ser : Option Tree → List Byte
  | none => [hash, hash]
  | some t => [hash] ++ t.leaves.flatMap serRecord ++ [hash]

/-- `isdigit(c)` (R144). -/
def isDigit (c : Byte) : Bool := 0x30 ≤ c.toNat && c.toNat ≤ 0x39

/-- `val(c)` (R144). -/
def digitVal (c : Byte) : Nat := c.toNat - 0x30

/-- Where the parser of R144 stands: before the opening `#`; where a record or the closing `#` may begin; inside a count;
at the first digit of a symbol; inside a symbol. -/
inductive ParsePoint where
  | opening
  | record
  | count (n : Nat)
  | symFirst (n : Nat)
  | symRest (n s : Nat)
  deriving DecidableEq, Repr

/-- What one byte does to the parser. -/
inductive ParseMove where
  | more (p : ParsePoint)
  | leaf (s n : Nat)
  | good
  | bad
  deriving DecidableEq, Repr

/-- One byte of the parser of R144. The range checks are "made on unbounded integers at each step". -/
def parseByte : ParsePoint → Byte → ParseMove
  | .opening, c => if c = hash then .more .record else .bad
  | .record, c =>
    if c = hash then .good else if isDigit c then .more (.count (digitVal c)) else .bad
  | .count n, c =>
    if isDigit c then if n * 10 + digitVal c < 2 ^ 64 then .more (.count (n * 10 + digitVal c)) else .bad
    else if c = space then .more (.symFirst n) else .bad
  | .symFirst n, c => if isDigit c then .more (.symRest n (digitVal c)) else .bad
  | .symRest n s, c =>
    if isDigit c then if s * 10 + digitVal c ≤ 255 then .more (.symRest n (s * 10 + digitVal c)) else .bad
    else if c = comma then .leaf s n else .bad

/-- What `parse()` did: GOOD or BAD, how many bytes `next()` took, and the queue with the leaves enqueued on the way. -/
structure Parsed where
  good : Bool
  taken : Nat
  pq : Queue
  deriving DecidableEq, Repr

/-- `parse()` (R144) over the bytes from the read position on, one byte at a time with no look-ahead and no push-back;
`taken` counts the bytes read so far. -/
def parse : ParsePoint → Nat → Queue → List Byte → Parsed
  | _, taken, q, [] => ⟨false, taken, q⟩
  | p, taken, q, c :: rest =>
    match parseByte p c with
    | .more p' => parse p' (taken + 1) q rest
    | .leaf s n => parse .record (taken + 1) (q.enqueue (.leaf (BitVec.ofNat 8 s) (BitVec.ofNat 64 n))) rest
    | .good => ⟨true, taken + 1, q⟩
    | .bad => ⟨false, taken + 1, q⟩

/-! ### The resets (R157, R181) -/

/-- Everything SRESET and the reset put at a stated value (R157, R181): all block state but FREQ and BS_BUF. -/
def clearBlock (s : State) : State :=
  { s with pq := Queue.fresh, root := none, code := Code.empty
           bs := ⟨.closed, 0, 0, s.bs.buf, 0, 0, 0, false⟩ }

/-- The hardware reset (R180 to R183): as `clearBlock`, with fresh free values in FREQ and BS_BUF (log 1, log 2); FILE and
INP are not touched (R183). -/
def hardReset (s : State) : State :=
  let s := clearBlock s
  { s with freq := ⟨⟨(List.range 256).map (Config.freqDraw s.draws)⟩, by simp⟩
           bs := { s.bs with buf := (List.range s.bufBytes).map (Config.bufDraw s.draws) }
           draws := s.draws + 1 }

end Sys2Proof.Machine
end

