-- ==== Sys2Proof/Machine/BitStream.lean ====
section
/-! DEFINITION. The bit-stream commands BS_OPEN, BS_CLOSE, BS_WBIT, BS_RBIT, BS_WU64, BS_RU64, BS_NBYTES
(40_bitstream.md R75 to R82), each with the checks of R75 in their order. -/

namespace Sys2Proof.Machine

/-- The BS unit a granted open leaves (R76); BS_BUF is not cleared. -/
def openedStream (m : Mode) (b : Stream) : Stream := ⟨m, 0, 0, b.buf, 0, 0, 0, false⟩

/-- What a granted open does to FILE (R76): a write open empties it, a read open puts the read position at 0 (log 10). -/
def openedFile (m : Mode) (f : ByteFile) : ByteFile :=
  match m with
  | .write => { f with data := [] }
  | .read => { f with rpos := 0 }
  | .closed => f

/-- BS_OPEN m (R76). -/
def execBsOpen (m : Byte) (s : State) : Host.Outcome State Fault Refusal :=
  match modeOperand m with
  | none => refuse .eArg s
  | some mode =>
    if s.bs.mode ≠ .closed then refuse .eMode s
    else if s.envGrant then answer 0 { s with bs := openedStream mode s.bs, file := openedFile mode s.file }
    else refuse .eOpen s

/-- The pad byte: the pending bits left-justified, zero-filled (R45, R77). -/
def padByte (b : Stream) : Byte := b.acc <<< (8 - b.nbits)

/-- A write-mode close brings every byte to FILE: flush, then the pad byte if 1 <= BS_NBITS <= 7 (R77). -/
def finishWrite (s : State) : State :=
  let s := flush s
  if 1 ≤ s.bs.nbits ∧ s.bs.nbits ≤ 7 then addTotal 1 (fileAppend [padByte s.bs] s) else s

/-- The BS unit after a close (R77): BS_TOTAL and BS_BUF stay. -/
def closedStream (b : Stream) : Stream := ⟨.closed, 0, 0, b.buf, 0, 0, b.total, false⟩

/-- BS_CLOSE (R77); the answer is BS_TOTAL. -/
def execBsClose (s : State) : Host.Outcome State Fault Refusal :=
  match s.bs.mode with
  | .closed => refuse .eMode s
  | .write =>
    let s := finishWrite s
    answer s.bs.total { s with bs := closedStream s.bs }
  | .read => answer s.bs.total { s with bs := closedStream s.bs }

/-- The accumulator with one more bit in the low position (R78). -/
def pushBit (acc : Byte) (b : Bool) : Byte := (acc <<< 1) ||| (BitVec.ofBool b).setWidth 8

/-- A bit accepted in write mode (R78): BS_BITPHASE = 1, the bit shifted in, and the byte emitted when it is the eighth. -/
def writeBit (b : Bool) (s : State) : State :=
  let s := { s with bs := { s.bs with bitPhase := true, acc := pushBit s.bs.acc b, nbits := s.bs.nbits + 1 } }
  if s.bs.nbits = 8 then
    let s := emitByte s.bs.acc s
    { s with bs := { s.bs with acc := 0, nbits := 0 } }
  else s

/-- BS_WBIT b (R78); the answer is the bit. -/
def execBsWbit (b : Byte) (s : State) : Host.Outcome State Fault Refusal :=
  match bitOperand b with
  | none => refuse .eArg s
  | some bit =>
    if s.bs.mode ≠ .write then refuse .eMode s
    else answer ((BitVec.ofBool bit).setWidth 64) (writeBit bit s)

/-- The bit BS_RBIT returns: BS_ACC[7] (R79). -/
def topBit (b : Stream) : Wide := (BitVec.ofBool b.acc.msb).setWidth 64

/-- The state after BS_ACC[7] is taken: BS_ACC shifted left, one bit fewer (R79). -/
def takeBit (s : State) : State := { s with bs := { s.bs with acc := s.bs.acc <<< 1, nbits := s.bs.nbits - 1 } }

/-- BS_RBIT (R79): fetches a byte when BS_NBITS = 0, EOD when there is none; the answer is the bit. -/
def execBsRbit (s : State) : Host.Outcome State Fault Refusal :=
  if s.bs.mode ≠ .read then refuse .eMode s
  else
    let s := { s with bs := { s.bs with bitPhase := true } }
    if s.bs.nbits = 0 then
      match fetchByte s with
      | (none, s) => refuse .eod s
      | (some v, s) =>
        let s := { s with bs := { s.bs with acc := v, nbits := 8 } }
        answer (topBit s.bs) (takeBit s)
    else answer (topBit s.bs) (takeBit s)

/-- BS_WU64 v (R80): eight bytes straight to FILE, most significant first. -/
def execBsWu64 (v : Wide) (s : State) : Host.Outcome State Fault Refusal :=
  match headerCheck .write s with
  | some e => refuse e s
  | none => answer 0 (addTotal 8 (fileAppend (bytesOfU64 v) s))

/-- BS_RU64 (R81): eight bytes straight from FILE; EOD when fewer remained, which are then consumed and counted. -/
def execBsRu64 (s : State) : Host.Outcome State Fault Refusal :=
  match headerCheck .read s with
  | some e => refuse e s
  | none =>
    let (r, s) := fileRead 8 s
    let s := addTotal r.length s
    if r.length < 8 then refuse .eod s else answer (u64OfBytes r) s

/-- BS_NBYTES (R82): BS_TOTAL, in every mode. -/
def execBsNbytes (s : State) : Host.Outcome State Fault Refusal := answer s.bs.total s

end Sys2Proof.Machine
end

