-- ==== Sys2Proof/Machine/Frequency.lean ====
section
/-! DEFINITION. The frequency-table commands FREQ_CLR, FREQ_ADD, FREQ_SCAN, FREQ_RD (42_huffman_tree.md R115 to R118). -/

namespace Sys2Proof.Machine

/-- FREQ_CLR (R115): every counter 0. -/
def execFreqClr (s : State) : Host.Outcome State Fault Refusal := answer 0 { s with freq := freqZero }

/-- FREQ_ADD sym (R116): the counter one up, modulo 2^64; the answer is its new value. -/
def execFreqAdd (sym : Symbol) (s : State) : Host.Outcome State Fault Refusal :=
  let f := freqBump s.freq sym
  answer (freqAt f sym) { s with freq := f }

/-- FREQ_SCAN (R117): E_OPEN without the environment's grant; else the table is cleared and INP counted, and the answer is
the number of bytes. INP is not consumed. -/
def execFreqScan (s : State) : Host.Outcome State Fault Refusal :=
  if s.envInpGrant then answer (BitVec.ofNat 64 s.inp.length) { s with freq := freqScan s.inp }
  else refuse .eOpen s

/-- FREQ_RD sym (R118): the counter. -/
def execFreqRd (sym : Symbol) (s : State) : Host.Outcome State Fault Refusal := answer (freqAt s.freq sym) s

end Sys2Proof.Machine
end

