-- ==== Sys2Proof/Machine/HuffmanTree.lean ====
section
/-! DEFINITION. The tree and code commands HT_LEAVES, HT_MERGE, HT_BUILD, HT_CODE, HT_FIND, HT_SIZE, HT_FREE, CODE_CLR,
CODE_PUSH (42_huffman_tree.md R119 to R129). None touches the BS unit or FILE. -/

namespace Sys2Proof.Machine

/-- HT_LEAVES (R119): a fresh queue with one leaf for each nonzero counter; the answer is QN. -/
def execHtLeaves (s : State) : Host.Outcome State Fault Refusal :=
  let q := leavesQueue s.freq
  answer (BitVec.ofNat 64 q.slots.length) { s with pq := q }

/-- HT_MERGE (R121): ROOT is destroyed, then receives the merge of the queue; NULL for an empty queue. -/
def execHtMerge (s : State) : Host.Outcome State Fault Refusal :=
  match s.pq.merge with
  | (none, q) => refuse .null { s with root := none, pq := q }
  | (some t, q) => answer t.count { s with root := some t, pq := q }

/-- HT_BUILD (R122): FREQ_SCAN, HT_LEAVES and the merge in one command; the answer is the number of input bytes. -/
def execHtBuild (s : State) : Host.Outcome State Fault Refusal :=
  if s.envInpGrant then
    let f := freqScan s.inp
    match (leavesQueue f).merge with
    | (none, q) => refuse .null { s with freq := f, root := none, pq := q }
    | (some t, q) => answer (BitVec.ofNat 64 s.inp.length) { s with freq := f, root := some t, pq := q }
  else refuse .eOpen s

/-- HT_CODE sym (R124): the path to the first leaf with the symbol, into CODE; the answer is its length. -/
def execHtCode (sym : Symbol) (s : State) : Host.Outcome State Fault Refusal :=
  match s.root with
  | none => refuse .null s
  | some t =>
    match t.path sym with
    | none => refuse .eNotFound s
    | some p => answer (BitVec.ofNat 64 p.length) { s with code := Code.ofBits p }

/-- HT_FIND (R125): the symbol of the leaf at which the bit string in CODE ends exactly. -/
def execHtFind (s : State) : Host.Outcome State Fault Refusal :=
  match s.root with
  | none => refuse .null s
  | some t =>
    match t.walk s.code.toBits with
    | some (.leaf sym _) => answer (sym.setWidth 64) s
    | some (.node _ _ _ _) => refuse .eNotFound s
    | none => refuse .eNotFound s

/-- HT_SIZE (R126): the number of nodes of ROOT, 0 for null. -/
def execHtSize (s : State) : Host.Outcome State Fault Refusal := answer (BitVec.ofNat 64 (rootSize s.root)) s

/-- HT_FREE (R127): ROOT becomes null; the queue and CODE are not touched. -/
def execHtFree (s : State) : Host.Outcome State Fault Refusal := answer 0 { s with root := none }

/-- CODE_CLR (R128): the empty bit string. -/
def execCodeClr (s : State) : Host.Outcome State Fault Refusal := answer 0 { s with code := Code.empty }

/-- CODE_PUSH b (R129): one more bit; E_ARG for b > 1 and for a full register. The answer is the new length. -/
def execCodePush (b : Byte) (s : State) : Host.Outcome State Fault Refusal :=
  match bitOperand b with
  | none => refuse .eArg s
  | some bit =>
    if s.code.len = Config.codeMax then refuse .eArg s
    else answer (BitVec.ofNat 64 (s.code.len + 1)) { s with code := s.code.push bit }

end Sys2Proof.Machine
end

