-- ==== Sys2Proof/Machine/PriorityQueue.lean ====
section
/-! DEFINITION. The priority-queue commands PQ_CLR, PQ_ENQ, PQ_DEQ, PQ_PEEKC, PQ_PEEKK (41_priority_queue.md R103 to R107). -/

namespace Sys2Proof.Machine

/-- QN as a RESULT. -/
def queueLen (q : Queue) : Wide := BitVec.ofNat 64 q.slots.length

/-- PQ_CLR (R103): a fresh queue; ROOT is not touched. -/
def execPqClr (s : State) : Host.Outcome State Fault Refusal := answer 0 { s with pq := Queue.fresh }

/-- PQ_ENQ sym, count (R104): the leaf is enqueued, or dropped by a full queue; OK in both cases, and the answer is QN. -/
def execPqEnq (sym : Symbol) (count : Count) (s : State) : Host.Outcome State Fault Refusal :=
  let q := s.pq.enqueue (.leaf sym count)
  answer (queueLen q) { s with pq := q }

/-- PQ_DEQ (R105): ROOT is destroyed, then receives the minimum node; NULL when the queue is empty, ROOT then null. -/
def execPqDeq (s : State) : Host.Outcome State Fault Refusal :=
  match s.pq.dequeue with
  | (none, q) => refuse .null { s with root := none, pq := q }
  | (some m, q) => answer m.count { s with root := some m, pq := q }

/-- PQ_PEEKC idx (R106): the count of the heap slot; E_ARG when idx >= QN. -/
def execPqPeekc (idx : Byte) (s : State) : Host.Outcome State Fault Refusal :=
  match slotOperand s.pq idx with
  | none => refuse .eArg s
  | some t => answer t.count s

/-- RESULT of PQ_PEEKK: ksym + 256 * (1 - is_leaf), so [7:0] is the key symbol and [8] is 1 for an Internal node (R107). -/
def tagAndKey (t : Tree) : Wide := BitVec.ofNat 64 (t.ksym.toNat + 256 * (1 - t.isLeaf.toNat))

/-- PQ_PEEKK idx (R107): the tag and key symbol of the heap slot; E_ARG when idx >= QN. -/
def execPqPeekk (idx : Byte) (s : State) : Host.Outcome State Fault Refusal :=
  match slotOperand s.pq idx with
  | none => refuse .eArg s
  | some t => answer (tagAndKey t) s

end Sys2Proof.Machine
end

