-- ==== Sys2Proof/Machine/System.lean ====
section
/-! DEFINITION. The system commands NOP, RDSR, SRESET (44_system.md R155 to R157) and the status-register views RDSR returns
(10_state.md R34). -/

namespace Sys2Proof.Machine

/-- NOP (R155): "No state is read or written"; the answer is (OK, 0). -/
def execNop (s : State) : Host.Outcome State Fault Refusal := answer 0 s

/-! ### The views of R34 -/

/-- BS_MODE as SR_BS shows it: CLOSED 0, READ 1, WRITE 2 (R18, R34). -/
def Mode.code : Mode → Nat
  | .closed => 0
  | .read => 1
  | .write => 2

/-- SR_ID (R34): "HUFF", then command-set version 1. -/
def srId : Wide := 0x4855464600000001

/-- SR_BS (R34): [1:0] BS_MODE, [5:2] BS_NBITS, [13:6] BS_ACC, [14] BS_BITPHASE. -/
def srBs (b : Stream) : Wide :=
  BitVec.ofNat 64 (b.mode.code + 2 ^ 2 * (b.nbits % 2 ^ 4) + 2 ^ 6 * b.acc.toNat + 2 ^ 14 * b.bitPhase.toNat)

/-- A count in 32 bits, "saturated to 2^32-1 if larger" (R34). -/
def sat32 (n : Nat) : Nat := min n (2 ^ 32 - 1)

/-- SR_BS_BUF (R34): [31:0] BS_CUR, [63:32] BS_AVAIL, both saturated. -/
def srBsBuf (b : Stream) : Wide := BitVec.ofNat 64 (sat32 b.cur + 2 ^ 32 * sat32 b.avail)

/-- SR_PQ (R34): [8:0] QN, [16] Q_OVF. -/
def srPq (q : Queue) : Wide := BitVec.ofNat 64 (q.slots.length % 2 ^ 9 + 2 ^ 16 * q.ovf.toNat)

/-- SR_TREE (R34): [0] ROOT is not null, [1] ROOT is a Leaf. -/
def srTree : Option Tree → Wide
  | none => 0
  | some t => BitVec.ofNat 64 (1 + 2 * t.isLeaf.toNat)

/-- SR_CODE_LEN (R34): [8:0] CODE_LEN. -/
def srCodeLen (c : Code) : Wide := BitVec.ofNat 64 (c.len % 2 ^ 9)

/-- SR_CODE_BITS<k> (R34): CODE_BITS[64k+63 : 64k]. -/
def srCodeBits (c : Code) (k : Nat) : Wide := c.bits.extractLsb' (64 * k) 64

/-- SR_PARAM (R34): BUF_BYTES, saturated to 2^64-1 if larger. -/
def srParam (n : Nat) : Wide := BitVec.ofNat 64 (min n (2 ^ 64 - 1))

/-- The view numbered `idx` (R34); `none` where there is no register (12..255). -/
def statusView (s : State) (idx : Byte) : Option Wide :=
  match idx.toNat with
  | 0 => some srId
  | 1 => some (srBs s.bs)
  | 2 => some s.bs.total
  | 3 => some (srBsBuf s.bs)
  | 4 => some (srPq s.pq)
  | 5 => some (srTree s.root)
  | 6 => some (srCodeLen s.code)
  | 7 => some (srCodeBits s.code 0)
  | 8 => some (srCodeBits s.code 1)
  | 9 => some (srCodeBits s.code 2)
  | 10 => some (srCodeBits s.code 3)
  | 11 => some (srParam s.bufBytes)
  | _ => none

/-- RDSR idx (R156): the view, without a side effect; E_ARG for 12..255. -/
def execRdsr (idx : Byte) (s : State) : Host.Outcome State Fault Refusal :=
  match statusView s idx with
  | some v => answer v s
  | none => refuse .eArg s

/-- SRESET (R157): the block to its reset values, FREQ and BS_BUF left as they are (log 12), FILE and INP not changed; what
BS_BUF and BS_ACC held for FILE is lost. -/
def execSreset (s : State) : Host.Outcome State Fault Refusal := answer 0 (clearBlock s)

end Sys2Proof.Machine
end

