-- ==== Sys2Proof/Machine/TreeCodec.lean ====
section
/-! DEFINITION. The tree-codec commands TC_WTREE and TC_RTREE (43_tree_codec.md R143, R145). -/

namespace Sys2Proof.Machine

/-- TC_WTREE (R143): the tree block of ROOT straight to FILE; the answer is its length. -/
def execTcWtree (s : State) : Host.Outcome State Fault Refusal :=
  match headerCheck .write s with
  | some e => refuse e s
  | none => answer (BitVec.ofNat 64 (ser s.root).length) (addTotal (ser s.root).length (fileAppend (ser s.root) s))

/-- What the parse of TC_RTREE leaves before its verdict is looked at: ROOT null, the bytes taken from FILE and counted,
the queue with the leaves enqueued on the way (R144, R145). -/
def afterParse (p : Parsed) (s : State) : State :=
  addTotal p.taken (fileAdvance p.taken { s with root := none, pq := p.pq })

/-- TC_RTREE (R145): ROOT and the queue destroyed, a tree block parsed, its leaves merged. E_FORMAT empties the queue
again and keeps Q_OVF; NULL for an empty block; else the answer is the number of bytes consumed. -/
def execTcRtree (s : State) : Host.Outcome State Fault Refusal :=
  match headerCheck .read s with
  | some e => refuse e s
  | none =>
    let p := parse .opening 0 Queue.fresh (fileRest s)
    let s1 := afterParse p s
    if p.good then
      match s1.pq.merge with
      | (none, q) => refuse .null { s1 with pq := q }
      | (some t, q) => answer (s1.bs.total - s.bs.total) { s1 with pq := q, root := some t }
    else refuse .eFormat { s1 with pq := { s1.pq with slots := [] } }

end Sys2Proof.Machine
end

