-- ==== Sys2Proof/Machine/Dispatch.lean ====
section
/-! DEFINITION. The dispatch: one arm per command of 30_encoding.md R64, each one call of its meaning. -/

namespace Sys2Proof.Machine

def exec (i : Instr) (s : State) : Host.Outcome State Fault Refusal :=
  match i with
  | .nop => Sys2Proof.Machine.execNop s
  | .freqClr => Sys2Proof.Machine.execFreqClr s
  | .freqAdd sym => Sys2Proof.Machine.execFreqAdd sym s
  | .freqScan => Sys2Proof.Machine.execFreqScan s
  | .freqRd sym => Sys2Proof.Machine.execFreqRd sym s
  | .htLeaves => Sys2Proof.Machine.execHtLeaves s
  | .htMerge => Sys2Proof.Machine.execHtMerge s
  | .htBuild => Sys2Proof.Machine.execHtBuild s
  | .htCode sym => Sys2Proof.Machine.execHtCode sym s
  | .htFind => Sys2Proof.Machine.execHtFind s
  | .htSize => Sys2Proof.Machine.execHtSize s
  | .htFree => Sys2Proof.Machine.execHtFree s
  | .pqClr => Sys2Proof.Machine.execPqClr s
  | .pqEnq sym count => Sys2Proof.Machine.execPqEnq sym count s
  | .pqDeq => Sys2Proof.Machine.execPqDeq s
  | .pqPeekc idx => Sys2Proof.Machine.execPqPeekc idx s
  | .pqPeekk idx => Sys2Proof.Machine.execPqPeekk idx s
  | .codeClr => Sys2Proof.Machine.execCodeClr s
  | .codePush b => Sys2Proof.Machine.execCodePush b s
  | .bsOpen m => Sys2Proof.Machine.execBsOpen m s
  | .bsClose => Sys2Proof.Machine.execBsClose s
  | .bsWbit b => Sys2Proof.Machine.execBsWbit b s
  | .bsRbit => Sys2Proof.Machine.execBsRbit s
  | .bsWu64 v => Sys2Proof.Machine.execBsWu64 v s
  | .bsRu64 => Sys2Proof.Machine.execBsRu64 s
  | .bsNbytes => Sys2Proof.Machine.execBsNbytes s
  | .tcWtree => Sys2Proof.Machine.execTcWtree s
  | .tcRtree => Sys2Proof.Machine.execTcRtree s
  | .rdsr idx => Sys2Proof.Machine.execRdsr idx s
  | .sreset => Sys2Proof.Machine.execSreset s

end Sys2Proof.Machine
end

