-- ==== Sys2Proof/Machine/Interface.lean ====
section
/-! DEFINITION. The host's and the environment's side of the interface (00_scope.md R5, R6; 20_memory.md R41, R42, R57;
70_reset_and_hazards.md R180 to R183): how a command is presented and how each event is taken (log 7, 9, 10, 15). -/

namespace Sys2Proof.Machine

/-- An illegal word (R65 to R67): "the response is (E_ILLEGAL, 0) and no state changes". -/
def illegalWord (s : State) : Host.Outcome State Fault Refusal := refuse .eIllegal s

/-- The command (CW, ARG) performed: decoded, then executed, or answered as illegal (R68). -/
def perform (cw : CmdWord) (arg : Wide) (s : State) : Host.Outcome State Fault Refusal :=
  match decode cw arg with
  | .ok i => exec i s
  | .error _ => illegalWord s

/-- The inputs the environment supplies with a command (R5). -/
def withGrants (g gi : Bool) (s : State) : State := { s with envGrant := g, envInpGrant := gi }

/-- One event taken (R5, R41, R42, R57, R180). FILE replaced while a stream is open breaks R57 and is a fault (log 9);
replaced while CLOSED, the read position is put at 0 (log 10). -/
def takeEvent (e : Event) (s : State) : Host.Outcome State Fault Refusal :=
  match e with
  | .command cw arg g gi => perform cw arg (withGrants g gi s)
  | .setFile d => if s.bs.mode = .closed then .next { s with file := ⟨d, 0⟩ } else .fault .fileReplacedWhileOpen
  | .setInp d => .next { s with inp := d }
  | .reset => .next (hardReset s)

/-- The next event taken off the list and performed; with none, the block waits (R172, R180: "after reset the block waits
for its first command"). -/
def takeNext (s : State) : Host.Outcome State Fault Refusal :=
  match s.pending with
  | [] => .next s
  | e :: rest => takeEvent e { s with pending := rest }

/-- The command whose bits are `w` (numbered as spec/opcode_table.json numbers them) presented as the next event, with the
grants that stand in the state (log 7, log 14). -/
def presentWord (s : State) (nbits w : Nat) : State :=
  { s with pending := .command (cwOfTable nbits w) (argOfTable nbits w) s.envGrant s.envInpGrant :: s.pending }

end Sys2Proof.Machine
end

