-- ==== Sys2Proof/Machine/Step.lean ====
section
/-! DEFINITION. One step of the machine: one event taken (00_scope.md R5, R6). -/

namespace Sys2Proof.Machine

/-- One step: the next event, a command of the host or a move of the environment, performed wholly (R5, R6). -/
def step (s : State) : Host.Outcome State Fault Refusal := takeNext s

/-- `s` with the command whose table bits are `w` presented as its next event, so that the very next step runs it. -/
def State.withFetchWord (s : State) (nbits w : Nat) : State := presentWord s nbits w

end Sys2Proof.Machine
end

