-- ==== Sys2Proof/Safety.lean ====
section
/-! DEFINITION. What counts as a sound state and a safe run, in the terms claims use: the invariants the spec states between
commands (10_state.md R14, R17, R21, R26 to R28; 30_encoding.md R62) and the safety condition of 60_exceptions.md R167. -/

namespace Sys2Proof.Machine

/-- Every Internal node is `mk_internal` of its children (R12, R13): its count is the sum of theirs modulo 2^64 (R26(a)) and
its key symbol is KSYM_INTERNAL of them. -/
def Tree.wf : Tree → Bool
  | .leaf _ _ => true
  | .node c k l r => decide (c = l.count + r.count) && decide (k = ksymInternal l r) && l.wf && r.wf

/-- The heap invariant of R14: no element has a smaller key than the element it is a child of. -/
def heapOrdered (q : List Tree) : Prop :=
  ∀ i c, (c = 2 * i + 1 ∨ c = 2 * i + 2) → ∀ a b, q[i]? = some a → q[c]? = some b → keyLt b a = false

/-- What holds of the queue between commands: at most 256 elements, all of them leaves (R26(c)), in heap order (R14). -/
structure QueueInv (q : Queue) : Prop where
  bounded : q.slots.length ≤ 256
  leaves : ∀ t ∈ q.slots, t.isLeaf = true
  heap : heapOrdered q.slots

/-- What holds of ROOT: well-formed, at most 256 leaves (R26, R27). -/
def RootInv (r : Option Tree) : Prop := ∀ t, r = some t → t.wf = true ∧ t.leaves.length ≤ 256

/-- What holds of CODE (R17): CODE_LEN at most 256 and "CODE_BITS[255:n] = 0". -/
def CodeInv (c : Code) : Prop := c.len ≤ 256 ∧ c.bits.toNat < 2 ^ c.len

/-- R28(a): a closed stream is idle. -/
structure ClosedInv (b : Stream) : Prop where
  acc : b.acc = 0
  nbits : b.nbits = 0
  cur : b.cur = 0
  avail : b.avail = 0
  bitPhase : b.bitPhase = false

/-- R28(b), (c): a write stream. BS_TOTAL is a 64-bit register, so its equation is modulo 2^64 (log 17). -/
structure WriteInv (s : State) : Prop where
  nbits : s.bs.nbits ≤ 7
  acc : s.bs.acc.toNat < 2 ^ s.bs.nbits
  cur : s.bs.cur < s.bufBytes
  avail : s.bs.avail = 0
  total : s.bs.total = BitVec.ofNat 64 (s.file.data.length + s.bs.cur)
  header : s.bs.bitPhase = false → s.bs.nbits = 0 ∧ s.bs.cur = 0

/-- The bytes of a read stream not yet loaded into BS_ACC: BS_BUF[BS_CUR..BS_AVAIL-1], then the rest of FILE (R21). -/
def unreadBytes (s : State) : List Byte := (s.bs.buf.take s.bs.avail).drop s.bs.cur ++ fileRest s

/-- R28(d), (e), and R21: a read stream, with BS_BUF holding "bytes taken from FILE and not yet loaded into BS_ACC". -/
structure ReadInv (s : State) : Prop where
  nbits : s.bs.nbits ≤ 7
  acc : s.bs.acc.toNat % 2 ^ (8 - s.bs.nbits) = 0
  cur : s.bs.cur ≤ s.bs.avail
  avail : s.bs.avail ≤ s.bufBytes
  rpos : s.file.rpos ≤ s.file.data.length
  ahead : s.bs.avail - s.bs.cur ≤ s.file.rpos
  total : s.bs.total = BitVec.ofNat 64 (s.file.rpos - (s.bs.avail - s.bs.cur))
  prefetched : unreadBytes s = s.file.data.drop (s.file.rpos - (s.bs.avail - s.bs.cur))
  header : s.bs.bitPhase = false → s.bs.nbits = 0 ∧ s.bs.cur = 0 ∧ s.bs.avail = 0

/-- What holds of the BS unit, FILE and BUF_BYTES between commands (R4, R10, R28). -/
structure StreamInv (s : State) : Prop where
  param : 1 ≤ s.bufBytes
  buf : s.bs.buf.length = s.bufBytes
  closed : s.bs.mode = .closed → ClosedInv s.bs
  write : s.bs.mode = .write → WriteInv s
  read : s.bs.mode = .read → ReadInv s

/-- What holds of the HT unit and CODE between commands. -/
structure TreeInv (s : State) : Prop where
  queue : QueueInv s.pq
  root : RootInv s.root
  code : CodeInv s.code

/-- "RESULT = 0 whenever STATUS != OK" (R62), of every response given. -/
def ResponsesInv (s : State) : Prop := ∀ r ∈ s.responses, r.status ≠ .ok → r.result = 0

/-- The safety condition of a run (R167): "a predicate over the responses the host received plus Q_OVF = 0 at the end". Here:
no response but OK and the ordinary stream end EOD. -/
def State.clean (s : State) : Prop := s.pq.ovf = false ∧ ∀ r ∈ s.responses, r.status = .ok ∨ r.status = .eod

end Sys2Proof.Machine
end

