-- ==== Sys2Proof/Certificates/Slice0/Obligations.lean ====
section
/-! DEFINITION. The statements for the provers. Each docstring names the rules of spec/ it formalises. A next state is written
as an update of the state before wherever the rules fix it, so the equation says the result and the frame at once. -/

open Sys2Proof Sys2Proof.Machine

namespace Sys2Proof.Claims

/-! ### Words used by the statements -/

/-- The opcodes of R64 with "-" under imm. -/
def plainOpcodes : List Nat :=
  [0x00, 0x01, 0x03, 0x08, 0x09, 0x0A, 0x0C, 0x0D, 0x0E, 0x10, 0x12, 0x18, 0x21, 0x23, 0x24, 0x25, 0x26, 0x30, 0x31, 0x7F]

/-- The opcodes of R64 that take an immediate. -/
def immOpcodes : List Nat := [0x02, 0x04, 0x0B, 0x11, 0x13, 0x14, 0x19, 0x20, 0x22, 0x40]

/-- RSV, OPC and IMM8 of a word by division (R60). -/
def rsvNat (cw : CmdWord) : Nat := cw.toNat / 2 ^ 16
def opcNat (cw : CmdWord) : Nat := cw.toNat % 2 ^ 8
def immNat (cw : CmdWord) : Nat := cw.toNat / 2 ^ 8 % 2 ^ 8

/-- The event that presents a command with both grants given. -/
def present (i : Instr) : Event := .command (encode i).1 (encode i).2 true true

/-- The byte 0 or 1 of a bit, the operand of BS_WBIT. -/
def bitByte (b : Bool) : Byte := BitVec.ofNat 8 b.toNat

/-- The response (OK, bit). -/
def okBit (b : Bool) : Response := ⟨.ok, BitVec.ofNat 64 b.toNat⟩

/-- `byte(b_0..b_7)` of R83, of at most eight bits padded with zeros: b_0 is the most significant. -/
def packByte (w : List Bool) : Byte :=
  BitVec.ofNat 8 ((w ++ List.replicate (8 - w.length) false).foldl (fun a b => 2 * a + b.toNat) 0)

/-- `pack(w)` of R83: byte i is made of the bits w[8i .. 8i+7], the last one zero-padded. -/
def pack (w : List Bool) : List Byte :=
  (List.range ((w.length + 7) / 8)).map (fun i => packByte ((w.drop (8 * i)).take 8))

/-- `unpack(d)` of R83: d[0][7], ..., d[0][0], d[1][7], ... -/
def unpack (d : List Byte) : List Bool := d.flatMap (fun b => (List.range 8).map (fun j => b.getLsbD (7 - j)))

/-- The dequeues of a queue, one after another, at most `n` of them. -/
def drain : Nat → Queue → List Machine.Tree
  | 0, _ => []
  | n + 1, q =>
    match q.dequeue with
    | (some m, q') => m :: drain n q'
    | (none, _) => []

/-- The queue that a list of leaves leaves when enqueued in order into a fresh queue. -/
def queueOfLeaves (l : List (Symbol × Count)) : Queue := l.foldl (fun q x => q.enqueue (.leaf x.1 x.2)) Queue.fresh

/-- The bytes of a tree block with these records (R140). -/
def blockText (l : List (Symbol × Count)) : List Byte :=
  [0x23] ++ l.flatMap (fun x => dec x.2.toNat ++ [0x20] ++ dec x.1.toNat ++ [0x2C]) ++ [0x23]

/-- R101's loop as a relation: the array `q`, sifted up from index `i` in so many turns of the loop, is `q'`. A strictly smaller
element is swapped with its parent; an equal one is not. -/
inductive SiftUp : Nat → List Machine.Tree → Nat → List Machine.Tree → Prop
  | top {q} : SiftUp 0 q 0 q
  | stay {q i a b} : 0 < i → q[i]? = some a → q[(i - 1) / 2]? = some b → keyLt a b = false → SiftUp 1 q i q
  | swap {q i a b n q'} : 0 < i → q[i]? = some a → q[(i - 1) / 2]? = some b → keyLt a b = true →
      SiftUp n ((q.set i b).set ((i - 1) / 2) a) ((i - 1) / 2) q' → SiftUp (n + 1) q i q'

/-- The child R102 compares with: "the smaller child; left on a tie". -/
def IsSmallerChild (q : List Machine.Tree) (i c : Nat) : Prop :=
  (c = 2 * i + 1 ∧ ∃ l, q[2 * i + 1]? = some l ∧ ∀ r, q[2 * i + 2]? = some r → keyLt r l = false) ∨
  (c = 2 * i + 2 ∧ ∃ l r, q[2 * i + 1]? = some l ∧ q[2 * i + 2]? = some r ∧ keyLt r l = true)

/-- R102's loop as a relation: the array `q`, sifted down from index `i` in so many turns of the loop, is `q'`. -/
inductive SiftDown : Nat → List Machine.Tree → Nat → List Machine.Tree → Prop
  | bottom {q i} : q.length ≤ 2 * i + 1 → SiftDown 1 q i q
  | stay {q i c a b} : IsSmallerChild q i c → q[i]? = some a → q[c]? = some b → keyLt b a = false → SiftDown 1 q i q
  | swap {q i c a b n q'} : IsSmallerChild q i c → q[i]? = some a → q[c]? = some b → keyLt b a = true →
      SiftDown n ((q.set i b).set c a) c q' → SiftDown (n + 1) q i q'

/-- What R102 leaves of the array below its root: nothing, or the last element moved to the root and sifted down. -/
def Refilled (rest q : List Machine.Tree) : Prop :=
  (rest = [] → q = []) ∧ (∀ init last, rest = init ++ [last] → ∃ n, n ≤ 8 ∧ SiftDown n (last :: init) 0 q)

/-- `digit` of R140. -/
def isDec (c : Byte) : Bool := decide (0x30 ≤ c.toNat) && decide (c.toNat ≤ 0x39)

/-- The number a sequence of digits spells, leading zeros allowed (R144). -/
def numVal (d : List Byte) : Nat := d.foldl (fun a c => a * 10 + (c.toNat - 0x30)) 0

/-- `number` of R140, one digit or more, that spells less than `n`. -/
def numeralBelow (n : Nat) (d : List Byte) : Bool := !d.isEmpty && d.all isDec && decide (numVal d < n)

/-- A record as it is written: the digits of its count and those of its symbol (R140). -/
structure RecordText where
  count : List Byte
  symbol : List Byte

/-- The record parses (R144): its count fits 64 bits and its symbol is at most 255. -/
def RecordText.good (r : RecordText) : Bool := numeralBelow (2 ^ 64) r.count && numeralBelow 256 r.symbol

/-- `<count> <symbol>,` (R140). -/
def RecordText.text (r : RecordText) : List Byte := r.count ++ [0x20] ++ r.symbol ++ [0x2C]

/-- The leaf a record stands for (R144). -/
def RecordText.leaf (r : RecordText) : Symbol × Count := (BitVec.ofNat 8 (numVal r.symbol), BitVec.ofNat 64 (numVal r.count))

/-- The opening `#` and these records; the closing `#` is not in it. -/
def openBlock (l : List RecordText) : List Byte := [0x23] ++ l.flatMap RecordText.text

/-- A record begun and not ended: nothing yet, in its count, before its symbol, or in its symbol (the four places where
R144's parser can stand inside a block). -/
def Unfinished (p : List Byte) : Prop :=
  p = [] ∨ numeralBelow (2 ^ 64) p = true ∨
  ∃ d e, p = d ++ [0x20] ++ e ∧ numeralBelow (2 ^ 64) d = true ∧ (e = [] ∨ numeralBelow 256 e = true)

/-- The byte that makes a record begun as `p` fail to parse (R144): no digit and no `#` where a record begins; no digit and no
space in a count, or the digit that takes it to 2^64 or above; no digit where the symbol begins; no digit and no comma in a
symbol, or the digit that takes it above 255. -/
def Offends (p : List Byte) (c : Byte) : Prop :=
  (p = [] ∧ isDec c = false ∧ c ≠ 0x23) ∨
  (numeralBelow (2 ^ 64) p = true ∧ (isDec c = false ∧ c ≠ 0x20 ∨ isDec c = true ∧ 2 ^ 64 ≤ numVal (p ++ [c]))) ∨
  (∃ d, p = d ++ [0x20] ∧ numeralBelow (2 ^ 64) d = true ∧ isDec c = false) ∨
  (∃ d e, p = d ++ [0x20] ++ e ∧ numeralBelow (2 ^ 64) d = true ∧ numeralBelow 256 e = true ∧
    (isDec c = false ∧ c ≠ 0x2C ∨ isDec c = true ∧ 256 ≤ numVal (e ++ [c])))

/-- The state TC_RTREE leaves with E_FORMAT (R145): ROOT null, the queue empty, `k` bytes consumed and counted, Q_OVF = `o`. -/
def badBlock (k : Nat) (o : Bool) (s : State) : State :=
  respond .eFormat 0
    { s with
      root := none, pq := ⟨[], o⟩
      file := { s.file with rpos := s.file.rpos + k }
      bs := { s.bs with total := s.bs.total + BitVec.ofNat 64 k } }

/-- SENTINEL_SYM with its default (R4, D21). -/
def sentinelOf (s : Symbol) : Symbol := if s = 0 then 1 else 0

/-- The modes a command needs (R75, R143, R145); `none` for a command with no mode check. -/
def modesFor : Instr → Option (List Mode)
  | .bsOpen _ => some [.closed]
  | .bsClose => some [.read, .write]
  | .bsWbit _ => some [.write]
  | .bsWu64 _ => some [.write]
  | .tcWtree => some [.write]
  | .bsRbit => some [.read]
  | .bsRu64 => some [.read]
  | .tcRtree => some [.read]
  | _ => none

/-- The header commands (00_scope.md, glossary). -/
def isHeader : Instr → Bool
  | .bsWu64 _ => true
  | .bsRu64 => true
  | .tcWtree => true
  | .tcRtree => true
  | _ => false

/-- The statuses but OK a command can answer, row by row of R163. -/
def failuresOf : Instr → List Status
  | .freqScan => [.eOpen]
  | .htBuild => [.eOpen, .null]
  | .htMerge => [.null]
  | .pqDeq => [.null]
  | .htCode _ => [.null, .eNotFound]
  | .htFind => [.null, .eNotFound]
  | .pqPeekc _ => [.eArg]
  | .pqPeekk _ => [.eArg]
  | .rdsr _ => [.eArg]
  | .codePush _ => [.eArg]
  | .bsOpen _ => [.eArg, .eMode, .eOpen]
  | .bsClose => [.eMode]
  | .bsWbit _ => [.eArg, .eMode]
  | .bsRbit => [.eMode, .eod]
  | .bsWu64 _ => [.eMode, .ePhase]
  | .tcWtree => [.eMode, .ePhase]
  | .bsRu64 => [.eMode, .ePhase, .eod]
  | .tcRtree => [.eMode, .ePhase, .eFormat, .null]
  | _ => []

/-- Who writes FREQ (R11). -/
def writesFreq : Instr → Bool
  | .freqClr => true
  | .freqAdd _ => true
  | .freqScan => true
  | .htBuild => true
  | _ => false

/-- Who writes the queue (R14; SRESET by R157). -/
def writesQueue : Instr → Bool
  | .pqClr => true
  | .pqEnq _ _ => true
  | .pqDeq => true
  | .htLeaves => true
  | .htMerge => true
  | .htBuild => true
  | .tcRtree => true
  | .sreset => true
  | _ => false

/-- Who clears Q_OVF (R15). -/
def clearsOvf : Instr → Bool
  | .pqClr => true
  | .htLeaves => true
  | .htBuild => true
  | .tcRtree => true
  | .sreset => true
  | _ => false

/-- Who writes ROOT (D38; SRESET by R157). -/
def writesRoot : Instr → Bool
  | .pqDeq => true
  | .htMerge => true
  | .htBuild => true
  | .htFree => true
  | .tcRtree => true
  | .sreset => true
  | _ => false

/-- Who writes CODE (R17; SRESET by R157). -/
def writesCode : Instr → Bool
  | .codeClr => true
  | .codePush _ => true
  | .htCode _ => true
  | .sreset => true
  | _ => false

/-- Who writes the BS unit (R18 to R23). -/
def writesStream : Instr → Bool
  | .bsOpen _ => true
  | .bsClose => true
  | .bsWbit _ => true
  | .bsRbit => true
  | .bsWu64 _ => true
  | .bsRu64 => true
  | .tcWtree => true
  | .tcRtree => true
  | .sreset => true
  | _ => false

/-- Who writes FILE.data (R49, R76). -/
def writesFileData : Instr → Bool
  | .bsOpen _ => true
  | .bsClose => true
  | .bsWbit _ => true
  | .bsWu64 _ => true
  | .tcWtree => true
  | _ => false

/-- Two states a host cannot tell apart but by BS_CUR, BS_AVAIL and BUF_BYTES (R52): the same block and host but for the
batch buffer, and the same logical stream. -/
structure SameButBuffering (s t : State) : Prop where
  freq : s.freq = t.freq
  pq : s.pq = t.pq
  root : s.root = t.root
  code : s.code = t.code
  mode : s.bs.mode = t.bs.mode
  acc : s.bs.acc = t.bs.acc
  nbits : s.bs.nbits = t.bs.nbits
  total : s.bs.total = t.bs.total
  bitPhase : s.bs.bitPhase = t.bs.bitPhase
  inp : s.inp = t.inp
  envGrant : s.envGrant = t.envGrant
  envInpGrant : s.envInpGrant = t.envInpGrant
  pending : s.pending = t.pending
  responses : s.responses = t.responses
  written : s.file.data ++ s.bs.buf.take s.bs.cur = t.file.data ++ t.bs.buf.take t.bs.cur ∨ s.bs.mode ≠ .write
  present : s.file.data = t.file.data ∨ s.bs.mode = .write
  unread : unreadBytes s = unreadBytes t ∨ s.bs.mode ≠ .read

end Sys2Proof.Claims

open Sys2Proof.Claims

/-! ### Encoding and stepping -/

/-- Words written out from the encoding of R64 and the tables of R71 and 95_test_vectors.md, at least one of each family. -/
def Obligations.SpecWordsDecode : Prop :=
  decode 0x00000000 7 = .ok .nop ∧ decode 0x0000007F 0 = .ok .sreset ∧ decode 0x00000540 0 = .ok (.rdsr 5) ∧
  decode 0x00006102 0 = .ok (.freqAdd 97) ∧ decode 0x00000003 0 = .ok .freqScan ∧
  decode 0x00006111 4 = .ok (.pqEnq 97 4) ∧ decode 0x0000FF13 0 = .ok (.pqPeekc 255) ∧
  decode 0x0000000A 0 = .ok .htBuild ∧ decode 0x0000610B 9 = .ok (.htCode 97) ∧ decode 0x00000119 0 = .ok (.codePush 1) ∧
  decode 0x00000120 0 = .ok (.bsOpen 1) ∧ decode 0x00000122 0 = .ok (.bsWbit 1) ∧
  decode 0x00000024 300 = .ok (.bsWu64 300) ∧ decode 0x00000030 0 = .ok .tcWtree ∧ decode 0x00000031 0 = .ok .tcRtree ∧
  decode 0x00010222 0 = .error .reservedBits ∧ decode 0x0000000F 0 = .error .unassignedOpcode ∧
  decode 0x00000121 0 = .error .unusedImmediate

/-- Decoding the encoding of a command gives the command back, whatever its operands (R60, R61, R64). -/
def Obligations.DecodeUndoesEncode : Prop := ∀ i : Instr, decode (encode i).1 (encode i).2 = .ok i

/-- Each legal word is the encoding of the command it decodes to, and ARG matters only through the command (R61, R64). -/
def Obligations.EncodeUndoesDecode : Prop :=
  ∀ (cw : CmdWord) (arg : Wide) (i : Instr), decode cw arg = .ok i →
    (encode i).1 = cw ∧ decode cw (encode i).2 = .ok i ∧
    ((∀ sym c, i ≠ .pqEnq sym c) → (∀ v, i ≠ .bsWu64 v) → ∀ arg' : Wide, decode cw arg' = .ok i)

/-- R68: the four steps of the decode procedure in their order, by division of the word; and the match and mask pairs of
opcode_table.json accept the same words. -/
def Obligations.DecodeFollowsTheFourSteps : Prop :=
  ∀ (cw : CmdWord) (arg : Wide),
    (rsvNat cw ≠ 0 → decode cw arg = .error .reservedBits) ∧
    (rsvNat cw = 0 → opcNat cw ∉ plainOpcodes ++ immOpcodes → decode cw arg = .error .unassignedOpcode) ∧
    (rsvNat cw = 0 → opcNat cw ∈ plainOpcodes → immNat cw ≠ 0 → decode cw arg = .error .unusedImmediate) ∧
    (rsvNat cw = 0 → (opcNat cw ∈ plainOpcodes ∧ immNat cw = 0 ∨ opcNat cw ∈ immOpcodes) →
      ∃ i, decode cw arg = .ok i ∧ i.opcode.toNat = opcNat cw ∧ i.imm8.toNat = immNat cw) ∧
    ((∃ i, decode cw arg = .ok i) ↔ ∃ row ∈ opcodeTable, cw &&& row.2 = row.1)

/-- R65, R66 (and the decode half of R67): an illegal word presented to the block is answered with (E_ILLEGAL, 0) and no
state changes, whatever ARG is. -/
def Obligations.IllegalWordsAnswerEIllegal : Prop :=
  ∀ (s : State) (cw : CmdWord) (arg : Wide) (g gi : Bool) (rest : List Event),
    s.pending = .command cw arg g gi :: rest →
    (rsvNat cw ≠ 0 ∨ opcNat cw ∉ plainOpcodes ++ immOpcodes ∨ (opcNat cw ∈ plainOpcodes ∧ immNat cw ≠ 0)) →
    step s = .next (respond .eIllegal 0 { s with pending := rest, envGrant := g, envInpGrant := gi })

/-- A step performs the command presented next, with the environment's grants (R5); waits when there is none (R172); and
runs a word placed by withFetchWord at once. -/
def Obligations.StepPerformsThePresentedCommand : Prop :=
  (∀ (s : State) (cw : CmdWord) (arg : Wide) (g gi : Bool) (rest : List Event) (i : Instr),
    s.pending = .command cw arg g gi :: rest → decode cw arg = .ok i →
    step s = exec i { s with pending := rest, envGrant := g, envInpGrant := gi }) ∧
  (∀ s : State, s.pending = [] → step s = .next s) ∧
  (∀ (s : State) (nbits w : Nat) (i : Instr), decodeTableWord nbits w = some i →
    step (s.withFetchWord nbits w) = exec i s)

/-- The environment's moves (R41, R42): FILE may be replaced while the stream is closed (FILE.rpos is then 0: the model's
choice, log 10), INP between any two commands; FILE replaced while a stream is open breaks R57 and is the model's fault
(log 9). -/
def Obligations.EnvironmentMovesBetweenCommands : Prop :=
  ∀ (s : State) (d : List Byte) (rest : List Event),
    (s.pending = .setFile d :: rest → s.bs.mode = .closed → step s = .next { s with pending := rest, file := ⟨d, 0⟩ }) ∧
    (s.pending = .setFile d :: rest → s.bs.mode ≠ .closed → step s = .fault .fileReplacedWhileOpen) ∧
    (s.pending = .setInp d :: rest → step s = .next { s with pending := rest, inp := d })

/-- R181 and R183: the hardware reset, at any moment between commands, puts every register with a stated reset value at it,
the status registers read as R181 says, and FILE and INP are not touched. -/
def Obligations.HardwareResetLeavesTheResetValues : Prop :=
  ∀ (s : State) (rest : List Event), s.pending = .reset :: rest →
    ∃ t, step s = .next t ∧
      t.bs.mode = .closed ∧ t.bs.acc = 0 ∧ t.bs.nbits = 0 ∧ t.bs.cur = 0 ∧ t.bs.avail = 0 ∧ t.bs.total = 0 ∧
      t.bs.bitPhase = false ∧ t.pq.slots = [] ∧ t.pq.ovf = false ∧ t.root = none ∧ t.code.len = 0 ∧ t.code.bits = 0 ∧
      statusView t 0 = some 0x4855464600000001 ∧
      (∀ idx : Byte, 1 ≤ idx.toNat → idx.toNat ≤ 10 → statusView t idx = some 0) ∧
      statusView t 11 = some (BitVec.ofNat 64 (min s.bufBytes (2 ^ 64 - 1))) ∧
      t.file = s.file ∧ t.inp = s.inp ∧ t.bufBytes = s.bufBytes ∧ t.pending = rest ∧ t.responses = s.responses

/-- R181: State.reset is the state the hardware reset leaves, in every register the spec gives a value for. -/
def Obligations.ResetStateHoldsTheResetValues : Prop :=
  State.reset.bs.mode = .closed ∧ State.reset.bs.acc = 0 ∧ State.reset.bs.nbits = 0 ∧ State.reset.bs.cur = 0 ∧
  State.reset.bs.avail = 0 ∧ State.reset.bs.total = 0 ∧ State.reset.bs.bitPhase = false ∧ State.reset.pq.slots = [] ∧
  State.reset.pq.ovf = false ∧ State.reset.root = none ∧ State.reset.code.len = 0 ∧ State.reset.code.bits = 0 ∧
  statusView State.reset 0 = some 0x4855464600000001 ∧
  (∀ idx : Byte, 1 ≤ idx.toNat → idx.toNat ≤ 10 → statusView State.reset idx = some 0) ∧
  statusView State.reset 11 = some (BitVec.ofNat 64 (min State.reset.bufBytes (2 ^ 64 - 1)))

/-! ### System commands -/

/-- R155 and R157: NOP answers (OK, 0) and changes nothing; SRESET puts every register of R181 at its reset value, leaves FREQ
and BS_BUF as they are and does not change FILE or INP: what BS_BUF and BS_ACC held is lost. -/
def Obligations.NopAndSresetResults : Prop :=
  ∀ s : State, exec .nop s = .next (respond .ok 0 s) ∧
    exec .sreset s = .next (respond .ok 0
      { s with
        pq := ⟨[], false⟩, root := none, code := ⟨0, 0⟩
        bs := { s.bs with mode := .closed, acc := 0, nbits := 0, cur := 0, avail := 0, total := 0, bitPhase := false } })

/-- R156 with the table of R34: each view bit by bit; E_ARG for 12..255; nothing is written. -/
def Obligations.RdsrReturnsTheView : Prop :=
  ∀ s : State, s.bs.nbits ≤ 8 → s.pq.slots.length ≤ 256 → s.code.len ≤ 256 →
    exec (.rdsr 0) s = .next (respond .ok 0x4855464600000001 s) ∧
    (∃ v, exec (.rdsr 1) s = .next (respond .ok v s) ∧ v.toNat =
      (match s.bs.mode with | .closed => 0 | .read => 1 | .write => 2) + 4 * s.bs.nbits + 64 * s.bs.acc.toNat +
        16384 * s.bs.bitPhase.toNat) ∧
    exec (.rdsr 2) s = .next (respond .ok s.bs.total s) ∧
    (∃ v, exec (.rdsr 3) s = .next (respond .ok v s) ∧
      v.toNat = min s.bs.cur (2 ^ 32 - 1) + 2 ^ 32 * min s.bs.avail (2 ^ 32 - 1)) ∧
    (∃ v, exec (.rdsr 4) s = .next (respond .ok v s) ∧ v.toNat = s.pq.slots.length + 65536 * s.pq.ovf.toNat) ∧
    (∃ v, exec (.rdsr 5) s = .next (respond .ok v s) ∧
      v.toNat = match s.root with | none => 0 | some (.leaf _ _) => 3 | some (.node _ _ _ _) => 1) ∧
    (∃ v, exec (.rdsr 6) s = .next (respond .ok v s) ∧ v.toNat = s.code.len) ∧
    (∀ k : Nat, k < 4 → ∃ v, exec (.rdsr (BitVec.ofNat 8 (7 + k))) s = .next (respond .ok v s) ∧
      ∀ j, j < 64 → v.getLsbD j = s.code.bits.getLsbD (64 * k + j)) ∧
    (∃ v, exec (.rdsr 11) s = .next (respond .ok v s) ∧ v.toNat = min s.bufBytes (2 ^ 64 - 1)) ∧
    (∀ idx : Byte, 12 ≤ idx.toNat → exec (.rdsr idx) s = .next (respond .eArg 0 s))

/-! ### The frequency table -/

/-- R115, R116, R118: FREQ_CLR zeroes every counter; FREQ_ADD raises one counter modulo 2^64, answers its new value and
leaves the others; FREQ_RD answers the counter and changes nothing. -/
def Obligations.FreqClearAddReadResults : Prop :=
  ∀ (s : State) (y : Symbol),
    (∃ f, exec .freqClr s = .next (respond .ok 0 { s with freq := f }) ∧ ∀ x : Symbol, f[x.toNat] = 0) ∧
    (∃ f, exec (.freqAdd y) s = .next (respond .ok (s.freq[y.toNat] + 1) { s with freq := f }) ∧
      ∀ x : Symbol, f[x.toNat] = if x = y then s.freq[y.toNat] + 1 else s.freq[x.toNat]) ∧
    exec (.freqRd y) s = .next (respond .ok s.freq[y.toNat] s)

/-- R117: with the grant each counter becomes the number of its bytes in INP modulo 2^64, whatever it was, the sum of all
is the length of INP modulo 2^64, the answer is that length, and INP is not consumed; without it E_OPEN and nothing
changes. -/
def Obligations.FreqScanCountsTheBytes : Prop :=
  ∀ s : State,
    (s.envInpGrant = true → ∃ f, exec .freqScan s = .next (respond .ok (BitVec.ofNat 64 s.inp.length) { s with freq := f }) ∧
      (∀ x : Symbol, f[x.toNat] = BitVec.ofNat 64 (s.inp.count x)) ∧
      f.toList.sum = BitVec.ofNat 64 s.inp.length) ∧
    (s.envInpGrant = false → exec .freqScan s = .next (respond .eOpen 0 s))

/-! ### The priority queue -/

/-- R104 with R101, R109 and R15: below capacity the array becomes what R101 makes of it, the new leaf appended and sifted up
past strictly larger parents only; so it holds the leaf and the old elements, in heap order if it was, and the answer is the
new QN; at capacity the leaf is dropped, QN is answered and Q_OVF set. -/
def Obligations.PqEnqResults : Prop :=
  ∀ (s : State) (sym : Symbol) (c : Count),
    (s.pq.slots.length < 256 →
      ∃ q, exec (.pqEnq sym c) s =
          .next (respond .ok (BitVec.ofNat 64 (s.pq.slots.length + 1)) { s with pq := ⟨q, s.pq.ovf⟩ }) ∧
        (∃ n, n ≤ 8 ∧ SiftUp n (s.pq.slots ++ [.leaf sym c]) s.pq.slots.length q) ∧
        q.Perm (.leaf sym c :: s.pq.slots) ∧ (heapOrdered s.pq.slots → heapOrdered q)) ∧
    (s.pq.slots.length = 256 →
      exec (.pqEnq sym c) s = .next (respond .ok 256 { s with pq := ⟨s.pq.slots, true⟩ }))

/-- R105 with R102 and R109: PQ_DEQ moves the first element of the queue to ROOT and answers its count; the array becomes what
R102 makes of the rest, its last element moved to the root and sifted down along the smaller child, the left one on a tie.
In a heap the element taken has the least key and the rest is in heap order. On an empty queue ROOT becomes null and the
answer is NULL. -/
def Obligations.PqDeqResults : Prop :=
  ∀ s : State,
    (s.pq.slots = [] → exec .pqDeq s = .next (respond .null 0 { s with root := none })) ∧
    (∀ m rest, s.pq.slots = m :: rest → s.pq.slots.length ≤ 256 →
      ∃ q, exec .pqDeq s = .next (respond .ok m.count { s with root := some m, pq := ⟨q, s.pq.ovf⟩ }) ∧
        Refilled rest q ∧ q.Perm rest ∧
        (heapOrdered s.pq.slots → (∀ x ∈ q, keyLt x m = false) ∧ heapOrdered q))

/-- R103, R106, R107: PQ_CLR makes a fresh queue; PQ_PEEKC and PQ_PEEKK read slot idx below QN and answer E_ARG at or above
it, changing nothing. -/
def Obligations.PqClearAndPeekResults : Prop :=
  ∀ (s : State) (idx : Byte),
    exec .pqClr s = .next (respond .ok 0 { s with pq := ⟨[], false⟩ }) ∧
    (∀ h : idx.toNat < s.pq.slots.length,
      exec (.pqPeekc idx) s = .next (respond .ok s.pq.slots[idx.toNat].count s) ∧
      ∃ v, exec (.pqPeekk idx) s = .next (respond .ok v s) ∧
        v.toNat = match s.pq.slots[idx.toNat] with | .leaf sym _ => sym.toNat | .node _ k _ _ => k.toNat + 256) ∧
    (s.pq.slots.length ≤ idx.toNat →
      exec (.pqPeekc idx) s = .next (respond .eArg 0 s) ∧ exec (.pqPeekk idx) s = .next (respond .eArg 0 s))

/-- R109: the heap invariant holds after every enqueue and every dequeue, and Q[0] is an element of least key. -/
def Obligations.EnqueueAndDequeueKeepTheHeap : Prop :=
  ∀ q : Queue, heapOrdered q.slots →
    (∀ t, heapOrdered (q.enqueue t).slots) ∧ heapOrdered q.dequeue.2.slots ∧
    ∀ m rest, q.slots = m :: rest → ∀ x ∈ q.slots, keyLt x m = false

/-- R100, R101 and R102 exactly, for any trees: the order compares (count, ksym) as unsigned numbers; an enqueue at capacity
drops its node and sets Q_OVF, any other appends and sifts it up; a dequeue takes the root, moves the last element there
and sifts it down. Each loop runs at most 8 times. -/
def Obligations.EnqueueAndDequeueFollowTheirLoops : Prop :=
  (∀ a b : Machine.Tree, keyLt a b = true ↔
    a.count.toNat < b.count.toNat ∨ (a.count.toNat = b.count.toNat ∧ a.ksym.toNat < b.ksym.toNat)) ∧
  (∀ (q : Queue) (t : Machine.Tree),
    (q.slots.length = 256 → q.enqueue t = ⟨q.slots, true⟩) ∧
    (q.slots.length < 256 → ∃ q' n, q.enqueue t = ⟨q', q.ovf⟩ ∧ n ≤ 8 ∧ SiftUp n (q.slots ++ [t]) q.slots.length q')) ∧
  (∀ q : Queue, q.slots.length ≤ 256 →
    (q.slots = [] → q.dequeue = (none, q)) ∧
    (∀ m rest, q.slots = m :: rest → ∃ q', q.dequeue = (some m, ⟨q', q.ovf⟩) ∧ Refilled rest q'))

/-- R108: with pairwise different keys successive dequeues return the elements in strictly increasing key order, whatever the
array layout; and the keys are pairwise different when the leaves carry pairwise different symbols. -/
def Obligations.DequeuesComeInKeyOrder : Prop :=
  (∀ q : Queue, heapOrdered q.slots → q.slots.Pairwise (fun a b => keyLt a b = true ∨ keyLt b a = true) →
    (drain q.slots.length q).Perm q.slots ∧ (drain q.slots.length q).Pairwise (fun a b => keyLt a b = true) ∧
    ∀ q' : Queue, heapOrdered q'.slots → q'.slots.Perm q.slots → drain q'.slots.length q' = drain q.slots.length q) ∧
  (∀ l : List Machine.Tree, (∀ t ∈ l, t.wf = true) → ((l.flatMap Machine.Tree.leaves).map Prod.fst).Nodup →
    l.Pairwise (fun a b => keyLt a b = true ∨ keyLt b a = true))

/-! ### Tree construction -/

/-- R119: HT_LEAVES makes a fresh queue with exactly one leaf for each nonzero counter, enqueued in ascending order of the
symbols, in heap order, and answers QN; ROOT and FREQ are not changed. -/
def Obligations.HtLeavesResults : Prop :=
  ∀ s : State, ∃ q,
    exec .htLeaves s = .next (respond .ok (BitVec.ofNat 64 q.length) { s with pq := ⟨q, false⟩ }) ∧
    q.Perm (((List.range 256).map (BitVec.ofNat 8)).filterMap
      (fun x : Symbol => if s.freq[x.toNat] = 0 then none else some (.leaf x s.freq[x.toNat]))) ∧
    q = (queueOfLeaves (((List.range 256).map (BitVec.ofNat 8)).filterMap
      (fun x : Symbol => if s.freq[x.toNat] = 0 then none else some (x, s.freq[x.toNat])))).slots ∧
    heapOrdered q

/-- R120: the merge of an empty queue is null; of one node, it first enqueues the sentinel leaf; of two, it is the node over
both, the one dequeued first on the left; of more, it goes on with that node enqueued. -/
def Obligations.MergeFollowsItsLoop : Prop :=
  ∀ q : Queue, q.slots.length ≤ 256 →
    (q.slots = [] → q.merge = (none, q)) ∧
    (∀ u, q.slots = [u] → q.merge = (q.enqueue (.leaf (sentinelOf u.ksym) 0)).merge) ∧
    (2 ≤ q.slots.length → ∃ l q1 r q2, q.dequeue = (some l, q1) ∧ q1.dequeue = (some r, q2) ∧
      (q.slots.length = 2 → q.merge =
        (some (.node (l.count + r.count) (if l.ksym.toNat ≤ r.ksym.toNat then l.ksym else r.ksym) l r), ⟨[], q.ovf⟩)) ∧
      (3 ≤ q.slots.length → q.merge =
        (q2.enqueue (.node (l.count + r.count) (if l.ksym.toNat ≤ r.ksym.toNat then l.ksym else r.ksym) l r)).merge))

/-- R121 with R120 and R130(a): HT_MERGE of a queue of two or more trees puts into ROOT a tree over exactly their leaves whose
every internal count is the sum of its children's, answers its count, the sum of all counts modulo 2^64, and leaves the
queue empty and Q_OVF as it was; of one tree, the sentinel leaf joins it; of none, ROOT is null and the answer NULL. -/
def Obligations.HtMergeResults : Prop :=
  ∀ s : State, s.pq.slots.length ≤ 256 → (∀ t ∈ s.pq.slots, t.wf = true) →
    (s.pq.slots = [] → exec .htMerge s = .next (respond .null 0 { s with root := none })) ∧
    (∀ u, s.pq.slots = [u] → ∃ t,
      exec .htMerge s = .next (respond .ok u.count { s with root := some t, pq := ⟨[], s.pq.ovf⟩ }) ∧
      t.wf = true ∧ t.count = u.count ∧ t.leaves.Perm ((sentinelOf u.ksym, 0) :: u.leaves)) ∧
    (2 ≤ s.pq.slots.length → ∃ t,
      exec .htMerge s = .next (respond .ok t.count { s with root := some t, pq := ⟨[], s.pq.ovf⟩ }) ∧
      t.wf = true ∧ t.count = (s.pq.slots.map Machine.Tree.count).sum ∧ t.leaves.Perm (s.pq.slots.flatMap Machine.Tree.leaves))

/-- R131: one queued leaf. The sentinel (count 0) is dequeued first and becomes the left child, with the code "1", and the
real leaf the right one, with the code "0"; unless the lone leaf is Leaf(0, 0), which ties on count and wins on the symbol. -/
def Obligations.DegenerateMergePutsTheSentinelLeft : Prop :=
  ∀ (s : State) (x : Symbol) (c : Count), s.pq.slots = [.leaf x c] →
    ((x ≠ 0 ∨ c ≠ 0) → exec .htMerge s = .next (respond .ok c
      { s with root := some (.node c 0 (.leaf (sentinelOf x) 0) (.leaf x c)), pq := ⟨[], s.pq.ovf⟩ })) ∧
    (x = 0 → c = 0 → exec .htMerge s = .next (respond .ok 0
      { s with root := some (.node 0 0 (.leaf 0 0) (.leaf 1 0)), pq := ⟨[], s.pq.ovf⟩ })) ∧
    (Machine.Tree.node c 0 (.leaf (sentinelOf x) 0) (.leaf x c)).path x = some [false] ∧
    (Machine.Tree.node c 0 (.leaf (sentinelOf x) 0) (.leaf x c)).path (sentinelOf x) = some [true]

/-- R122: HT_BUILD leaves exactly the state after FREQ_SCAN, HT_LEAVES, HT_MERGE and answers the number of input bytes, or
NULL when no tree results, which below 2^64 input bytes is when INP is empty; without the grant E_OPEN and nothing changes. -/
def Obligations.HtBuildIsScanLeavesMerge : Prop :=
  ∀ s : State,
    (s.envInpGrant = false → exec .htBuild s = .next (respond .eOpen 0 s)) ∧
    (s.envInpGrant = true → ∃ s1 s2 s3,
      exec .freqScan s = .next s1 ∧ exec .htLeaves s1 = .next s2 ∧ exec .htMerge s2 = .next s3 ∧
      exec .htBuild s = .next { s3 with responses :=
        (if s3.root.isNone then ⟨.null, 0⟩ else ⟨.ok, BitVec.ofNat 64 s.inp.length⟩) :: s.responses } ∧
      (s.inp.length < 2 ^ 64 → (s3.root = none ↔ s.inp = [])))

/-- R130(c): the merged tree depends on the leaves alone when their symbols are pairwise different, not on the order in which
they were enqueued. -/
def Obligations.MergeDoesNotDependOnEnqueueOrder : Prop :=
  ∀ l l' : List (Symbol × Count), (l.map Prod.fst).Nodup → l.Perm l' →
    (queueOfLeaves l).merge.1 = (queueOfLeaves l').merge.1

/-- R130(b): no symbol's code is a prefix of another symbol's code. -/
def Obligations.CodesArePrefixFree : Prop :=
  ∀ (t : Machine.Tree) (a b : Symbol) (p q : List Bool), t.path a = some p → t.path b = some q → a ≠ b → ¬ p <+: q

/-- R132: a code is shorter than the number of leaves; so after HT_MERGE of at most 256 leaves every code has at most 255
bits, and HT_CODE of a symbol of the tree answers its length. -/
def Obligations.MergedCodesFitTheRegister : Prop :=
  (∀ (t : Machine.Tree) (sym : Symbol) (p : List Bool), t.path sym = some p → p.length + 1 ≤ t.leaves.length) ∧
  (∀ (s s' : State) (t : Machine.Tree) (sym : Symbol) (p : List Bool), QueueInv s.pq → exec .htMerge s = .next s' →
    s'.root = some t → t.path sym = some p →
    p.length ≤ 255 ∧ ∃ c, exec (.htCode sym) s' = .next (respond .ok (BitVec.ofNat 64 p.length) { s' with code := c }))

/-! ### Codes -/

/-- R123: `path` finds the first leaf, left before right, that carries the symbol, and `walk` along it ends there; it is
NONE exactly when no leaf carries the symbol. -/
def Obligations.PathLeadsToTheFirstLeaf : Prop :=
  ∀ (t : Machine.Tree) (sym : Symbol),
    (t.path sym = none ↔ ∀ x ∈ t.leaves, x.1 ≠ sym) ∧
    (∀ p, t.path sym = some p → ∃ c, t.walk p = some (.leaf sym c) ∧ t.leaves.find? (fun x => x.1 == sym) = some (sym, c))

/-- R124: HT_CODE answers NULL without a tree, E_NOTFOUND when no leaf carries the symbol, both changing nothing; else CODE
holds the path, CODE_BITS[|p|-1-j] = p[j] with the upper bits 0, and the answer is its length. -/
def Obligations.HtCodeLoadsThePath : Prop :=
  ∀ (s : State) (sym : Symbol),
    (s.root = none → exec (.htCode sym) s = .next (respond .null 0 s)) ∧
    (∀ t, s.root = some t → t.path sym = none → exec (.htCode sym) s = .next (respond .eNotFound 0 s)) ∧
    (∀ t p, s.root = some t → t.path sym = some p → p.length ≤ 256 → ∃ bits : BitVec 256,
      exec (.htCode sym) s = .next (respond .ok (BitVec.ofNat 64 p.length) { s with code := ⟨p.length, bits⟩ }) ∧
      (∀ (j : Nat) (h : j < p.length), bits.getLsbD (p.length - 1 - j) = p[j]) ∧ bits.toNat < 2 ^ p.length)

/-- R125: HT_FIND walks ROOT along the bits of CODE, first bit CODE_BITS[CODE_LEN-1]; it answers the symbol of the leaf where
the walk ends, E_NOTFOUND when it ends on an Internal node or runs past a leaf, NULL without a tree; nothing changes. -/
def Obligations.HtFindWalksTheCode : Prop :=
  ∀ (s : State) (bs : List Bool), bs = (List.range s.code.len).map (fun j => s.code.bits.getLsbD (s.code.len - 1 - j)) →
    (s.root = none → exec .htFind s = .next (respond .null 0 s)) ∧
    (∀ t sym c, s.root = some t → t.walk bs = some (.leaf sym c) →
      exec .htFind s = .next (respond .ok (BitVec.ofNat 64 sym.toNat) s)) ∧
    (∀ t c k l r, s.root = some t → t.walk bs = some (.node c k l r) →
      exec .htFind s = .next (respond .eNotFound 0 s)) ∧
    (∀ t, s.root = some t → t.walk bs = none → exec .htFind s = .next (respond .eNotFound 0 s))

/-- R124 and R125 together: for a ROOT that holds the invariant, HT_FIND after a successful HT_CODE sym finds sym. -/
def Obligations.HtFindUndoesHtCode : Prop :=
  ∀ (s : State) (t : Machine.Tree) (sym : Symbol), RootInv s.root → s.root = some t → (∃ x ∈ t.leaves, x.1 = sym) →
    ∃ s', exec (.htCode sym) s = .next s' ∧ exec .htFind s' = .next (respond .ok (BitVec.ofNat 64 sym.toNat) s')

/-- R126, R127: HT_SIZE answers 0 for null and 2k - 1 for a tree with k leaves, at most 511 under the tree invariant; HT_FREE makes ROOT null and answers 0. -/
def Obligations.HtSizeAndFreeResults : Prop :=
  ∀ s : State,
    (s.root = none → exec .htSize s = .next (respond .ok 0 s)) ∧
    (∀ t, s.root = some t → exec .htSize s = .next (respond .ok (BitVec.ofNat 64 (2 * t.leaves.length - 1)) s)) ∧
    (∀ t, RootInv s.root → s.root = some t → 2 * t.leaves.length - 1 ≤ 511) ∧
    exec .htFree s = .next (respond .ok 0 { s with root := none })

/-- R128, R129: CODE_CLR makes CODE the empty string; CODE_PUSH b appends one bit, twice the number plus b, and answers the
new length; E_ARG for b > 1 and for a full register, changing nothing. -/
def Obligations.CodeClearAndPushResults : Prop :=
  ∀ (s : State) (b : Byte), CodeInv s.code →
    exec .codeClr s = .next (respond .ok 0 { s with code := ⟨0, 0⟩ }) ∧
    (2 ≤ b.toNat → exec (.codePush b) s = .next (respond .eArg 0 s)) ∧
    (s.code.len = 256 → exec (.codePush b) s = .next (respond .eArg 0 s)) ∧
    (b.toNat ≤ 1 → s.code.len < 256 → ∃ bits : BitVec 256,
      exec (.codePush b) s =
        .next (respond .ok (BitVec.ofNat 64 (s.code.len + 1)) { s with code := ⟨s.code.len + 1, bits⟩ }) ∧
      bits.toNat = 2 * s.code.bits.toNat + b.toNat)

/-! ### The bit stream -/

/-- R76: BS_OPEN. E_ARG for a mode above 1, E_MODE when a stream is open, E_OPEN without the grant, each changing nothing;
else the BS unit is idle in the mode asked for, a write open empties FILE, a read open puts FILE.rpos at 0. -/
def Obligations.BsOpenResults : Prop :=
  ∀ (s : State) (m : Byte),
    (2 ≤ m.toNat → exec (.bsOpen m) s = .next (respond .eArg 0 s)) ∧
    (m.toNat ≤ 1 → s.bs.mode ≠ .closed → exec (.bsOpen m) s = .next (respond .eMode 0 s)) ∧
    (m.toNat ≤ 1 → s.bs.mode = .closed → s.envGrant = false → exec (.bsOpen m) s = .next (respond .eOpen 0 s)) ∧
    (s.bs.mode = .closed → s.envGrant = true →
      exec (.bsOpen 1) s = .next (respond .ok 0
        { s with
          bs := { s.bs with mode := .write, acc := 0, nbits := 0, cur := 0, avail := 0, total := 0, bitPhase := false }
          file := { s.file with data := [] } }) ∧
      exec (.bsOpen 0) s = .next (respond .ok 0
        { s with
          bs := { s.bs with mode := .read, acc := 0, nbits := 0, cur := 0, avail := 0, total := 0, bitPhase := false }
          file := { s.file with rpos := 0 } }))

/-- R77 with R45: BS_CLOSE. A write close brings the buffered bytes to FILE, then the pad byte (BS_ACC times 2^(8-k)) when
1 to 7 bits are pending and none otherwise, and answers BS_TOTAL; a read close leaves FILE alone; E_MODE when no stream is
open. The last clause, that the answer of a write close is the length of FILE modulo 2^64, rests on R28 as log 17 takes it
(DEDUCED: modulo 2^64, since BS_TOTAL wraps by R22): it is the model's reading, not the spec's words. -/
def Obligations.BsCloseResults : Prop :=
  ∀ s : State, StreamInv s →
    (s.bs.mode = .closed → exec .bsClose s = .next (respond .eMode 0 s)) ∧
    (s.bs.mode = .read → exec .bsClose s = .next (respond .ok s.bs.total
      { s with bs := { s.bs with mode := .closed, acc := 0, nbits := 0, cur := 0, avail := 0, bitPhase := false } })) ∧
    (s.bs.mode = .write → ∃ pad : List Byte,
      exec .bsClose s = .next (respond .ok (s.bs.total + BitVec.ofNat 64 pad.length)
        { s with
          bs := { s.bs with mode := .closed, acc := 0, nbits := 0, cur := 0, avail := 0, bitPhase := false
                            total := s.bs.total + BitVec.ofNat 64 pad.length }
          file := { s.file with data := s.file.data ++ s.bs.buf.take s.bs.cur ++ pad } }) ∧
      (s.bs.nbits = 0 → pad = []) ∧
      (1 ≤ s.bs.nbits → ∃ v : Byte, pad = [v] ∧ v.toNat = s.bs.acc.toNat * 2 ^ (8 - s.bs.nbits)) ∧
      s.bs.total + BitVec.ofNat 64 pad.length =
        BitVec.ofNat 64 (s.file.data ++ s.bs.buf.take s.bs.cur ++ pad).length)

/-- R78 with R50: BS_WBIT. E_ARG for b > 1, then E_MODE outside write mode, changing nothing; else the bit is shifted in and
answered; the eighth bit puts the byte into BS_BUF, and a full BS_BUF goes to FILE in the same command. -/
def Obligations.BsWbitResults : Prop :=
  ∀ (s : State) (b : Byte), StreamInv s →
    (2 ≤ b.toNat → exec (.bsWbit b) s = .next (respond .eArg 0 s)) ∧
    (b.toNat ≤ 1 → s.bs.mode ≠ .write → exec (.bsWbit b) s = .next (respond .eMode 0 s)) ∧
    (b.toNat ≤ 1 → s.bs.mode = .write → ∃ a : Byte, a.toNat = 2 * s.bs.acc.toNat + b.toNat ∧
      (s.bs.nbits < 7 → exec (.bsWbit b) s = .next (respond .ok (BitVec.ofNat 64 b.toNat)
        { s with bs := { s.bs with bitPhase := true, acc := a, nbits := s.bs.nbits + 1 } })) ∧
      (s.bs.nbits = 7 → s.bs.cur + 1 < s.bufBytes → exec (.bsWbit b) s = .next (respond .ok (BitVec.ofNat 64 b.toNat)
        { s with bs := { s.bs with bitPhase := true, acc := 0, nbits := 0, buf := s.bs.buf.set s.bs.cur a
                                   cur := s.bs.cur + 1, total := s.bs.total + 1 } })) ∧
      (s.bs.nbits = 7 → s.bs.cur + 1 = s.bufBytes → exec (.bsWbit b) s = .next (respond .ok (BitVec.ofNat 64 b.toNat)
        { s with
          bs := { s.bs with bitPhase := true, acc := 0, nbits := 0, buf := s.bs.buf.set s.bs.cur a
                            cur := 0, total := s.bs.total + 1 }
          file := { s.file with data := s.file.data ++ s.bs.buf.take s.bs.cur ++ [a] } })))

/-- R79 with R51: BS_RBIT. E_MODE outside read mode. With unread bits in BS_ACC the top one is answered and shifted out. On a
byte boundary the next byte is fetched first, from BS_BUF or after a refill of min(BUF_BYTES, remaining) bytes; when no byte
is left the answer is EOD and only BS_BITPHASE, BS_CUR and BS_AVAIL change. -/
def Obligations.BsRbitResults : Prop :=
  ∀ s : State, StreamInv s →
    (s.bs.mode ≠ .read → exec .bsRbit s = .next (respond .eMode 0 s)) ∧
    (s.bs.mode = .read → 0 < s.bs.nbits → exec .bsRbit s = .next (respond .ok (BitVec.ofNat 64 (s.bs.acc.toNat / 128))
      { s with bs := { s.bs with bitPhase := true, acc := BitVec.ofNat 8 (2 * s.bs.acc.toNat), nbits := s.bs.nbits - 1 } })) ∧
    (s.bs.mode = .read → s.bs.nbits = 0 → unreadBytes s = [] → exec .bsRbit s = .next (respond .eod 0
      { s with bs := { s.bs with bitPhase := true, cur := 0, avail := 0 } })) ∧
    (∀ v rest, s.bs.mode = .read → s.bs.nbits = 0 → unreadBytes s = v :: rest → ∃ buf cur avail rpos,
      exec .bsRbit s = .next (respond .ok (BitVec.ofNat 64 (v.toNat / 128))
        { s with
          bs := { s.bs with bitPhase := true, acc := BitVec.ofNat 8 (2 * v.toNat), nbits := 7, buf := buf, cur := cur
                            avail := avail, total := s.bs.total + 1 }
          file := { s.file with rpos := rpos } }) ∧
      (s.bs.cur < s.bs.avail → buf = s.bs.buf ∧ cur = s.bs.cur + 1 ∧ avail = s.bs.avail ∧ rpos = s.file.rpos) ∧
      (s.bs.cur = s.bs.avail → cur = 1 ∧ avail = min s.bufBytes (s.file.data.length - s.file.rpos) ∧
        rpos = s.file.rpos + avail) ∧
      (buf.take avail).drop cur ++ s.file.data.drop rpos = rest)

/-- R80, R81 with R46: BS_WU64 appends eight bytes, most significant first, past BS_BUF; BS_RU64 answers the integer of the next
eight bytes, or EOD when fewer remain, which are then consumed and counted. E_MODE in another mode, else E_PHASE after a bit
command, changing nothing. -/
def Obligations.BsU64Results : Prop :=
  ∀ (s : State) (v : Wide),
    (s.bs.mode ≠ .write → exec (.bsWu64 v) s = .next (respond .eMode 0 s)) ∧
    (s.bs.mode = .write → s.bs.bitPhase = true → exec (.bsWu64 v) s = .next (respond .ePhase 0 s)) ∧
    (s.bs.mode ≠ .read → exec .bsRu64 s = .next (respond .eMode 0 s)) ∧
    (s.bs.mode = .read → s.bs.bitPhase = true → exec .bsRu64 s = .next (respond .ePhase 0 s)) ∧
    (s.bs.mode = .write → s.bs.bitPhase = false → exec (.bsWu64 v) s = .next (respond .ok 0
      { s with
        file := { s.file with
          data := s.file.data ++ (List.range 8).map (fun k => BitVec.ofNat 8 (v.toNat / 2 ^ (8 * (7 - k)))) }
        bs := { s.bs with total := s.bs.total + 8 } })) ∧
    (∀ (b0 b1 b2 b3 b4 b5 b6 b7 : Byte) (rest : List Byte), s.bs.mode = .read → s.bs.bitPhase = false →
      s.file.data.drop s.file.rpos = [b0, b1, b2, b3, b4, b5, b6, b7] ++ rest →
      exec .bsRu64 s = .next (respond .ok (BitVec.ofNat 64 (b0.toNat * 2 ^ 56 + b1.toNat * 2 ^ 48 + b2.toNat * 2 ^ 40 +
          b3.toNat * 2 ^ 32 + b4.toNat * 2 ^ 24 + b5.toNat * 2 ^ 16 + b6.toNat * 2 ^ 8 + b7.toNat))
        { s with file := { s.file with rpos := s.file.rpos + 8 }, bs := { s.bs with total := s.bs.total + 8 } })) ∧
    (s.bs.mode = .read → s.bs.bitPhase = false → (s.file.data.drop s.file.rpos).length < 8 →
      exec .bsRu64 s = .next (respond .eod 0
        { s with
          file := { s.file with rpos := s.file.rpos + (s.file.data.drop s.file.rpos).length }
          bs := { s.bs with total := s.bs.total + BitVec.ofNat 64 (s.file.data.drop s.file.rpos).length } }))

/-- R80 and R81 together: what BS_WU64 writes BS_RU64 reads back, at the place where it was written. -/
def Obligations.U64ReadBackIsWhatWasWritten : Prop :=
  ∀ (s s' t : State) (v : Wide), s.bs.mode = .write → s.bs.bitPhase = false → exec (.bsWu64 v) s = .next s' →
    t.bs.mode = .read → t.bs.bitPhase = false → t.file.data = s'.file.data → t.file.rpos = s.file.data.length →
    exec .bsRu64 t = .next (respond .ok v
      { t with file := { t.file with rpos := t.file.rpos + 8 }, bs := { t.bs with total := t.bs.total + 8 } })

/-- R82: BS_NBYTES answers BS_TOTAL in every mode and changes nothing. -/
def Obligations.BsNbytesAnswersTheTotal : Prop := ∀ s : State, exec .bsNbytes s = .next (respond .ok s.bs.total s)

/-- R75: operand, mode, phase and grant are checked in that order; the first check that fails decides the status and the
command changes no state (the same order for TC_WTREE, TC_RTREE, RDSR, CODE_PUSH, FREQ_SCAN and HT_BUILD, R164). -/
def Obligations.ChecksComeInOrder : Prop :=
  ∀ (s : State) (i : Instr),
    (i.wellFormed = false → exec i s = .next (respond .eArg 0 s)) ∧
    (∀ l, i.wellFormed = true → modesFor i = some l → s.bs.mode ∉ l → exec i s = .next (respond .eMode 0 s)) ∧
    (∀ l, modesFor i = some l → s.bs.mode ∈ l → isHeader i = true → s.bs.bitPhase = true →
      exec i s = .next (respond .ePhase 0 s)) ∧
    (∀ m, i = .bsOpen m → i.wellFormed = true → s.bs.mode = .closed → s.envGrant = false →
      exec i s = .next (respond .eOpen 0 s)) ∧
    (i = .freqScan ∨ i = .htBuild → s.envInpGrant = false → exec i s = .next (respond .eOpen 0 s))

/-! ### The tree codec -/

/-- R147: the two equations of `dec`; so its digits read back give the number, each is a decimal digit, the first is not 0
unless the number is 0, and a count has 1 to 20 of them, a symbol 1 to 3. -/
def Obligations.DecSpellsTheNumber : Prop :=
  ∀ n : Nat,
    (n < 10 → dec n = [BitVec.ofNat 8 (0x30 + n)]) ∧
    (10 ≤ n → dec n = dec (n / 10) ++ [BitVec.ofNat 8 (0x30 + n % 10)]) ∧
    (dec n).foldl (fun a c => a * 10 + (c.toNat - 0x30)) 0 = n ∧ (∀ c ∈ dec n, 0x30 ≤ c.toNat ∧ c.toNat ≤ 0x39) ∧
    (n ≠ 0 → ∀ c, (dec n).head? = some c → c ≠ 0x30) ∧ dec 0 = [0x30] ∧
    1 ≤ (dec n).length ∧ (n < 2 ^ 64 → (dec n).length ≤ 20) ∧ (n < 256 → (dec n).length ≤ 3)

/-- R142: the empty tree serializes to `##`, any other to its leaves in left-to-right order, each as count, space, symbol and
comma, between two `#`; a tree with k leaves to between 2 + 4k and 2 + 25k bytes. -/
def Obligations.SerializedTreeAndItsLength : Prop :=
  ser none = [0x23, 0x23] ∧
  ∀ t : Machine.Tree, ser (some t) = blockText t.leaves ∧
    2 + 4 * t.leaves.length ≤ (ser (some t)).length ∧ (ser (some t)).length ≤ 2 + 25 * t.leaves.length

/-- R143: TC_WTREE appends the tree block of ROOT to FILE, `##` for null, past BS_BUF, and answers its length; ROOT is not
changed. E_MODE outside write mode, else E_PHASE after a bit command, changing nothing. -/
def Obligations.TcWtreeAppendsTheBlock : Prop :=
  ∀ (s : State) (text : List Byte),
    text = (match s.root with | none => [0x23, 0x23] | some t => blockText t.leaves) →
    (s.bs.mode ≠ .write → exec .tcWtree s = .next (respond .eMode 0 s)) ∧
    (s.bs.mode = .write → s.bs.bitPhase = true → exec .tcWtree s = .next (respond .ePhase 0 s)) ∧
    (s.bs.mode = .write → s.bs.bitPhase = false → exec .tcWtree s = .next (respond .ok (BitVec.ofNat 64 text.length)
      { s with
        file := { s.file with data := s.file.data ++ text }
        bs := { s.bs with total := s.bs.total + BitVec.ofNat 64 text.length } }))

/-- R145 with R140 and R144, on a well-formed block, its numbers spelled with leading zeros or without: exactly its bytes are
consumed and counted, its records are enqueued in order into a fresh queue (which drops those beyond 256 and then sets
Q_OVF), and ROOT receives the merge; the answer is the number of bytes, or NULL for `##`. The blocks that R142 writes are
among these. -/
def Obligations.TcRtreeReadsAWellFormedBlock : Prop :=
  (∀ l : List (Symbol × Count), ∃ l' : List RecordText,
    (∀ r ∈ l', r.good = true) ∧ l'.map RecordText.leaf = l ∧ openBlock l' ++ [0x23] = blockText l) ∧
  ∀ (s : State) (l : List RecordText) (rest : List Byte), s.bs.mode = .read → s.bs.bitPhase = false →
    (∀ r ∈ l, r.good = true) → s.file.data.drop s.file.rpos = openBlock l ++ [0x23] ++ rest →
    (l = [] → exec .tcRtree s = .next (respond .null 0
      { s with
        root := none, pq := ⟨[], false⟩
        file := { s.file with rpos := s.file.rpos + 2 }
        bs := { s.bs with total := s.bs.total + 2 } })) ∧
    (l ≠ [] → ∃ t, (queueOfLeaves (l.map RecordText.leaf)).merge.1 = some t ∧
      exec .tcRtree s = .next (respond .ok (BitVec.ofNat 64 ((openBlock l).length + 1))
        { s with
          root := some t, pq := ⟨[], decide (256 < l.length)⟩
          file := { s.file with rpos := s.file.rpos + ((openBlock l).length + 1) }
          bs := { s.bs with total := s.bs.total + BitVec.ofNat 64 ((openBlock l).length + 1) } }))

/-- R145 with R144, on malformed input. E_FORMAT without a leading `#`, after the byte found there or after none; for a record
that fails to parse, after exactly the bytes through the offending one; when the input ends inside a block, after all of
it. Q_OVF is 1 exactly when more than 256 records had been read. In every case ROOT is null, the queue empty, and the
bytes taken, those the parser took, are consumed and counted; nothing else changes. -/
def Obligations.TcRtreeRejectsMalformedBlocks : Prop :=
  ∀ s : State, s.bs.mode = .read → s.bs.bitPhase = false →
    (s.file.data.drop s.file.rpos = [] → exec .tcRtree s = .next (badBlock 0 false s)) ∧
    (∀ c rest, s.file.data.drop s.file.rpos = c :: rest → c ≠ 0x23 → exec .tcRtree s = .next (badBlock 1 false s)) ∧
    (∀ l p c rest, (∀ r ∈ l, RecordText.good r = true) → Offends p c →
      s.file.data.drop s.file.rpos = openBlock l ++ p ++ [c] ++ rest →
      exec .tcRtree s = .next (badBlock ((openBlock l ++ p).length + 1) (decide (256 < l.length)) s)) ∧
    (∀ l p, (∀ r ∈ l, RecordText.good r = true) → Unfinished p → s.file.data.drop s.file.rpos = openBlock l ++ p →
      exec .tcRtree s = .next (badBlock (openBlock l ++ p).length (decide (256 < l.length)) s)) ∧
    (∀ l more, (∀ r ∈ l, RecordText.good r = true) → more ≠ [] →
      s.file.data.drop s.file.rpos ++ more = openBlock l ++ [0x23] →
      exec .tcRtree s = .next (badBlock (s.file.data.drop s.file.rpos).length
        (parse .opening 0 Queue.fresh (s.file.data.drop s.file.rpos)).pq.ovf s)) ∧
    (∀ t r, exec .tcRtree s = .next t → t.responses = r :: s.responses → r.status = .eFormat →
      t = badBlock (parse .opening 0 Queue.fresh (s.file.data.drop s.file.rpos)).taken
        (parse .opening 0 Queue.fresh (s.file.data.drop s.file.rpos)).pq.ovf s)

/-- R140 and R144: every input is of one of the kinds that TcRtreeReadsAWellFormedBlock and TcRtreeRejectsMalformedBlocks speak
of; the parser answers GOOD exactly on those that begin with a well-formed block, and BAD exactly on the others. -/
def Obligations.EveryInputParsesOrOffends : Prop :=
  ∀ d : List Byte,
    ((∃ l rest, (∀ r ∈ l, RecordText.good r = true) ∧ d = openBlock l ++ [0x23] ++ rest) ↔
      (parse .opening 0 Queue.fresh d).good = true) ∧
    ((parse .opening 0 Queue.fresh d).good = false ↔
      d = [] ∨ (∃ c rest, d = c :: rest ∧ c ≠ 0x23) ∨
      (∃ l p c rest, (∀ r ∈ l, RecordText.good r = true) ∧ Offends p c ∧ d = openBlock l ++ p ++ [c] ++ rest) ∨
      (∃ l p, (∀ r ∈ l, RecordText.good r = true) ∧ Unfinished p ∧ d = openBlock l ++ p))

/-- R146: if ROOT was produced by a merge of leaves with pairwise different symbols (the degenerate tree with its sentinel
included) and FILE continues with its serialization, TC_RTREE sets ROOT to that same tree. -/
def Obligations.SerializeThenDeserializeIsIdentity : Prop :=
  ∀ (s : State) (l : List (Symbol × Count)) (t : Machine.Tree) (rest : List Byte),
    (l.map Prod.fst).Nodup → (queueOfLeaves l).merge.1 = some t →
    s.bs.mode = .read → s.bs.bitPhase = false → s.file.data.drop s.file.rpos = ser (some t) ++ rest →
    exec .tcRtree s = .next (respond .ok (BitVec.ofNat 64 (ser (some t)).length)
      { s with
        root := some t, pq := ⟨[], false⟩
        file := { s.file with rpos := s.file.rpos + (ser (some t)).length }
        bs := { s.bs with total := s.bs.total + BitVec.ofNat 64 (ser (some t)).length } })

/-! ### Rules about every command -/

/-- R163 (a blank means never), with R62: every command in every state completes with exactly one response, whose status is OK
or one of the command's row, and RESULT is 0 unless the status is OK. -/
def Obligations.EveryCommandAnswersAStatusOfItsRow : Prop :=
  ∀ (i : Instr) (s : State), ∃ t r, exec i s = .next t ∧ t.responses = r :: s.responses ∧
    (r.status = .ok ∨ r.status ∈ failuresOf i) ∧ (r.status ≠ .ok → r.result = 0)

/-- R166: the state each failure leaves, status by status (E_FORMAT: see TcRtreeRejectsMalformedBlocks). -/
def Obligations.FailuresLeaveTheStatedState : Prop :=
  ∀ (i : Instr) (s t : State) (r : Response), exec i s = .next t → t.responses = r :: s.responses →
    (r.status ∈ [Status.eIllegal, .eArg, .eMode, .ePhase, .eOpen, .eNotFound] → t = { s with responses := t.responses }) ∧
    (∀ sym, i = .htCode sym ∨ i = .htFind → r.status = .null → t = { s with responses := t.responses }) ∧
    (i = .pqDeq ∨ i = .htMerge → s.pq.slots.length ≤ 256 → r.status = .null →
      s.pq.slots = [] ∧ t = { s with responses := t.responses, root := none }) ∧
    (i = .htBuild → r.status = .null → t.pq = ⟨[], false⟩ ∧ (∀ x : Symbol, t.freq[x.toNat] = 0) ∧
      t = { s with responses := t.responses, root := none, pq := t.pq, freq := t.freq }) ∧
    (i = .bsRu64 → r.status = .eod → ∃ k, k < 8 ∧ t = { s with
      responses := t.responses, file := ⟨s.file.data, s.file.rpos + k⟩
      bs := { s.bs with total := s.bs.total + BitVec.ofNat 64 k } })

/-- Every command writes only what the spec lets it write: FREQ (R11), the queue (R14), ROOT (D38), CODE (R17), the BS unit and
FILE.data (R18 to R23, R49); nothing writes BUF_BYTES, INP or the host's side but the response. -/
def Obligations.OnlyTheNamedCommandsWrite : Prop :=
  ∀ (i : Instr) (s t : State), exec i s = .next t →
    (writesFreq i = false → t.freq = s.freq) ∧ (writesQueue i = false → t.pq = s.pq) ∧
    (writesRoot i = false → t.root = s.root) ∧ (writesCode i = false → t.code = s.code) ∧
    (writesStream i = false → t.bs = s.bs ∧ t.file = s.file) ∧ (writesFileData i = false → t.file.data = s.file.data) ∧
    t.bufBytes = s.bufBytes ∧ t.inp = s.inp ∧ t.envGrant = s.envGrant ∧ t.envInpGrant = s.envInpGrant ∧
    t.pending = s.pending ∧ t.draws = s.draws

/-- R15, R18, R23: Q_OVF is cleared only by PQ_CLR, HT_LEAVES, HT_BUILD, TC_RTREE and SRESET; BS_MODE changes only by a
granted BS_OPEN from CLOSED, by BS_CLOSE and SRESET to CLOSED; BS_BITPHASE becomes 1 exactly by an accepted BS_WBIT or
BS_RBIT; FILE.data only grows in write mode. -/
def Obligations.ModePhaseAndOverflowRules : Prop :=
  ∀ (i : Instr) (s t : State), exec i s = .next t →
    (s.pq.ovf = true → clearsOvf i = false → t.pq.ovf = true) ∧
    (t.bs.mode ≠ s.bs.mode →
      (∃ m, i = .bsOpen m ∧ s.bs.mode = .closed ∧ s.envGrant = true) ∨ ((i = .bsClose ∨ i = .sreset) ∧ t.bs.mode = .closed)) ∧
    (s.bs.bitPhase = false → t.bs.bitPhase = true →
      (∃ b, i = .bsWbit b ∧ s.bs.mode = .write) ∨ (i = .bsRbit ∧ s.bs.mode = .read)) ∧
    (∀ b, i = .bsWbit b → b.toNat ≤ 1 → s.bs.mode = .write → t.bs.bitPhase = true) ∧
    (i = .bsRbit → s.bs.mode = .read → t.bs.bitPhase = true) ∧
    (s.bs.mode = .write → s.file.data <+: t.file.data)

/-! ### Laws of the bit stream -/

/-- R83: bits written to a fresh or running header phase and then closed: FILE gains exactly pack(w), ceil(n/8)
bytes, whatever BUF_BYTES is, and each command answers its bit. -/
def Obligations.WrittenBitsArePacked : Prop :=
  ∀ (s : State) (w : List Bool), StreamInv s → s.bs.mode = .write → s.bs.bitPhase = false →
    s.pending = w.map (fun b => present (.bsWbit (bitByte b))) ++ [present .bsClose] →
    ∃ t, core.run (w.length + 1) s = .next t ∧ t.bs.mode = .closed ∧ t.file.data = s.file.data ++ pack w ∧
      (pack w).length = (w.length + 7) / 8 ∧
      t.responses = ⟨.ok, s.bs.total + BitVec.ofNat 64 (pack w).length⟩ :: (w.map okBit).reverse ++ s.responses

/-- R84 and R85: reading a stream returns every bit of every unread byte, first bit most significant, with no byte value
special, and after them EOD as often as it is asked. -/
def Obligations.EveryBitIsReadThenEod : Prop :=
  ∀ (s : State) (d : List Byte) (k : Nat), StreamInv s → s.bs.mode = .read → s.bs.nbits = 0 → unreadBytes s = d →
    s.pending = List.replicate (8 * d.length + k) (present .bsRbit) →
    ∃ t, core.run (8 * d.length + k) s = .next t ∧
      t.responses = List.replicate k ⟨.eod, 0⟩ ++ ((unpack d).map okBit).reverse ++ s.responses

/-- R84: bits written to a stream opened for write, closed, and read back through a stream opened for read on the same file:
the n bits in order, then 8 - (n mod 8) zero bits if n mod 8 != 0, then EOD. -/
def Obligations.WriteThenReadRoundTrip : Prop :=
  ∀ (s : State) (w : List Bool) (k : Nat), StreamInv s → s.bs.mode = .closed →
    s.pending = present (.bsOpen 1) :: w.map (fun b => present (.bsWbit (bitByte b))) ++
      [present .bsClose, present (.bsOpen 0)] ++ List.replicate (8 * ((w.length + 7) / 8) + k) (present .bsRbit) →
    ∃ t mid, core.run (w.length + 3 + (8 * ((w.length + 7) / 8) + k)) s = .next t ∧ t.file.data = pack w ∧
      t.responses = List.replicate k ⟨.eod, 0⟩ ++
        ((w ++ List.replicate (8 * ((w.length + 7) / 8) - w.length) false).map okBit).reverse ++ mid ∧
      mid.length = w.length + 3 + s.responses.length

/-- R52: buffering is transparent. Two states with the same logical stream, whatever their BUF_BYTES, answer every command
alike and stay so; the commands left out are the read-outs of the buffer itself (RDSR 3, RDSR 11), and SRESET of a write
stream, which loses what is buffered (R157; log 16). -/
def Obligations.BufferingIsTransparent : Prop :=
  ∀ (i : Instr) (s t : State), StreamInv s → StreamInv t → SameButBuffering s t →
    i ≠ .rdsr 3 → i ≠ .rdsr 11 → (i = .sreset → s.bs.mode ≠ .write) →
    ∃ s' t', exec i s = .next s' ∧ exec i t = .next t' ∧ SameButBuffering s' t'

/-! ### Invariants -/

/-- R28 (with R4, R10, R21): the BS invariants hold after every step that starts in them (R28's equations for BS_TOTAL are
taken modulo 2^64, log 17). -/
def Obligations.StepKeepsTheStreamInvariant : Prop :=
  ∀ s s' : State, StreamInv s → step s = .next s' → StreamInv s'

/-- R14, R26, R27, R17: the queue stays a heap of at most 256 leaves, ROOT a tree of at most 256 leaves with every internal
count the sum of its children's, CODE a string of at most 256 bits with the upper bits 0. -/
def Obligations.StepKeepsTheTreeInvariant : Prop :=
  ∀ s s' : State, TreeInv s → step s = .next s' → TreeInv s'

/-- R62 and R29: a step adds at most one response, which has RESULT = 0 unless STATUS = OK, and never changes BUF_BYTES. -/
def Obligations.StepKeepsTheResponsesAndTheParameter : Prop :=
  ∀ s s' : State, step s = .next s' →
    (ResponsesInv s → ResponsesInv s') ∧ s'.bufBytes = s.bufBytes ∧
    (s'.responses = s.responses ∨ ∃ r, s'.responses = r :: s.responses)

/-- The invariants hold in the state after reset. -/
def Obligations.ResetMeetsTheInvariants : Prop :=
  StreamInv State.reset ∧ TreeInv State.reset ∧ ResponsesInv State.reset
end

