-- ==== Sys2Proof/Laws/Code.lean ====
section
/-! SUPPORT. The CODE register (10_state.md R17) as the number its bit string spells. -/

namespace Sys2Proof.Machine

@[simp] theorem push_len (c : Code) (b : Bool) : (c.push b).len = c.len + 1 := rfl

/-- One more bit (R129): twice the number plus the bit; "no bit is lost" while CODE_BITS < 2^255. -/
theorem push_bits_toNat (c : Code) (b : Bool) (h : c.bits.toNat < 2 ^ 255) :
    (c.push b).bits.toNat = 2 * c.bits.toNat + b.toNat := by
  have hd : (c.bits <<< 1 ||| (BitVec.ofBool b).setWidth 256) = c.bits <<< 1 + (BitVec.ofBool b).setWidth 256 := by
    refine (BitVec.add_eq_or_of_and_eq_zero _ _ ?_).symm
    ext i hi
    cases i with
    | zero => simp
    | succ n => cases b <;> simp
  show ((c.bits <<< 1) ||| (BitVec.ofBool b).setWidth 256).toNat = _
  rw [hd, BitVec.toNat_add]
  cases b <;> simp [Nat.shiftLeft_eq] <;> omega

theorem ofBits_append (p : List Bool) (b : Bool) : Code.ofBits (p ++ [b]) = (Code.ofBits p).push b := by
  simp [Code.ofBits]

@[simp] theorem ofBits_len (p : List Bool) : (Code.ofBits p).len = p.length := by
  induction p using List.reverseRecOn with
  | nil => rfl
  | append_singleton p b ih => simp [ofBits_append, ih]

@[simp] theorem toBits_length (c : Code) : c.toBits.length = c.len := by simp [Code.toBits]

theorem push_getLsbD (c : Code) (b : Bool) (i : Nat) (hi : i < 256) :
    (c.push b).bits.getLsbD i = if i = 0 then b else c.bits.getLsbD (i - 1) := by
  cases i with
  | zero => simp [Code.push]
  | succ n => simp [Code.push, hi, BitVec.getLsbD_eq_getElem (show n < 256 by omega)]

/-- Reading back what was pushed. -/
theorem toBits_push (c : Code) (b : Bool) (h : c.len < 256) : (c.push b).toBits = c.toBits ++ [b] := by
  apply List.ext_getElem (by simp)
  intro i h1 h2
  simp only [toBits_length, push_len] at h1
  by_cases hi : i < c.len
  · rw [List.getElem_append_left (by simpa using hi)]
    simp only [Code.toBits, push_len, List.getElem_map, List.getElem_range]
    rw [push_getLsbD _ _ _ (by omega), if_neg (by omega)]
    congr 1; omega
  · have : i = c.len := by omega
    subst this
    have := push_getLsbD c b 0 (by omega)
    simpa [Code.toBits] using this

/-- CODE holds the bit string it was given, up to its capacity (R17). -/
theorem toBits_ofBits (p : List Bool) (h : p.length ≤ 256) : (Code.ofBits p).toBits = p := by
  induction p using List.reverseRecOn with
  | nil => rfl
  | append_singleton p b ih =>
    simp only [List.length_append, List.length_singleton] at h
    rw [ofBits_append, toBits_push _ _ (by simp; omega), ih (by omega)]

end Sys2Proof.Machine
end

