-- ==== Sys2Proof/Laws/Queue.lean ====
section
/-! SUPPORT. The priority queue (41_priority_queue.md R100 to R102, R109): the order as numbers; what enqueue and dequeue
do to the elements (they permute them); that both keep the heap order; and that the root of a heap is a least element. -/

namespace Sys2Proof.Machine

/-- The key (count, ksym) of R100 as one number. -/
def keyNat (t : Tree) : Nat := t.count.toNat * 256 + t.ksym.toNat

theorem keyLt_iff (a b : Tree) : keyLt a b = true ↔ keyNat a < keyNat b := by
  have ha := a.ksym.isLt
  have hb := b.ksym.isLt
  simp only [keyLt, keyNat, Bool.or_eq_true, Bool.and_eq_true, decide_eq_true_eq, BitVec.lt_def, BitVec.toNat_eq]
  omega

theorem keyLt_eq_false_iff (a b : Tree) : keyLt a b = false ↔ keyNat b ≤ keyNat a := by
  rw [← Bool.not_eq_true, keyLt_iff]; omega

/-- Equal keys are equal pairs (count, ksym). -/
theorem keyNat_inj {a b : Tree} (h : keyNat a = keyNat b) : a.count = b.count ∧ a.ksym = b.ksym := by
  have ha := a.ksym.isLt
  have hb := b.ksym.isLt
  simp only [keyNat] at h
  constructor <;> apply BitVec.eq_of_toNat_eq <;> omega

/-- The key in slot `i` (0 outside the array). -/
def keyAt (q : List Tree) (i : Nat) : Nat := (q[i]?.map keyNat).getD 0

theorem slotLt_iff (q : List Tree) (i j : Nat) :
    slotLt q i j = true ↔ i < q.length ∧ j < q.length ∧ keyAt q i < keyAt q j := by
  unfold slotLt keyAt
  by_cases hi : i < q.length <;> by_cases hj : j < q.length
  · simp [hi, hj, keyLt_iff]
  · simp [hi, hj]
  · simp [hi]
  · simp [hi]

theorem swapSlots_of_lt {q : List Tree} {i j : Nat} (hi : i < q.length) (hj : j < q.length) :
    swapSlots q i j = (q.set i q[j]).set j q[i] := by
  simp [swapSlots, hi, hj]

@[simp] theorem swapSlots_length (q : List Tree) (i j : Nat) : (swapSlots q i j).length = q.length := by
  unfold swapSlots; split <;> simp

theorem swapSlots_perm (q : List Tree) (i j : Nat) : (swapSlots q i j).Perm q := by
  by_cases hi : i < q.length
  · by_cases hj : j < q.length
    · rw [swapSlots_of_lt hi hj]; exact List.set_set_perm hi hj
    · simp [swapSlots, hi, hj]
  · simp [swapSlots, hi]

theorem keyAt_swapSlots {q : List Tree} {i j : Nat} (hi : i < q.length) (hj : j < q.length) (n : Nat) :
    keyAt (swapSlots q i j) n = if n = j then keyAt q i else if n = i then keyAt q j else keyAt q n := by
  rw [swapSlots_of_lt hi hj]
  unfold keyAt
  by_cases h1 : n = j
  · subst h1; simp [hi, hj]
  · by_cases h2 : n = i
    · subst h2; rw [List.getElem?_set_ne (Ne.symm h1)]; simp [hi, hj, h1]
    · rw [List.getElem?_set_ne (Ne.symm h1), List.getElem?_set_ne (Ne.symm h2)]; simp [h1, h2]

/-- The heap order in terms of each element and its parent. -/
theorem heapOrdered_iff (q : List Tree) :
    heapOrdered q ↔ ∀ c, 0 < c → c < q.length → keyAt q ((c - 1) / 2) ≤ keyAt q c := by
  constructor
  · intro h c h0 hc
    have hp : (c - 1) / 2 < q.length := by omega
    have := h ((c - 1) / 2) c (by omega) q[(c - 1) / 2] q[c] (by simp [hp]) (by simp [hc])
    rw [keyLt_eq_false_iff] at this
    simpa [keyAt, hp, hc] using this
  · intro h i c hic a b ha hb
    obtain ⟨hi, rfl⟩ := List.getElem?_eq_some_iff.mp ha
    obtain ⟨hc, rfl⟩ := List.getElem?_eq_some_iff.mp hb
    have hpar : (c - 1) / 2 = i := by omega
    have := h c (by omega) hc
    rw [hpar] at this
    rw [keyLt_eq_false_iff]
    simpa [keyAt, hi, hc] using this

@[simp] theorem siftUp_length (fuel i : Nat) (q : List Tree) : (siftUp fuel i q).length = q.length := by
  induction fuel generalizing i q with
  | zero => rfl
  | succ n ih => simp only [siftUp]; split <;> [rfl; (split <;> simp [ih])]

theorem siftUp_perm (fuel i : Nat) (q : List Tree) : (siftUp fuel i q).Perm q := by
  induction fuel generalizing i q with
  | zero => exact .refl _
  | succ n ih =>
    simp only [siftUp]
    split
    · exact .refl _
    · split
      · exact (ih _ _).trans (swapSlots_perm _ _ _)
      · exact .refl _

@[simp] theorem siftDown_length (fuel i : Nat) (q : List Tree) : (siftDown fuel i q).length = q.length := by
  induction fuel generalizing i q with
  | zero => rfl
  | succ n ih => simp only [siftDown]; split <;> simp [ih]

theorem siftDown_perm (fuel i : Nat) (q : List Tree) : (siftDown fuel i q).Perm q := by
  induction fuel generalizing i q with
  | zero => exact .refl _
  | succ n ih =>
    simp only [siftDown]
    split
    · exact (ih _ _).trans (swapSlots_perm _ _ _)
    · exact .refl _

/-- Sift-up restores the heap order: every element but the one at `i` respects its parent, and the children of `i` respect
its parent. -/
theorem siftUp_heap (fuel i : Nat) (q : List Tree) (hf : i ≤ fuel) (hi : i < q.length)
    (hA : ∀ c, 0 < c → c < q.length → c ≠ i → keyAt q ((c - 1) / 2) ≤ keyAt q c)
    (hB : ∀ c, 0 < c → c < q.length → (c - 1) / 2 = i → 0 < i → keyAt q ((i - 1) / 2) ≤ keyAt q c) :
    heapOrdered (siftUp fuel i q) := by
  induction fuel generalizing i q with
  | zero =>
    rw [siftUp, heapOrdered_iff]
    exact fun c h0 hc => hA c h0 hc (by omega)
  | succ n ih =>
    simp only [siftUp]
    split
    · rw [heapOrdered_iff]
      exact fun c h0 hc => hA c h0 hc (by omega)
    · rename_i hi0
      have hp : (i - 1) / 2 < q.length := by omega
      split
      · rename_i hlt
        rw [slotLt_iff] at hlt
        have hk := keyAt_swapSlots hi hp
        apply ih _ _ (by omega) (by simpa using hp)
        · intro c h0 hc hne
          simp only [swapSlots_length] at hc
          rw [hk, hk]
          by_cases hci : c = i
          · subst hci; simp [hne]; omega
          · have h1 := hA c h0 hc hci
            by_cases h2 : (c - 1) / 2 = i
            · have h3 := hB c h0 hc h2 (by omega)
              have : i ≠ (i - 1) / 2 := by omega
              simp [h2, hne, hci, this, h3]
            · by_cases h3 : (c - 1) / 2 = (i - 1) / 2
              · rw [h3] at h1; simp [h3, hne, hci]; omega
              · simp [h2, h3, hne, hci, h1]
        · intro c h0 hc hpar hp0
          simp only [swapSlots_length] at hc
          rw [hk, hk]
          have hg := hA ((i - 1) / 2) hp0 hp (by omega)
          have n1 : ((i - 1) / 2 - 1) / 2 ≠ (i - 1) / 2 := by omega
          have n2 : ((i - 1) / 2 - 1) / 2 ≠ i := by omega
          have n3 : c ≠ (i - 1) / 2 := by omega
          by_cases hci : c = i
          · subst hci; simp [n1, n2, n3, hg]
          · have h1 := hA c h0 hc hci
            rw [hpar] at h1
            simp [n1, n2, n3, hci]; omega
      · rename_i hlt
        rw [heapOrdered_iff]
        intro c h0 hc
        by_cases hci : c = i
        · subst hci
          rw [slotLt_iff] at hlt
          by_contra hcon
          exact hlt ⟨hc, hp, by omega⟩
        · exact hA c h0 hc hci

theorem smallerChild_cases (q : List Tree) (i : Nat) : smallerChild q i = 2 * i + 1 ∨ smallerChild q i = 2 * i + 2 := by
  unfold smallerChild; split <;> simp

/-- The child chosen by the sift-down is no larger than either child (R102). -/
theorem smallerChild_le (q : List Tree) (i c : Nat) (hc : c < q.length) (hpar : (c - 1) / 2 = i) (h0 : 0 < c) :
    smallerChild q i < q.length ∧ keyAt q (smallerChild q i) ≤ keyAt q c := by
  have hcc : c = 2 * i + 1 ∨ c = 2 * i + 2 := by omega
  unfold smallerChild
  by_cases h : slotLt q (2 * i + 2) (2 * i + 1) = true
  · have := (slotLt_iff _ _ _).mp h
    rw [if_pos h]
    rcases hcc with rfl | rfl
    · exact ⟨this.1, by omega⟩
    · exact ⟨this.1, le_refl _⟩
  · rw [if_neg h]
    rw [slotLt_iff] at h
    rcases hcc with rfl | rfl
    · exact ⟨hc, le_refl _⟩
    · refine ⟨by omega, ?_⟩
      by_contra hcon
      exact h ⟨hc, by omega, by omega⟩

/-- Sift-down restores the heap order: every element but the children of `i` respects its parent, and the children of `i`
respect the parent of `i`. -/
theorem siftDown_heap (fuel i : Nat) (q : List Tree) (hf : q.length ≤ fuel + i)
    (hA : ∀ c, 0 < c → c < q.length → (c - 1) / 2 ≠ i → keyAt q ((c - 1) / 2) ≤ keyAt q c)
    (hB : ∀ c, 0 < c → c < q.length → (c - 1) / 2 = i → 0 < i → keyAt q ((i - 1) / 2) ≤ keyAt q c) :
    heapOrdered (siftDown fuel i q) := by
  induction fuel generalizing i q with
  | zero =>
    rw [siftDown, heapOrdered_iff]
    exact fun c h0 hc => hA c h0 hc (by omega)
  | succ n ih =>
    simp only [siftDown]
    have hsc := smallerChild_cases q i
    split
    · rename_i hlt
      rw [slotLt_iff] at hlt
      obtain ⟨hs, hi, hkey⟩ := hlt
      have hle := smallerChild_le q i
      generalize hm : smallerChild q i = m at *
      have hk := keyAt_swapSlots hi hs
      apply ih _ _ (by simp; omega)
      · intro c h0 hc hne
        simp only [swapSlots_length] at hc
        rw [hk, hk]
        have him : i ≠ m := by omega
        by_cases hcm : c = m
        · have hpar : (c - 1) / 2 = i := by omega
          rw [hpar]
          simp [hcm, him]; omega
        · by_cases hpar : (c - 1) / 2 = i
          · have := (hle c hc hpar h0).2
            have hci : c ≠ i := by omega
            simp [hpar, hci, hcm, him, this]
          · have h1 := hA c h0 hc hpar
            by_cases hci : c = i
            · subst hci
              have h2 := hB m (by omega) hs (by omega) h0
              have n1 : (c - 1) / 2 ≠ c := by omega
              simp [n1, hne, him, h2]
            · simp [hpar, hne, hci, hcm, h1]
      · intro c h0 hc hpar hm0
        simp only [swapSlots_length] at hc
        rw [hk, hk]
        have h1 : (m - 1) / 2 = i := by omega
        have h2 := hA c h0 hc (by omega)
        rw [hpar] at h2
        have n1 : c ≠ i := by omega
        have n2 : c ≠ m := by omega
        have him : i ≠ m := by omega
        simp [h1, n1, n2, him, h2]
    · rename_i hlt
      rw [heapOrdered_iff]
      intro c h0 hc
      by_cases hpar : (c - 1) / 2 = i
      · have h1 := smallerChild_le q i c hc hpar h0
        rw [slotLt_iff] at hlt
        rw [hpar]
        by_contra hcon
        exact hlt ⟨h1.1, by omega, by omega⟩
      · exact hA c h0 hc hpar

/-! ### What enqueue does -/

theorem full_iff (q : Queue) : q.full = true ↔ 256 ≤ q.slots.length := by simp [Queue.full]

theorem full_eq_false_iff (q : Queue) : q.full = false ↔ q.slots.length < 256 := by
  rw [← Bool.not_eq_true, full_iff]; omega

theorem enqueue_of_full {q : Queue} (t : Tree) (h : q.full = true) : q.enqueue t = q.dropped := by
  simp [Queue.enqueue, h]

theorem enqueue_perm {q : Queue} (t : Tree) (h : q.full = false) : (q.enqueue t).slots.Perm (t :: q.slots) := by
  simp only [Queue.enqueue, h]
  exact (siftUp_perm _ _ _).trans (List.perm_append_singleton t q.slots)

theorem enqueue_length {q : Queue} (t : Tree) (h : q.full = false) : (q.enqueue t).slots.length = q.slots.length + 1 := by
  simpa using (enqueue_perm t h).length_eq

theorem enqueue_ovf {q : Queue} (t : Tree) : (q.enqueue t).ovf = (q.ovf || q.full) := by
  unfold Queue.enqueue
  split <;> simp_all [Queue.dropped]

theorem enqueue_heap {q : Queue} (t : Tree) (hq : heapOrdered q.slots) : heapOrdered (q.enqueue t).slots := by
  unfold Queue.enqueue
  split
  · exact hq
  · have hk : ∀ n, n < q.slots.length → keyAt (q.slots ++ [t]) n = keyAt q.slots n := by
      intro n hn; simp [keyAt, List.getElem?_append_left hn]
    apply siftUp_heap _ _ _ (le_refl _) (by simp)
    · intro c h0 hc hne
      have hc' : c < q.slots.length := by simp at hc; omega
      rw [hk _ hc', hk _ (by omega)]
      exact (heapOrdered_iff _).mp hq c h0 hc'
    · intro c h0 hc hpar hi
      simp at hc
      omega

/-! ### What dequeue does -/

theorem refill_perm (rest : List Tree) : (refill rest).Perm rest := by
  unfold refill
  split
  · rename_i h; simp [List.getLast?_eq_none_iff.mp h]
  · rename_i last h
    obtain ⟨ys, rfl⟩ := List.getLast?_eq_some_iff.mp h
    refine (siftDown_perm _ _ _).trans ?_
    simpa using (List.perm_append_singleton last ys).symm

@[simp] theorem refill_length (rest : List Tree) : (refill rest).length = rest.length := (refill_perm rest).length_eq

theorem refill_heap {m : Tree} {rest : List Tree} (hq : heapOrdered (m :: rest)) : heapOrdered (refill rest) := by
  unfold refill
  split
  · intro i c _ a b ha; simp at ha
  · rename_i last h
    obtain ⟨ys, rfl⟩ := List.getLast?_eq_some_iff.mp h
    have hk : ∀ n, 0 < n → n < ys.length + 1 → keyAt (last :: ys) n = keyAt (m :: (ys ++ [last])) n := by
      intro n h0 hn
      obtain ⟨k, rfl⟩ : ∃ k, n = k + 1 := ⟨n - 1, by omega⟩
      have : k < ys.length := by omega
      simp [keyAt, List.getElem?_append_left this]
    simp only [List.dropLast_concat]
    apply siftDown_heap _ _ _ (by simp)
    · intro c h0 hc hne
      have hc' : c < ys.length + 1 := by simpa using hc
      rw [hk c h0 hc', hk _ (by omega) (by omega)]
      exact (heapOrdered_iff _).mp hq c h0 (by simp; omega)
    · intro c _ _ _ hi; omega

theorem dequeue_of_nil {q : Queue} (h : q.slots = []) : q.dequeue = (none, q) := by simp [Queue.dequeue, h]

theorem dequeue_of_cons {q : Queue} {m : Tree} {rest : List Tree} (h : q.slots = m :: rest) :
    q.dequeue = (some m, { q with slots := refill rest }) := by simp [Queue.dequeue, h]

/-- The root of a heap has a least key (R109). -/
theorem heap_root_least {m : Tree} {rest : List Tree} (hq : heapOrdered (m :: rest)) :
    ∀ x ∈ rest, keyLt x m = false := by
  have key : ∀ n, n < (m :: rest).length → keyAt (m :: rest) 0 ≤ keyAt (m :: rest) n := by
    intro n
    induction n using Nat.strong_induction_on with
    | _ n ih =>
      intro hn
      by_cases h0 : n = 0
      · subst h0; exact le_refl _
      · exact (ih _ (by omega) (by omega)).trans ((heapOrdered_iff _).mp hq n (by omega) hn)
  intro x hx
  obtain ⟨k, hk, rfl⟩ := List.getElem_of_mem hx
  have := key (k + 1) (by simpa using hk)
  rw [keyLt_eq_false_iff]
  simpa [keyAt, hk] using this

/-! ### The merge loop (R120) -/

/-- One pass: two elements are taken and their `mk_internal` is put back. -/
theorem mergePass_spec {q : Queue} (h : 1 < q.slots.length) (hb : q.slots.length ≤ 256) :
    ∃ l r rest, q.slots.Perm (l :: r :: rest) ∧ (mergePass q).slots.Perm (mkInternal l r :: rest) ∧
      (mergePass q).ovf = q.ovf := by
  obtain ⟨sl, ov⟩ := q
  match sl, h with
  | l :: a :: as, _ =>
    have hlen : (refill (a :: as)).length = as.length + 1 := by simp
    match hr : refill (a :: as), hlen with
    | r :: rest, hlen =>
      have hp : (r :: rest).Perm (a :: as) := hr ▸ refill_perm (a :: as)
      have hnf : (Queue.mk (refill rest) ov).full = false := by
        rw [full_eq_false_iff, refill_length]
        simp at hlen hb; omega
      have hm : mergePass ⟨l :: a :: as, ov⟩ = (Queue.mk (refill rest) ov).enqueue (mkInternal l r) := by
        simp [mergePass, Queue.dequeue, hr]
      refine ⟨l, r, rest, hp.symm.cons l, ?_, ?_⟩
      · rw [hm]
        exact (enqueue_perm _ hnf).trans ((refill_perm rest).cons _)
      · rw [hm, enqueue_ovf, hnf, Bool.or_false]

theorem mergePass_length {q : Queue} (h : 1 < q.slots.length) (hb : q.slots.length ≤ 256) :
    (mergePass q).slots.length + 1 = q.slots.length := by
  obtain ⟨l, r, rest, h1, h2, -⟩ := mergePass_spec h hb
  have := h1.length_eq
  have := h2.length_eq
  simp at *; omega

/-- One pass keeps the heap order. -/
theorem mergePass_heap {q : Queue} (hq : heapOrdered q.slots) : heapOrdered (mergePass q).slots := by
  obtain ⟨sl, ov⟩ := q
  match sl with
  | [] => simpa [mergePass, Queue.dequeue] using hq
  | m :: rest =>
    have h1 := refill_heap hq
    match hr : refill rest with
    | [] => simpa [mergePass, Queue.dequeue, hr] using hq
    | r :: rest' =>
      rw [hr] at h1
      have : mergePass ⟨m :: rest, ov⟩ = (Queue.mk (refill rest') ov).enqueue (mkInternal m r) := by
        simp [mergePass, Queue.dequeue, hr]
      rw [this]
      exact enqueue_heap _ (refill_heap h1)

/-- The loop ends with one element when it starts with at least one: an induction principle for what every pass keeps. -/
theorem mergeLoop_induction {P : Queue → Prop} (fuel : Nat) (q : Queue) (hf : q.slots.length ≤ fuel + 1)
    (hb : q.slots.length ≤ 256) (h0 : P q)
    (hstep : ∀ q', 1 < q'.slots.length → q'.slots.length ≤ 256 → P q' → P (mergePass q')) :
    P (mergeLoop fuel q) ∧ (mergeLoop fuel q).slots.length = min q.slots.length 1 := by
  induction fuel generalizing q with
  | zero => simp only [mergeLoop]; exact ⟨h0, by omega⟩
  | succ n ih =>
    simp only [mergeLoop]
    split
    · rename_i h
      have hl := mergePass_length h hb
      have := ih (mergePass q) (by omega) (by omega) (hstep q h hb h0)
      exact ⟨this.1, by omega⟩
    · exact ⟨h0, by omega⟩

end Sys2Proof.Machine
end

