-- ==== Sys2Proof/Laws/Codec.lean ====
section
/-! SUPPORT. The text of a serialized tree (43_tree_codec.md R140 to R147): the recursion of `dec`, the digits, and what the
parser can do. -/

namespace Sys2Proof.Machine

theorem decDigits_fuel (n : Nat) : ∀ a b, n < a → n < b → decDigits a n = decDigits b n := by
  induction n using Nat.strong_induction_on with
  | _ n ih =>
    intro a b ha hb
    match a, b, ha, hb with
    | a + 1, b + 1, ha, hb =>
      simp only [decDigits]
      split
      · rfl
      · rw [ih (n / 10) (by omega) a b (by omega) (by omega)]

/-- The equation of `dec` in R147. -/
theorem dec_eq (n : Nat) : dec n = if n < 10 then [digitByte n] else dec (n / 10) ++ [digitByte (n % 10)] := by
  unfold dec
  rw [decDigits]
  split
  · rfl
  · rw [decDigits_fuel (n / 10) n (n / 10 + 1) (by omega) (by omega)]

theorem digitByte_toNat {n : Nat} (h : n < 10) : (digitByte n).toNat = 0x30 + n := by simp [digitByte]; omega

theorem isDigit_digitByte {n : Nat} (h : n < 10) : isDigit (digitByte n) = true := by
  simp [isDigit, digitByte_toNat h]; omega

theorem digitVal_digitByte {n : Nat} (h : n < 10) : digitVal (digitByte n) = n := by simp [digitVal, digitByte_toNat h]

theorem dec_ne_nil (n : Nat) : dec n ≠ [] := by
  rw [dec_eq]; split <;> simp

/-- The parser takes bytes one by one, never more than there are (R144, R195). -/
theorem parse_taken (p : ParsePoint) (k : Nat) (q : Queue) (l : List Byte) :
    k ≤ (parse p k q l).taken ∧ (parse p k q l).taken ≤ k + l.length := by
  induction l generalizing p k q with
  | nil => simp [parse]
  | cons c l ih =>
    simp only [parse, List.length_cons]
    split
    · rename_i p' _; have := ih p' (k + 1) q; omega
    · rename_i s n _; have := ih .record (k + 1) (q.enqueue (.leaf (BitVec.ofNat 8 s) (BitVec.ofNat 64 n))); omega
    · simp
    · simp

/-- Whatever enqueueing a leaf keeps, the parse keeps. -/
theorem parse_induction {P : Queue → Prop} (hstep : ∀ q s c, P q → P (q.enqueue (.leaf s c))) (p : ParsePoint) (k : Nat)
    (q : Queue) (l : List Byte) (h : P q) : P (parse p k q l).pq := by
  induction l generalizing p k q with
  | nil => exact h
  | cons c l ih =>
    simp only [parse]
    split
    · exact ih _ _ _ h
    · exact ih _ _ _ (hstep _ _ _ h)
    · exact h
    · exact h

/-! ### Numbers and records: what the parser does over a whole run of digits and over a whole record (R144) -/

/-- The number reached after reading the digits `d` from `n` on. -/
def digitsVal (n : Nat) (d : List Byte) : Nat := d.foldl (fun a c => a * 10 + digitVal c) n

@[simp] theorem digitsVal_nil (n : Nat) : digitsVal n [] = n := rfl
@[simp] theorem digitsVal_cons (n : Nat) (c : Byte) (d : List Byte) :
    digitsVal n (c :: d) = digitsVal (n * 10 + digitVal c) d := by simp only [digitsVal, List.foldl_cons]

theorem digitsVal_append (n : Nat) (d e : List Byte) : digitsVal n (d ++ e) = digitsVal (digitsVal n d) e := by
  simp [digitsVal]

/-- The number only grows, so its value at the end bounds it at each digit. -/
theorem le_digitsVal (n : Nat) (d : List Byte) : n ≤ digitsVal n d := by
  induction d generalizing n with
  | nil => exact Nat.le_refl _
  | cons c d ih => exact Nat.le_trans (by omega) (ih (n * 10 + digitVal c))

/-- Digits of a count that stays below 2^64 are taken one by one. -/
theorem parse_count_digits (n k : Nat) (q : Queue) (d rest : List Byte) (hd : ∀ c ∈ d, isDigit c = true)
    (hv : digitsVal n d < 2 ^ 64) :
    parse (.count n) k q (d ++ rest) = parse (.count (digitsVal n d)) (k + d.length) q rest := by
  induction d generalizing n k with
  | nil => rfl
  | cons c d ih =>
    have h1 := le_digitsVal (n * 10 + digitVal c) d
    simp only [digitsVal_cons] at hv
    have h2 : n * 10 + digitVal c < 2 ^ 64 := Nat.lt_of_le_of_lt h1 hv
    rw [List.cons_append, parse]
    simp only [parseByte, hd c (by simp), if_true, h2]
    rw [ih _ _ (fun c hc => hd c (by simp [hc])) hv, List.length_cons, digitsVal_cons]
    congr 1; omega

/-- Digits of a symbol that stays at or below 255 are taken one by one. -/
theorem parse_symbol_digits (n s k : Nat) (q : Queue) (d rest : List Byte) (hd : ∀ c ∈ d, isDigit c = true)
    (hv : digitsVal s d ≤ 255) :
    parse (.symRest n s) k q (d ++ rest) = parse (.symRest n (digitsVal s d)) (k + d.length) q rest := by
  induction d generalizing s k with
  | nil => rfl
  | cons c d ih =>
    have h1 := le_digitsVal (s * 10 + digitVal c) d
    simp only [digitsVal_cons] at hv
    have h2 : s * 10 + digitVal c ≤ 255 := Nat.le_trans h1 hv
    rw [List.cons_append, parse]
    simp only [parseByte, hd c (by simp), if_true, h2]
    rw [ih _ _ (fun c hc => hd c (by simp [hc])) hv, List.length_cons, digitsVal_cons]
    congr 1; omega

/-- A count read from the place where a record may begin. -/
theorem parse_count (k : Nat) (q : Queue) (d rest : List Byte) (hne : d ≠ []) (hd : ∀ c ∈ d, isDigit c = true)
    (hv : digitsVal 0 d < 2 ^ 64) :
    parse .record k q (d ++ rest) = parse (.count (digitsVal 0 d)) (k + d.length) q rest := by
  obtain ⟨c, d, rfl⟩ := List.exists_cons_of_ne_nil hne
  have hc := hd c (by simp)
  have hh : c ≠ hash := by rintro rfl; simp [isDigit] at hc
  rw [List.cons_append, parse]
  simp only [parseByte, hh, if_false, hc, if_true]
  rw [parse_count_digits _ _ _ _ _ (fun c hc => hd c (by simp [hc])) (by simpa using hv)]
  simp only [List.length_cons, digitsVal_cons, Nat.zero_mul, Nat.zero_add]
  congr 1; omega

/-- A symbol read from the place after the space. -/
theorem parse_symbol (n k : Nat) (q : Queue) (d rest : List Byte) (hne : d ≠ []) (hd : ∀ c ∈ d, isDigit c = true)
    (hv : digitsVal 0 d ≤ 255) :
    parse (.symFirst n) k q (d ++ rest) = parse (.symRest n (digitsVal 0 d)) (k + d.length) q rest := by
  obtain ⟨c, d, rfl⟩ := List.exists_cons_of_ne_nil hne
  rw [List.cons_append, parse]
  simp only [parseByte, hd c (by simp), if_true]
  rw [parse_symbol_digits _ _ _ _ _ _ (fun c hc => hd c (by simp [hc])) (by simpa using hv)]
  simp only [List.length_cons, digitsVal_cons, Nat.zero_mul, Nat.zero_add]
  congr 1; omega

/-- A count and its space, read from the place where a record may begin. -/
theorem parse_count_space (k : Nat) (q : Queue) (d rest : List Byte) (hne : d ≠ []) (hd : ∀ c ∈ d, isDigit c = true)
    (hv : digitsVal 0 d < 2 ^ 64) :
    parse .record k q (d ++ [space] ++ rest) = parse (.symFirst (digitsVal 0 d)) (k + (d.length + 1)) q rest := by
  rw [List.append_assoc, parse_count k q d _ hne hd hv, List.singleton_append, parse]
  simp [parseByte, isDigit, Nat.add_assoc]

/-- A whole record: its leaf is enqueued, and the parser stands where the next record may begin. -/
theorem parse_record (k : Nat) (q : Queue) (d e rest : List Byte) (hd : d ≠ []) (hd' : ∀ c ∈ d, isDigit c = true)
    (hdv : digitsVal 0 d < 2 ^ 64) (he : e ≠ []) (he' : ∀ c ∈ e, isDigit c = true) (hev : digitsVal 0 e ≤ 255) :
    parse .record k q (d ++ [space] ++ e ++ [comma] ++ rest) =
      parse .record (k + (d ++ [space] ++ e ++ [comma]).length)
        (q.enqueue (.leaf (BitVec.ofNat 8 (digitsVal 0 e)) (BitVec.ofNat 64 (digitsVal 0 d)))) rest := by
  rw [List.append_assoc (d ++ [space] ++ e), List.append_assoc (d ++ [space]), parse_count_space k q d _ hd hd' hdv,
    parse_symbol _ _ _ e _ he he' hev, List.singleton_append, parse]
  simp [parseByte, isDigit]
  congr 1; omega

end Sys2Proof.Machine
end

