-- ==== Sys2Proof/Laws/Decode.lean ====
section
/-! SUPPORT. The fields of a packed command word (30_encoding.md R60, R64). -/

namespace Sys2Proof

theorem opcField_toNat (cw : CmdWord) : (opcField cw).toNat = cw.toNat % 256 := by
  simp [opcField]

theorem immField_toNat (cw : CmdWord) : (immField cw).toNat = cw.toNat / 256 % 256 := by
  simp [immField, Nat.shiftRight_eq_div_pow]

theorem rsvField_toNat (cw : CmdWord) : (rsvField cw).toNat = cw.toNat / 65536 := by
  have := cw.isLt
  simp [rsvField, Nat.shiftRight_eq_div_pow]; omega

theorem packWord_toNat (opc imm : Byte) : (packWord opc imm).toNat = opc.toNat + 256 * imm.toNat := by
  have := opc.isLt
  have := imm.isLt
  simp [packWord]; omega

@[simp] theorem opcField_packWord (opc imm : Byte) : opcField (packWord opc imm) = opc := by
  apply BitVec.eq_of_toNat_eq
  have := opc.isLt
  rw [opcField_toNat, packWord_toNat]; omega

@[simp] theorem immField_packWord (opc imm : Byte) : immField (packWord opc imm) = imm := by
  apply BitVec.eq_of_toNat_eq
  have := opc.isLt
  have := imm.isLt
  rw [immField_toNat, packWord_toNat]; omega

@[simp] theorem rsvField_packWord (opc imm : Byte) : rsvField (packWord opc imm) = 0 := by
  apply BitVec.eq_of_toNat_eq
  have := opc.isLt
  have := imm.isLt
  rw [rsvField_toNat, packWord_toNat]; simp; omega

/-- A word with RSV = 0 is made of its OPC and IMM8 (R60). -/
theorem packWord_fields {cw : CmdWord} (h : rsvField cw = 0) : packWord (opcField cw) (immField cw) = cw := by
  apply BitVec.eq_of_toNat_eq
  have h' := congrArg BitVec.toNat h
  rw [rsvField_toNat] at h'
  rw [packWord_toNat, opcField_toNat, immField_toNat]
  simp at h'; omega

end Sys2Proof
end

