-- ==== Sys2Proof/Laws/Frequency.lean ====
section
/-! SUPPORT. The frequency table (10_state.md R11): reading after writing one counter, the cleared table, and the queue of
its leaves (42_huffman_tree.md R119). -/

namespace Sys2Proof.Machine

@[simp] theorem freqAt_freqSet_self (f : Vector Count 256) (x : Symbol) (v : Count) : freqAt (freqSet f x v) x = v := by
  simp [freqAt, freqSet]

theorem freqAt_freqSet_ne (f : Vector Count 256) {x y : Symbol} (v : Count) (h : x ≠ y) :
    freqAt (freqSet f y v) x = freqAt f x := by
  have hne : y.toNat ≠ x.toNat := fun hc => h (BitVec.eq_of_toNat_eq hc.symm)
  simp [freqAt, freqSet, Vector.getElem_set_ne, hne]

theorem freqAt_freqBump (f : Vector Count 256) (x y : Symbol) :
    freqAt (freqBump f y) x = if x = y then freqAt f y + 1 else freqAt f x := by
  by_cases h : x = y
  · subst h; simp [freqBump]
  · simp [freqBump, freqAt_freqSet_ne _ _ h, h]

@[simp] theorem freqAt_freqZero (x : Symbol) : freqAt freqZero x = 0 := by simp [freqAt, freqZero]

theorem mem_allSymbols (x : Symbol) : x ∈ allSymbols := by
  refine List.mem_map.mpr ⟨x.toNat, List.mem_range.mpr x.isLt, ?_⟩
  apply BitVec.eq_of_toNat_eq
  simp

theorem allSymbols_length : allSymbols.length = 256 := by simp [allSymbols]

theorem enqueueLeaf_heap (f : Vector Count 256) {q : Queue} (s : Symbol) (h : heapOrdered q.slots) :
    heapOrdered (enqueueLeaf f q s).slots := by
  unfold enqueueLeaf; split <;> [exact h; exact enqueue_heap _ h]

theorem leavesQueue_heap (f : Vector Count 256) : heapOrdered (leavesQueue f).slots := by
  unfold leavesQueue
  suffices h : ∀ (l : List Symbol) (q : Queue), heapOrdered q.slots → heapOrdered (l.foldl (enqueueLeaf f) q).slots from
    h _ _ (by intro i c _ a b ha; simp [Queue.fresh] at ha)
  intro l
  induction l with
  | nil => exact fun q h => h
  | cons x l ih => exact fun q h => ih _ (enqueueLeaf_heap f x h)

/-- A cleared table has no leaves (R119: "Symbols with zero count are omitted entirely"). -/
theorem leavesQueue_freqZero : leavesQueue freqZero = Queue.fresh := by
  unfold leavesQueue
  generalize allSymbols = l
  induction l with
  | nil => rfl
  | cons x l ih => simpa [enqueueLeaf] using ih

end Sys2Proof.Machine
end

