-- ==== Sys2Proof/Laws/PerInstr.lean ====
section
/-! SUPPORT. One fact for each command (30_encoding.md R60, R64): the three fields of its encoded word are its opcode, its
immediate and zero. -/

namespace Sys2Proof.Laws.EncodedFields

/-- The fields of the encoded word of a command: OPC, IMM8, RSV (R60). -/
def Statement (i : Instr) : Prop :=
  opcField (encode i).1 = i.opcode ∧ immField (encode i).1 = i.imm8 ∧ rsvField (encode i).1 = 0

/-- The fields a packed word is made of are read back from it. -/
theorem packed (i : Instr) : Statement i :=
  ⟨opcField_packWord _ _, immField_packWord _ _, rsvField_packWord _ _⟩

theorem nop : Statement .nop := packed _
theorem freqClr : Statement .freqClr := packed _
theorem freqAdd (sym : Symbol) : Statement (.freqAdd sym) := packed _
theorem freqScan : Statement .freqScan := packed _
theorem freqRd (sym : Symbol) : Statement (.freqRd sym) := packed _
theorem htLeaves : Statement .htLeaves := packed _
theorem htMerge : Statement .htMerge := packed _
theorem htBuild : Statement .htBuild := packed _
theorem htCode (sym : Symbol) : Statement (.htCode sym) := packed _
theorem htFind : Statement .htFind := packed _
theorem htSize : Statement .htSize := packed _
theorem htFree : Statement .htFree := packed _
theorem pqClr : Statement .pqClr := packed _
theorem pqEnq (sym : Symbol) (count : Count) : Statement (.pqEnq sym count) := packed _
theorem pqDeq : Statement .pqDeq := packed _
theorem pqPeekc (idx : Byte) : Statement (.pqPeekc idx) := packed _
theorem pqPeekk (idx : Byte) : Statement (.pqPeekk idx) := packed _
theorem codeClr : Statement .codeClr := packed _
theorem codePush (b : Byte) : Statement (.codePush b) := packed _
theorem bsOpen (m : Byte) : Statement (.bsOpen m) := packed _
theorem bsClose : Statement .bsClose := packed _
theorem bsWbit (b : Byte) : Statement (.bsWbit b) := packed _
theorem bsRbit : Statement .bsRbit := packed _
theorem bsWu64 (v : Wide) : Statement (.bsWu64 v) := packed _
theorem bsRu64 : Statement .bsRu64 := packed _
theorem bsNbytes : Statement .bsNbytes := packed _
theorem tcWtree : Statement .tcWtree := packed _
theorem tcRtree : Statement .tcRtree := packed _
theorem rdsr (idx : Byte) : Statement (.rdsr idx) := packed _
theorem sreset : Statement .sreset := packed _

end Sys2Proof.Laws.EncodedFields
end

