-- ==== Sys2Proof/Laws/State.lean ====
section
/-! SUPPORT. One lemma per field per update of State that the shared operations make, true by rfl and tagged simp, so that no
proof unfolds a record update. -/

namespace Sys2Proof.Machine

variable (st : Status) (v : Wide) (n : Nat) (d : List Byte) (g gi : Bool) (s : State)

@[simp] theorem respond_freq : (respond st v s).freq = s.freq := rfl
@[simp] theorem respond_pq : (respond st v s).pq = s.pq := rfl
@[simp] theorem respond_root : (respond st v s).root = s.root := rfl
@[simp] theorem respond_code : (respond st v s).code = s.code := rfl
@[simp] theorem respond_bs : (respond st v s).bs = s.bs := rfl
@[simp] theorem respond_bufBytes : (respond st v s).bufBytes = s.bufBytes := rfl
@[simp] theorem respond_file : (respond st v s).file = s.file := rfl
@[simp] theorem respond_inp : (respond st v s).inp = s.inp := rfl
@[simp] theorem respond_envGrant : (respond st v s).envGrant = s.envGrant := rfl
@[simp] theorem respond_envInpGrant : (respond st v s).envInpGrant = s.envInpGrant := rfl
@[simp] theorem respond_pending : (respond st v s).pending = s.pending := rfl
@[simp] theorem respond_responses : (respond st v s).responses = ⟨st, v⟩ :: s.responses := rfl
@[simp] theorem respond_draws : (respond st v s).draws = s.draws := rfl

@[simp] theorem fileAppend_freq : (fileAppend d s).freq = s.freq := rfl
@[simp] theorem fileAppend_pq : (fileAppend d s).pq = s.pq := rfl
@[simp] theorem fileAppend_root : (fileAppend d s).root = s.root := rfl
@[simp] theorem fileAppend_code : (fileAppend d s).code = s.code := rfl
@[simp] theorem fileAppend_bs : (fileAppend d s).bs = s.bs := rfl
@[simp] theorem fileAppend_bufBytes : (fileAppend d s).bufBytes = s.bufBytes := rfl
@[simp] theorem fileAppend_data : (fileAppend d s).file.data = s.file.data ++ d := rfl
@[simp] theorem fileAppend_rpos : (fileAppend d s).file.rpos = s.file.rpos := rfl
@[simp] theorem fileAppend_inp : (fileAppend d s).inp = s.inp := rfl
@[simp] theorem fileAppend_envGrant : (fileAppend d s).envGrant = s.envGrant := rfl
@[simp] theorem fileAppend_envInpGrant : (fileAppend d s).envInpGrant = s.envInpGrant := rfl
@[simp] theorem fileAppend_pending : (fileAppend d s).pending = s.pending := rfl
@[simp] theorem fileAppend_responses : (fileAppend d s).responses = s.responses := rfl
@[simp] theorem fileAppend_draws : (fileAppend d s).draws = s.draws := rfl

@[simp] theorem fileAdvance_freq : (fileAdvance n s).freq = s.freq := rfl
@[simp] theorem fileAdvance_pq : (fileAdvance n s).pq = s.pq := rfl
@[simp] theorem fileAdvance_root : (fileAdvance n s).root = s.root := rfl
@[simp] theorem fileAdvance_code : (fileAdvance n s).code = s.code := rfl
@[simp] theorem fileAdvance_bs : (fileAdvance n s).bs = s.bs := rfl
@[simp] theorem fileAdvance_bufBytes : (fileAdvance n s).bufBytes = s.bufBytes := rfl
@[simp] theorem fileAdvance_data : (fileAdvance n s).file.data = s.file.data := rfl
@[simp] theorem fileAdvance_rpos : (fileAdvance n s).file.rpos = s.file.rpos + n := rfl
@[simp] theorem fileAdvance_inp : (fileAdvance n s).inp = s.inp := rfl
@[simp] theorem fileAdvance_envGrant : (fileAdvance n s).envGrant = s.envGrant := rfl
@[simp] theorem fileAdvance_envInpGrant : (fileAdvance n s).envInpGrant = s.envInpGrant := rfl
@[simp] theorem fileAdvance_pending : (fileAdvance n s).pending = s.pending := rfl
@[simp] theorem fileAdvance_responses : (fileAdvance n s).responses = s.responses := rfl
@[simp] theorem fileAdvance_draws : (fileAdvance n s).draws = s.draws := rfl

@[simp] theorem addTotal_freq : (addTotal n s).freq = s.freq := rfl
@[simp] theorem addTotal_pq : (addTotal n s).pq = s.pq := rfl
@[simp] theorem addTotal_root : (addTotal n s).root = s.root := rfl
@[simp] theorem addTotal_code : (addTotal n s).code = s.code := rfl
@[simp] theorem addTotal_mode : (addTotal n s).bs.mode = s.bs.mode := rfl
@[simp] theorem addTotal_acc : (addTotal n s).bs.acc = s.bs.acc := rfl
@[simp] theorem addTotal_nbits : (addTotal n s).bs.nbits = s.bs.nbits := rfl
@[simp] theorem addTotal_buf : (addTotal n s).bs.buf = s.bs.buf := rfl
@[simp] theorem addTotal_cur : (addTotal n s).bs.cur = s.bs.cur := rfl
@[simp] theorem addTotal_avail : (addTotal n s).bs.avail = s.bs.avail := rfl
@[simp] theorem addTotal_total : (addTotal n s).bs.total = s.bs.total + BitVec.ofNat 64 n := rfl
@[simp] theorem addTotal_bitPhase : (addTotal n s).bs.bitPhase = s.bs.bitPhase := rfl
@[simp] theorem addTotal_bufBytes : (addTotal n s).bufBytes = s.bufBytes := rfl
@[simp] theorem addTotal_file : (addTotal n s).file = s.file := rfl
@[simp] theorem addTotal_inp : (addTotal n s).inp = s.inp := rfl
@[simp] theorem addTotal_envGrant : (addTotal n s).envGrant = s.envGrant := rfl
@[simp] theorem addTotal_envInpGrant : (addTotal n s).envInpGrant = s.envInpGrant := rfl
@[simp] theorem addTotal_pending : (addTotal n s).pending = s.pending := rfl
@[simp] theorem addTotal_responses : (addTotal n s).responses = s.responses := rfl
@[simp] theorem addTotal_draws : (addTotal n s).draws = s.draws := rfl

@[simp] theorem withGrants_freq : (withGrants g gi s).freq = s.freq := rfl
@[simp] theorem withGrants_pq : (withGrants g gi s).pq = s.pq := rfl
@[simp] theorem withGrants_root : (withGrants g gi s).root = s.root := rfl
@[simp] theorem withGrants_code : (withGrants g gi s).code = s.code := rfl
@[simp] theorem withGrants_bs : (withGrants g gi s).bs = s.bs := rfl
@[simp] theorem withGrants_bufBytes : (withGrants g gi s).bufBytes = s.bufBytes := rfl
@[simp] theorem withGrants_file : (withGrants g gi s).file = s.file := rfl
@[simp] theorem withGrants_inp : (withGrants g gi s).inp = s.inp := rfl
@[simp] theorem withGrants_envGrant : (withGrants g gi s).envGrant = g := rfl
@[simp] theorem withGrants_envInpGrant : (withGrants g gi s).envInpGrant = gi := rfl
@[simp] theorem withGrants_pending : (withGrants g gi s).pending = s.pending := rfl
@[simp] theorem withGrants_responses : (withGrants g gi s).responses = s.responses := rfl
@[simp] theorem withGrants_draws : (withGrants g gi s).draws = s.draws := rfl

@[simp] theorem clearBlock_freq : (clearBlock s).freq = s.freq := rfl
@[simp] theorem clearBlock_pq : (clearBlock s).pq = Queue.fresh := rfl
@[simp] theorem clearBlock_root : (clearBlock s).root = none := rfl
@[simp] theorem clearBlock_code : (clearBlock s).code = Code.empty := rfl
@[simp] theorem clearBlock_bs : (clearBlock s).bs = ⟨.closed, 0, 0, s.bs.buf, 0, 0, 0, false⟩ := rfl
@[simp] theorem clearBlock_bufBytes : (clearBlock s).bufBytes = s.bufBytes := rfl
@[simp] theorem clearBlock_file : (clearBlock s).file = s.file := rfl
@[simp] theorem clearBlock_inp : (clearBlock s).inp = s.inp := rfl
@[simp] theorem clearBlock_envGrant : (clearBlock s).envGrant = s.envGrant := rfl
@[simp] theorem clearBlock_envInpGrant : (clearBlock s).envInpGrant = s.envInpGrant := rfl
@[simp] theorem clearBlock_pending : (clearBlock s).pending = s.pending := rfl
@[simp] theorem clearBlock_responses : (clearBlock s).responses = s.responses := rfl
@[simp] theorem clearBlock_draws : (clearBlock s).draws = s.draws := rfl

@[simp] theorem fresh_slots : Queue.fresh.slots = [] := rfl
@[simp] theorem fresh_ovf : Queue.fresh.ovf = false := rfl
@[simp] theorem codeEmpty_len : Code.empty.len = 0 := rfl
@[simp] theorem codeEmpty_bits : Code.empty.bits = 0 := rfl

end Sys2Proof.Machine
end

