-- ==== Sys2Proof/Laws/Stream.lean ====
section
/-! SUPPORT. FILE and the batch buffer (20_memory.md R43, R46, R50, R51): what each shared operation does, said once. -/

namespace Sys2Proof.Machine

/-- `headerCheck` passes exactly when the mode is right and no bit command has been accepted (R75, R48). -/
theorem headerCheck_eq_none_iff (m : Mode) (s : State) :
    headerCheck m s = none ↔ s.bs.mode = m ∧ s.bs.bitPhase = false := by
  unfold headerCheck
  split
  · simp_all
  · split <;> simp_all

theorem headerCheck_of_mode {m : Mode} {s : State} (h : s.bs.mode ≠ m) : headerCheck m s = some .eMode := by
  simp [headerCheck, h]

theorem headerCheck_of_phase {m : Mode} {s : State} (h : s.bs.mode = m) (hp : s.bs.bitPhase = true) :
    headerCheck m s = some .ePhase := by simp [headerCheck, h, hp]

/-- Only E_MODE and E_PHASE come from the check of a header command. -/
theorem headerCheck_cases {m : Mode} {s : State} {e : Status} (h : headerCheck m s = some e) : e = .eMode ∨ e = .ePhase := by
  unfold headerCheck at h
  split at h
  · simp_all
  · split at h <;> simp_all

/-- FileRead (R43): what is read and what remains are together what was there. -/
theorem fileRead_append (n : Nat) (s : State) : (fileRead n s).1 ++ fileRest (fileRead n s).2 = fileRest s := by
  have h : ∀ l : List Byte, l.take n ++ l.drop (min n l.length) = l := by
    intro l
    rcases Nat.le_total n l.length with h | h
    · rw [Nat.min_eq_left h, List.take_append_drop]
    · rw [Nat.min_eq_right h, List.take_of_length_le h, List.drop_length, List.append_nil]
  have := h (fileRest s)
  simpa [fileRead, fileRest, fileAdvance, List.drop_drop] using this

theorem fileRead_length (n : Nat) (s : State) : (fileRead n s).1.length = min n (fileRest s).length := by
  simp [fileRead]

theorem fileRest_advance (n : Nat) (s : State) : fileRest (fileAdvance n s) = (fileRest s).drop n := by
  simp [fileRest]

/-! ### The write side (R50) -/

@[simp] theorem flush_eq (s : State) :
    flush s = { s with file := { s.file with data := s.file.data ++ s.bs.buf.take s.bs.cur }, bs := { s.bs with cur := 0 } } :=
  rfl

/-- The bytes a write stream has produced and not lost: FILE and, after it, the batch buffer (R54). -/
def produced (s : State) : List Byte := s.file.data ++ s.bs.buf.take s.bs.cur

@[simp] theorem produced_flush (s : State) : produced (flush s) = produced s := by simp [produced]

/-- `emit_byte` adds its byte to what the stream has produced, whether or not the buffer is then flushed (R50, R52). -/
theorem produced_emitByte (v : Byte) (s : State) (h : s.bs.cur < s.bs.buf.length) :
    produced (emitByte v s) = produced s ++ [v] := by
  have ht : (s.bs.buf.set s.bs.cur v).take (s.bs.cur + 1) = s.bs.buf.take s.bs.cur ++ [v] := by
    rw [List.take_add_one, List.take_set_of_le (le_refl _)]; simp [h]
  by_cases hc : s.bs.cur + 1 = s.bufBytes
  · simp [emitByte, hc, produced, ← ht]
  · simp [emitByte, hc, produced, ht]

/-- What `emit_byte` leaves of the BS unit: the cursor one further, or 0 after a flush (R50). -/
theorem emitByte_spec (v : Byte) (s : State) :
    (emitByte v s).bs = { s.bs with buf := s.bs.buf.set s.bs.cur v
                                    cur := if s.bs.cur + 1 = s.bufBytes then 0 else s.bs.cur + 1
                                    total := s.bs.total + 1 } ∧
    (emitByte v s).file.rpos = s.file.rpos ∧ (emitByte v s).bufBytes = s.bufBytes ∧
    (emitByte v s).freq = s.freq ∧ (emitByte v s).pq = s.pq ∧ (emitByte v s).root = s.root ∧
    (emitByte v s).code = s.code ∧ (emitByte v s).inp = s.inp ∧ (emitByte v s).envGrant = s.envGrant ∧
    (emitByte v s).envInpGrant = s.envInpGrant ∧ (emitByte v s).pending = s.pending ∧
    (emitByte v s).responses = s.responses ∧ (emitByte v s).draws = s.draws := by
  by_cases hc : s.bs.cur + 1 = s.bufBytes <;> simp [emitByte, hc, addTotal]

/-! ### The read side (R51) -/

/-- `fetch_byte` (R51) on a stream whose buffer lies inside its bounds: the first unread byte, which is then read, or NONE
exactly when nothing is unread. -/
theorem fetchByte_spec (s : State) (h1 : s.bs.cur ≤ s.bs.avail) (h2 : s.bs.avail ≤ s.bs.buf.length)
    (h3 : 1 ≤ s.bufBytes) :
    match unreadBytes s with
    | [] => (fetchByte s).1 = none ∧ (fetchByte s).2.bs.total = s.bs.total ∧ unreadBytes (fetchByte s).2 = []
    | v :: rest => (fetchByte s).1 = some v ∧ (fetchByte s).2.bs.total = s.bs.total + 1 ∧
        unreadBytes (fetchByte s).2 = rest := by
  have key : ∀ t : State, t.bs.cur < t.bs.avail → t.bs.avail ≤ t.bs.buf.length →
      unreadBytes t = t.bs.buf.getD t.bs.cur 0 ::
        unreadBytes (addTotal 1 { t with bs := { t.bs with cur := t.bs.cur + 1 } }) := by
    intro t hc hb
    have hlt : t.bs.cur < (t.bs.buf.take t.bs.avail).length := by simp; omega
    simp only [unreadBytes, addTotal_buf, addTotal_avail, addTotal_cur]
    rw [List.drop_eq_getElem_cons hlt, List.cons_append]
    congr 1
    · rw [List.getElem_take]; simp [show t.bs.cur < t.bs.buf.length by omega]
  by_cases hlt : s.bs.cur < s.bs.avail
  · have hne : s.bs.cur ≠ s.bs.avail := by omega
    rw [key s hlt h2]
    simp [fetchByte, hne]
  · have heq : s.bs.cur = s.bs.avail := by omega
    have hun : unreadBytes s = fileRest s := by simp [unreadBytes, heq]
    have hr : (refillBuf s).bs.cur = 0 := rfl
    have hra : (refillBuf s).bs.avail = min s.bufBytes (fileRest s).length := by simp [refillBuf, fileRead]
    have hbuf : (refillBuf s).bs.buf.take (refillBuf s).bs.avail = (fileRead s.bufBytes s).1 := by simp [refillBuf]
    have hlen : (refillBuf s).bs.avail ≤ (refillBuf s).bs.buf.length := by simp [refillBuf]
    have hunr : unreadBytes (refillBuf s) = fileRest s := by
      have hfr : fileRest (refillBuf s) = fileRest (fileRead s.bufBytes s).2 := rfl
      simp only [unreadBytes, hbuf, hr, List.drop_zero, hfr]
      exact fileRead_append _ _
    have htot : (refillBuf s).bs.total = s.bs.total := rfl
    rw [hun]
    by_cases hnil : fileRest s = []
    · have ha : (refillBuf s).bs.avail = 0 := by rw [hra, hnil]; simp
      rw [hnil]
      simp [fetchByte, heq, hr, ha, htot, hunr, hnil]
    · have ha : (refillBuf s).bs.cur < (refillBuf s).bs.avail := by
        rw [hr, hra]; have := List.length_pos_iff.mpr hnil; omega
      have hk := key (refillBuf s) ha hlen
      rw [hunr] at hk
      have hne : (refillBuf s).bs.cur ≠ (refillBuf s).bs.avail := by omega
      rw [hk]
      simp [fetchByte, heq, hne, htot]

/-- What `fetch_byte` cannot change: everything but the batch buffer, BS_TOTAL and FILE.rpos (R51). -/
theorem fetchByte_frame (s : State) :
    (fetchByte s).2.bs.mode = s.bs.mode ∧ (fetchByte s).2.bs.acc = s.bs.acc ∧ (fetchByte s).2.bs.nbits = s.bs.nbits ∧
    (fetchByte s).2.bs.bitPhase = s.bs.bitPhase ∧ (fetchByte s).2.file.data = s.file.data ∧
    (fetchByte s).2.bufBytes = s.bufBytes ∧ (fetchByte s).2.freq = s.freq ∧ (fetchByte s).2.pq = s.pq ∧
    (fetchByte s).2.root = s.root ∧ (fetchByte s).2.code = s.code ∧ (fetchByte s).2.inp = s.inp ∧
    (fetchByte s).2.envGrant = s.envGrant ∧ (fetchByte s).2.envInpGrant = s.envInpGrant ∧
    (fetchByte s).2.pending = s.pending ∧ (fetchByte s).2.responses = s.responses ∧
    (fetchByte s).2.draws = s.draws := by
  unfold fetchByte
  by_cases h : s.bs.cur = s.bs.avail
  · simp only [h, if_true]
    split <;> simp [refillBuf, fileRead]
  · simp [h]

end Sys2Proof.Machine
end

