-- ==== Sys2Proof/Laws/Tree.lean ====
section
/-! SUPPORT. Trees (10_state.md R12, R13): the leaves, the size, walking along a path; and the leaves the merge keeps
(42_huffman_tree.md R120). -/

namespace Sys2Proof.Machine

@[simp] theorem count_leaf (s : Symbol) (c : Count) : (Tree.leaf s c).count = c := rfl
@[simp] theorem count_node (c : Count) (k : Symbol) (l r : Tree) : (Tree.node c k l r).count = c := rfl
@[simp] theorem ksym_leaf (s : Symbol) (c : Count) : (Tree.leaf s c).ksym = s := rfl
@[simp] theorem ksym_node (c : Count) (k : Symbol) (l r : Tree) : (Tree.node c k l r).ksym = k := rfl
@[simp] theorem leaves_leaf (s : Symbol) (c : Count) : (Tree.leaf s c).leaves = [(s, c)] := rfl
@[simp] theorem leaves_node (c : Count) (k : Symbol) (l r : Tree) :
    (Tree.node c k l r).leaves = l.leaves ++ r.leaves := rfl
@[simp] theorem mkInternal_count (l r : Tree) : (mkInternal l r).count = l.count + r.count := rfl
@[simp] theorem mkInternal_leaves (l r : Tree) : (mkInternal l r).leaves = l.leaves ++ r.leaves := rfl

@[simp] theorem mkInternal_wf (l r : Tree) : (mkInternal l r).wf = (l.wf && r.wf) := by simp [mkInternal, Tree.wf]

theorem leaves_length_pos (t : Tree) : 0 < t.leaves.length := by
  induction t with
  | leaf => simp
  | node _ _ _ _ ihl ihr => simp; omega

theorem isLeaf_iff (t : Tree) : t.isLeaf = true ↔ ∃ s c, t = .leaf s c := by
  cases t <;> simp [Tree.isLeaf]

theorem walk_append (t : Tree) (p q : List Bool) : t.walk (p ++ q) = (t.walk p).bind (·.walk q) := by
  induction p generalizing t with
  | nil => cases t <;> rfl
  | cons b p ih =>
    cases t with
    | leaf => rfl
    | node c k l r => cases b <;> simp [Tree.walk, ih]

/-- The leaves of a list of trees, in order. -/
def leavesOf (q : List Tree) : List (Symbol × Count) := q.flatMap Tree.leaves

/-- The counts of a list of trees, summed modulo 2^64. -/
def countSum (q : List Tree) : Count := (q.map Tree.count).sum

theorem leavesOf_perm {a b : List Tree} (h : a.Perm b) : (leavesOf a).Perm (leavesOf b) := h.flatMap_right _

theorem countSum_perm {a b : List Tree} (h : a.Perm b) : countSum a = countSum b := (h.map _).sum_eq

theorem mergePass_leaves {q : Queue} (h : 1 < q.slots.length) (hb : q.slots.length ≤ 256) :
    (leavesOf (mergePass q).slots).Perm (leavesOf q.slots) ∧ countSum (mergePass q).slots = countSum q.slots := by
  obtain ⟨l, r, rest, h1, h2, -⟩ := mergePass_spec h hb
  constructor
  · refine (leavesOf_perm h2).trans (.trans ?_ (leavesOf_perm h1).symm)
    simp [leavesOf]
  · rw [countSum_perm h1, countSum_perm h2]; simp [countSum, add_assoc]

/-- What the merge loop does (R120): from at least one element it leaves exactly one, over the same leaves, with the sum of
the counts; Q_OVF is not touched. -/
theorem mergeLoop_spec {q : Queue} (hne : q.slots ≠ []) (hb : q.slots.length ≤ 256) :
    ∃ t, mergeLoop q.slots.length q = ⟨[t], q.ovf⟩ ∧ t.leaves.Perm (leavesOf q.slots) ∧ t.count = countSum q.slots := by
  have := mergeLoop_induction (P := fun q' => q'.ovf = q.ovf ∧ (leavesOf q'.slots).Perm (leavesOf q.slots) ∧
      countSum q'.slots = countSum q.slots) q.slots.length q (by omega) hb ⟨rfl, .refl _, rfl⟩ (by
    intro q' h1 hb' ⟨ho, hl, hc⟩
    obtain ⟨-, -, -, -, -, ho'⟩ := mergePass_spec h1 hb'
    have hm := mergePass_leaves h1 hb'
    exact ⟨ho'.trans ho, hm.1.trans hl, hm.2.trans hc⟩)
  obtain ⟨⟨ho, hl, hc⟩, hlen⟩ := this
  have hpos : 0 < q.slots.length := List.length_pos_iff.mpr hne
  rw [show min q.slots.length 1 = 1 by omega] at hlen
  obtain ⟨t, ht⟩ := List.length_eq_one_iff.mp hlen
  refine ⟨t, ?_, by simpa [ht, leavesOf] using hl, by simpa [ht, countSum] using hc⟩
  generalize mergeLoop q.slots.length q = m at *
  cases m; simp_all

/-- Every tree the loop puts back is well-formed when the trees it started with are. -/
theorem mergeLoop_wf {q : Queue} (hb : q.slots.length ≤ 256) (h : ∀ t ∈ q.slots, t.wf = true) :
    ∀ t ∈ (mergeLoop q.slots.length q).slots, t.wf = true := by
  refine (mergeLoop_induction (P := fun q' => ∀ t ∈ q'.slots, t.wf = true) q.slots.length q (by omega) hb h ?_).1
  intro q' h1 hb' hw t ht
  obtain ⟨l, r, rest, hp, hm, -⟩ := mergePass_spec h1 hb'
  have hw' : ∀ x ∈ l :: r :: rest, x.wf = true := fun x hx => hw x (hp.mem_iff.mpr hx)
  rcases List.mem_cons.mp (hm.mem_iff.mp ht) with rfl | ht
  · simp [hw' l (by simp), hw' r (by simp)]
  · exact hw' t (by simp [ht])

/-- The queue the loop starts from (R120): the sentinel joins a lone element and nothing else is added. -/
theorem addSentinel_spec (q : Queue) :
    (addSentinel q).ovf = q.ovf ∧
    ((∃ t, q.slots = [t] ∧ (addSentinel q).slots.Perm (.leaf (sentinelSym t.ksym) 0 :: [t])) ∨
      (q.slots.length ≠ 1 ∧ addSentinel q = q)) := by
  obtain ⟨sl, ov⟩ := q
  match sl with
  | [] => simp [addSentinel]
  | a :: b :: rest => simp [addSentinel]
  | [t] =>
    have hnf : (Queue.mk [t] ov).full = false := by simp [Queue.full]
    refine ⟨?_, .inl ⟨t, rfl, ?_⟩⟩
    · simp only [addSentinel]; rw [enqueue_ovf, hnf, Bool.or_false]
    · exact enqueue_perm _ hnf

theorem addSentinel_heap {q : Queue} (h : heapOrdered q.slots) : heapOrdered (addSentinel q).slots := by
  obtain ⟨sl, ov⟩ := q
  match sl with
  | [] => exact h
  | a :: b :: rest => exact h
  | [t] => exact enqueue_heap _ h

/-- `merge()` of an empty queue is null (R120, D22). -/
theorem merge_of_nil {q : Queue} (h : q.slots = []) : q.merge = (none, q) := by
  obtain ⟨sl, ov⟩ := q
  subst h
  simp [Queue.merge, addSentinel, mergeLoop, Queue.dequeue]

/-- `merge()` of a queue with elements (R120): a tree over the leaves of the queue and the sentinel's, if one was added;
the queue is left empty with Q_OVF as it was. -/
theorem merge_of_ne_nil {q : Queue} (h : q.slots ≠ []) (hb : q.slots.length ≤ 256) :
    ∃ t, q.merge = (some t, ⟨[], q.ovf⟩) ∧ t.leaves.Perm (leavesOf (addSentinel q).slots) ∧
      t.count = countSum (addSentinel q).slots := by
  obtain ⟨ho, hs⟩ := addSentinel_spec q
  have hpos : 0 < q.slots.length := List.length_pos_iff.mpr h
  have hb' : (addSentinel q).slots ≠ [] ∧ (addSentinel q).slots.length ≤ 256 := by
    rcases hs with ⟨t, ht, hp⟩ | ⟨-, he⟩
    · have := hp.length_eq
      exact ⟨by intro hc; simp [hc] at this, by simp at this; omega⟩
    · rw [he]; exact ⟨h, hb⟩
  obtain ⟨t, ht, hl, hc⟩ := mergeLoop_spec hb'.1 hb'.2
  refine ⟨t, ?_, hl, hc⟩
  simp [Queue.merge, ht, Queue.dequeue, refill, ho]

theorem merge_wf {q : Queue} (hb : q.slots.length ≤ 256) (hw : ∀ t ∈ q.slots, t.wf = true) {t : Tree}
    (ht : q.merge.1 = some t) : t.wf = true := by
  by_cases hne : q.slots = []
  · simp [merge_of_nil hne] at ht
  · obtain ⟨-, hs⟩ := addSentinel_spec q
    have hx : (addSentinel q).slots ≠ [] ∧ (addSentinel q).slots.length ≤ 256 ∧
        ∀ t ∈ (addSentinel q).slots, t.wf = true := by
      rcases hs with ⟨u, hu, hp⟩ | ⟨-, he⟩
      · have hl := hp.length_eq
        refine ⟨by intro hc; simp [hc] at hl, by simp at hl; omega, ?_⟩
        intro x hx
        rcases List.mem_cons.mp (hp.mem_iff.mp hx) with rfl | hx
        · rfl
        · exact hw x (by rw [hu]; exact hx)
      · rw [he]; exact ⟨hne, hb, hw⟩
    obtain ⟨u, hu, -⟩ := mergeLoop_spec hx.1 hx.2.1
    have := mergeLoop_wf hx.2.1 hx.2.2
    simp only [Queue.merge, hu, Queue.dequeue, Option.some.injEq] at ht
    exact ht ▸ this u (by simp [hu])

end Sys2Proof.Machine
end

