-- ==== Sys2Proof/Tests/Slice0.lean ====
section
/-! SUPPORT. The model's own tests: the checks of WellFormed, a word of every command written out from 30_encoding.md R64,
single steps whose expected values are the vectors of spec/95_test_vectors.md, and a witness for the hypotheses of every
statement that has any. -/

namespace Sys2Proof.Tests

open Sys2Proof.Machine Sys2Proof.Claims

/-! ### Small states -/

/-- The start state of 95_test_vectors.md with BUF = 4: reset, FREQ cleared; INP is `aaaab`. -/
def idle : State :=
  { State.reset with
    freq := freqZero, bufBytes := 4, bs := ⟨.closed, 0, 0, [0, 0, 0, 0], 0, 0, 0, false⟩, inp := [97, 97, 97, 97, 98] }

/-- A write stream before its first bit command. -/
def headerWrite : State := { idle with bs := ⟨.write, 0, 0, [0, 0, 0, 0], 0, 0, 0, false⟩ }

/-- A write stream with `nbits` pending bits `acc` and `cur` bytes in BS_BUF. -/
def writing (acc : Byte) (nbits cur : Nat) : State :=
  { idle with bs := ⟨.write, acc, nbits, [0xB2, 2, 3, 0], cur, 0, BitVec.ofNat 64 cur, true⟩ }

/-- A read stream before its first bit command, over the bytes `d`. -/
def headerRead (d : List Byte) : State :=
  { idle with file := ⟨d, 0⟩, bs := ⟨.read, 0, 0, [0, 0, 0, 0], 0, 0, 0, false⟩ }

/-- The bytes of `#007 098,#` (V-TC-3). -/
def text007 : List Byte := [0x23, 0x30, 0x30, 0x37, 0x20, 0x30, 0x39, 0x38, 0x2C, 0x23]

/-- A read stream over FE FE 00, all three bytes prefetched and `cur` of them loaded, with `nbits` unread bits in `acc`. -/
def reading (acc : Byte) (nbits cur : Nat) : State :=
  { idle with file := ⟨[0xFE, 0xFE, 0x00], 3⟩, bs := ⟨.read, acc, nbits, [0xFE, 0xFE, 0, 0], cur, 3, BitVec.ofNat 64 cur, true⟩ }

/-- The tree of the scenario `aaaab` (E6). -/
def treeAB : Machine.Tree := .node 5 97 (.leaf 98 1) (.leaf 97 4)

/-- The queue of E6 after HT_LEAVES. -/
def queueAB : Queue := ⟨[.leaf 98 1, .leaf 97 4], false⟩

/-- The bytes of `#1 98,4 97,#` (R143). -/
def textAB : List Byte := [0x23, 0x31, 0x20, 0x39, 0x38, 0x2C, 0x34, 0x20, 0x39, 0x37, 0x2C, 0x23]

def withQueue (q : Queue) : State := { idle with pq := q }
def withRoot (t : Machine.Tree) : State := { idle with root := some t }

/-- The response of one command. -/
def reply (i : Instr) (s : State) : Option (Status × Wide) :=
  match exec i s with
  | .next t => t.responses.head?.map (fun r => (r.status, r.result))
  | .fault _ => none
  | .refused _ => none

/-- The state after one command. -/
def after (i : Instr) (s : State) : State :=
  match exec i s with
  | .next t => t
  | .fault _ => s
  | .refused _ => s

/-! ### WellFormed refuses -/

theorem test_wellFormed_codePush_two : (Instr.codePush 2).wellFormed = false := by decide
theorem test_wellFormed_bsOpen_two : (Instr.bsOpen 2).wellFormed = false := by decide
theorem test_wellFormed_bsWbit_two : (Instr.bsWbit 2).wellFormed = false := by decide
theorem test_wellFormed_rdsr_twelve : (Instr.rdsr 12).wellFormed = false := by decide
theorem test_wellFormed_accepts : (Instr.bsWbit 1).wellFormed = true ∧ (Instr.rdsr 11).wellFormed = true := by decide

/-! ### A word of every command (R64: CW = OPC + 256 * IMM8) -/

theorem test_words_system :
    decode 0x00000000 0 = .ok .nop ∧ decode 0x00000B40 0 = .ok (.rdsr 11) ∧ decode 0x0000007F 9 = .ok .sreset := by decide

theorem test_words_frequency :
    decode 0x00000001 0 = .ok .freqClr ∧ decode 0x00006102 0 = .ok (.freqAdd 97) ∧ decode 0x00000003 0 = .ok .freqScan ∧
    decode 0x00006304 0 = .ok (.freqRd 99) := by decide

theorem test_words_tree :
    decode 0x00000008 0 = .ok .htLeaves ∧ decode 0x00000009 0 = .ok .htMerge ∧ decode 0x0000000A 0 = .ok .htBuild ∧
    decode 0x0000610B 0 = .ok (.htCode 97) ∧ decode 0x0000000C 0 = .ok .htFind ∧ decode 0x0000000D 0 = .ok .htSize ∧
    decode 0x0000000E 0 = .ok .htFree ∧ decode 0x00000018 0 = .ok .codeClr ∧ decode 0x00000119 0 = .ok (.codePush 1) := by
  decide

theorem test_words_queue :
    decode 0x00000010 0 = .ok .pqClr ∧ decode 0x00006111 5 = .ok (.pqEnq 97 5) ∧ decode 0x00000012 0 = .ok .pqDeq ∧
    decode 0x00000513 0 = .ok (.pqPeekc 5) ∧ decode 0x0000FF14 0 = .ok (.pqPeekk 255) := by decide

theorem test_words_bitstream :
    decode 0x00000020 0 = .ok (.bsOpen 0) ∧ decode 0x00000021 0 = .ok .bsClose ∧ decode 0x00000122 0 = .ok (.bsWbit 1) ∧
    decode 0x00000023 0 = .ok .bsRbit ∧ decode 0x00000024 300 = .ok (.bsWu64 300) ∧ decode 0x00000025 0 = .ok .bsRu64 ∧
    decode 0x00000026 0 = .ok .bsNbytes := by decide

theorem test_words_codec : decode 0x00000030 0 = .ok .tcWtree ∧ decode 0x00000031 0 = .ok .tcRtree := by decide

/-- V-SYS-2. -/
theorem test_words_illegal :
    decode 0x80000000 0 = .error .reservedBits ∧ decode 0x0001007F 0 = .error .reservedBits ∧
    decode 0x00000005 0 = .error .unassignedOpcode ∧ decode 0x000000FF 0 = .error .unassignedOpcode ∧
    decode 0x00000100 0 = .error .unusedImmediate ∧ decode 0x00000130 0 = .error .unusedImmediate ∧
    decode 0xFFFFFFFF 0 = .error .reservedBits := by decide

/-- The 96-bit numbering: ARG above CW (log 14). -/
theorem test_table_words :
    decodeTableWord 32 0x00006102 = some (.freqAdd 97) ∧ decodeTableWord 32 0x00000024 = some (.bsWu64 0) ∧
    decodeTableWord 96 (0x00006111 + 4 * 2 ^ 32) = some (.pqEnq 97 4) ∧ decodeTableWord 32 0x00010000 = none := by decide

/-! ### Single steps against spec/95_test_vectors.md -/

/-- V-SYS-1. -/
theorem test_nop : reply .nop idle = some (.ok, 0) := by decide
theorem test_rdsr : reply (.rdsr 0) idle = some (.ok, 0x4855464600000001) ∧ reply (.rdsr 11) idle = some (.ok, 4) ∧
    reply (.rdsr 12) idle = some (.eArg, 0) := by decide
/-- V-BS-2: SR_BS = 0x4046 and SR_BS_BUF = 1 after nine bits. -/
theorem test_rdsr_bs : reply (.rdsr 1) (writing 1 1 1) = some (.ok, 0x4046) ∧
    reply (.rdsr 3) (writing 1 1 1) = some (.ok, 1) := by decide
/-- V-SYS-3. -/
theorem test_sreset : reply .sreset (writing 1 1 1) = some (.ok, 0) ∧ (after .sreset (writing 1 1 1)).bs.mode = .closed ∧
    (after .sreset (writing 1 1 1)).bs.total = 0 ∧ (after .sreset (writing 1 1 1)).file.data = [] := by decide
/-- R115, R116, E6. -/
theorem test_freqClr : freqAt (after .freqClr (after (.freqAdd 97) idle)).freq 97 = 0 := by decide
theorem test_freqAdd : reply (.freqAdd 97) (after (.freqAdd 97) idle) = some (.ok, 2) := by decide
theorem test_freqScan : reply .freqScan idle = some (.ok, 5) ∧ freqAt (after .freqScan idle).freq 97 = 4 := by decide
/-- V-HT-8. -/
theorem test_freqScan_refused : reply .freqScan { idle with envInpGrant := false } = some (.eOpen, 0) := by decide
theorem test_freqRd : reply (.freqRd 98) (after .freqScan idle) = some (.ok, 1) := by decide
/-- E6. -/
theorem test_htLeaves : (after .htLeaves (after .freqScan idle)).pq = queueAB := by decide +kernel
theorem test_htBuild : (after .htBuild idle).root = some treeAB := by decide +kernel
/-- E6. -/
theorem test_htMerge : reply .htMerge (withQueue queueAB) = some (.ok, 5) ∧
    (after .htMerge (withQueue queueAB)).root = some treeAB ∧ (after .htMerge (withQueue queueAB)).pq.slots = [] := by decide
/-- V-TC-6: on equal keys the newcomer stays below, so the leaf is dequeued before the node. -/
theorem test_merge_tie : (Queue.merge ⟨[.leaf 5 1, .leaf 9 1, .leaf 5 2], false⟩).1 =
    some (.node 4 5 (.leaf 5 2) (.node 2 5 (.leaf 5 1) (.leaf 9 1))) := by decide
/-- V-HT-9: the counts wrap. -/
theorem test_htMerge_wraps : (after .htMerge (withQueue ⟨[.leaf 2 2, .leaf 1 0xFFFFFFFFFFFFFFFF], true⟩)).root =
    some (.node 1 1 (.leaf 2 2) (.leaf 1 0xFFFFFFFFFFFFFFFF)) := by decide
/-- E6: a = `0`, b = `1`. -/
theorem test_htCode : (after (.htCode 97) (withRoot treeAB)).code = ⟨1, 0⟩ ∧
    (after (.htCode 98) (withRoot treeAB)).code = ⟨1, 1⟩ ∧ reply (.htCode 99) (withRoot treeAB) = some (.eNotFound, 0) := by
  decide
/-- R125: "0" finds a, "01" runs past the leaf, the empty string ends on an Internal node. -/
theorem test_htFind : reply .htFind { withRoot treeAB with code := ⟨1, 0⟩ } = some (.ok, 97) ∧
    reply .htFind { withRoot treeAB with code := ⟨2, 1⟩ } = some (.eNotFound, 0) ∧
    reply .htFind (withRoot treeAB) = some (.eNotFound, 0) := by decide
theorem test_htSize : reply .htSize (withRoot treeAB) = some (.ok, 3) ∧ reply .htSize idle = some (.ok, 0) := by decide
theorem test_htFree : (after .htFree (withRoot treeAB)).root = none := by decide
theorem test_pqClr : (after .pqClr (withQueue ⟨[.leaf 1 1], true⟩)).pq = ⟨[], false⟩ := by decide
/-- R104: the smaller leaf is swapped up. -/
theorem test_pqEnq : reply (.pqEnq 98 1) (withQueue ⟨[.leaf 97 4], false⟩) = some (.ok, 2) ∧
    (after (.pqEnq 98 1) (withQueue ⟨[.leaf 97 4], false⟩)).pq = queueAB := by decide
/-- V-PQ-1, last line. -/
theorem test_pqEnq_fifth : (after (.pqEnq 114 2) (withQueue ⟨[.leaf 99 1, .leaf 100 1, .leaf 98 2, .leaf 97 5], false⟩)).pq.slots =
    [.leaf 99 1, .leaf 100 1, .leaf 98 2, .leaf 97 5, .leaf 114 2] := by decide
/-- V-PQ-2, first dequeue. -/
theorem test_pqDeq : (after .pqDeq (withQueue ⟨[.leaf 99 1, .leaf 100 1, .leaf 98 2, .leaf 97 5, .leaf 114 2], false⟩)).pq.slots =
    [.leaf 100 1, .leaf 114 2, .leaf 98 2, .leaf 97 5] := by decide
/-- V-PQ-6. -/
theorem test_pqDeq_empty : reply .pqDeq (withRoot treeAB) = some (.null, 0) ∧ (after .pqDeq (withRoot treeAB)).root = none := by
  decide
theorem test_pqPeekc : reply (.pqPeekc 1) (withQueue queueAB) = some (.ok, 4) ∧
    reply (.pqPeekc 2) (withQueue queueAB) = some (.eArg, 0) := by decide
theorem test_pqPeekk : reply (.pqPeekk 0) (withQueue queueAB) = some (.ok, 98) := by decide
theorem test_codeClr : (after .codeClr { idle with code := ⟨3, 5⟩ }).code = ⟨0, 0⟩ := by decide
/-- R129, V-HT-12. -/
theorem test_codePush : (after (.codePush 0) { idle with code := ⟨1, 1⟩ }).code = ⟨2, 2⟩ ∧
    reply (.codePush 2) idle = some (.eArg, 0) ∧ reply (.codePush 1) { idle with code := ⟨256, 1⟩ } = some (.eArg, 0) := by
  decide
/-- R76, V-BS-13. -/
theorem test_bsOpen : reply (.bsOpen 1) { idle with file := ⟨[1], 0⟩ } = some (.ok, 0) ∧
    (after (.bsOpen 1) { idle with file := ⟨[1], 0⟩ }).file.data = [] ∧ reply (.bsOpen 2) headerWrite = some (.eArg, 0) := by
  decide
/-- E7: bits 1,0,1 give the byte A0. -/
theorem test_bsClose : reply .bsClose (writing 5 3 0) = some (.ok, 1) ∧ (after .bsClose (writing 5 3 0)).file.data = [0xA0] := by
  decide
/-- V-BS-3 and V-BS-12: no pad byte; a second close. -/
theorem test_bsClose_twice : reply .bsClose headerWrite = some (.ok, 0) ∧
    reply .bsClose (after .bsClose headerWrite) = some (.eMode, 0) := by decide
/-- R78: the eighth bit emits the byte 0B. -/
theorem test_bsWbit : (after (.bsWbit 1) (writing 5 7 1)).bs.buf = [0xB2, 0x0B, 3, 0] ∧
    (after (.bsWbit 1) (writing 5 7 1)).bs.cur = 2 ∧ reply (.bsWbit 255) idle = some (.eArg, 0) := by decide
/-- R50: the byte that fills BS_BUF goes to FILE in the same command. -/
theorem test_bsWbit_flush : (after (.bsWbit 1) (writing 5 7 3)).file.data = [0xB2, 2, 3, 0x0B] ∧
    (after (.bsWbit 1) (writing 5 7 3)).bs.cur = 0 := by decide
/-- V-BS-5: the first bit of A0; V-BS-6: EOD on an empty file. -/
theorem test_bsRbit : reply .bsRbit (headerRead [0xA0]) = some (.ok, 1) ∧ (after .bsRbit (headerRead [0xA0])).bs.acc = 0x40 ∧
    (after .bsRbit (headerRead [0xA0])).bs.nbits = 7 ∧ (after .bsRbit (headerRead [0xA0])).bs.total = 1 := by decide
theorem test_bsRbit_eod : reply .bsRbit (headerRead []) = some (.eod, 0) ∧
    (after .bsRbit (headerRead [])).bs.bitPhase = true := by decide
/-- E8. -/
theorem test_bsWu64 : (after (.bsWu64 300) headerWrite).file.data = [0, 0, 0, 0, 0, 0, 1, 0x2C] ∧
    reply (.bsWu64 7) (writing 1 1 0) = some (.ePhase, 0) := by decide
theorem test_bsRu64 : reply .bsRu64 (headerRead [1, 2, 3, 4, 5, 6, 7, 8]) = some (.ok, 72623859790382856) ∧
    reply .bsRu64 (headerRead [1, 2, 3]) = some (.eod, 0) ∧ (after .bsRu64 (headerRead [1, 2, 3])).bs.total = 3 := by decide
theorem test_bsNbytes : reply .bsNbytes (writing 1 1 3) = some (.ok, 3) := by decide
/-- R143. -/
theorem test_tcWtree : (after .tcWtree { headerWrite with root := some treeAB }).file.data = textAB ∧
    reply .tcWtree headerWrite = some (.ok, 2) := by decide
/-- V-TC-3: the first line; leading zeros. -/
theorem test_tcRtree : reply .tcRtree (headerRead textAB) = some (.ok, 12) ∧
    (after .tcRtree (headerRead textAB)).root = some treeAB ∧ reply .tcRtree (headerRead text007) = some (.ok, 10) ∧
    (after .tcRtree (headerRead text007)).root = some (.node 7 0 (.leaf 0 0) (.leaf 98 7)) := by decide
/-- V-TC-4: `#1 98;` consumes 6 bytes; a symbol above 255 too. -/
theorem test_tcRtree_malformed :
    reply .tcRtree (headerRead [0x23, 0x31, 0x20, 0x39, 0x38, 0x3B, 0x34]) = some (.eFormat, 0) ∧
    (after .tcRtree (headerRead [0x23, 0x31, 0x20, 0x39, 0x38, 0x3B, 0x34])).bs.total = 6 ∧
    (after .tcRtree (headerRead [0x23, 0x31, 0x20, 0x32, 0x35, 0x36, 0x2C, 0x23])).file.rpos = 6 := by decide

/-! ### Witnesses: states and operands that meet the hypotheses of each statement -/

theorem witness_idle_streamInv : StreamInv idle :=
  ⟨by decide, by decide, fun _ => ⟨rfl, rfl, rfl, rfl, rfl⟩, fun h => absurd h (by decide), fun h => absurd h (by decide)⟩

theorem witness_headerWrite_streamInv : StreamInv headerWrite :=
  ⟨by decide, by decide, fun h => absurd h (by decide),
    fun _ => ⟨by decide, by decide, by decide, by decide, by decide, by decide⟩, fun h => absurd h (by decide)⟩

/-- Seven pending bits and room for one more byte: the next bit flushes. -/
theorem witness_writing_full_streamInv : StreamInv (writing 0x7F 7 3) :=
  ⟨by decide, by decide, fun h => absurd h (by decide),
    fun _ => ⟨by decide, by decide, by decide, by decide, by decide, by decide⟩, fun h => absurd h (by decide)⟩

/-- Seven pending bits, the buffer far from full. -/
theorem witness_writing_streamInv : StreamInv (writing 5 7 1) :=
  ⟨by decide, by decide, fun h => absurd h (by decide),
    fun _ => ⟨by decide, by decide, by decide, by decide, by decide, by decide⟩, fun h => absurd h (by decide)⟩

theorem witness_headerRead_streamInv : StreamInv (headerRead [0xA0]) :=
  ⟨by decide, by decide, fun h => absurd h (by decide), fun h => absurd h (by decide),
    fun _ => ⟨by decide, by decide, by decide, by decide, by decide, by decide, by decide, by decide, by decide⟩⟩

/-- One byte loaded, seven of its bits unread, two bytes prefetched. -/
theorem witness_reading_streamInv : StreamInv (reading 0xFC 7 1) :=
  ⟨by decide, by decide, fun h => absurd h (by decide), fun h => absurd h (by decide),
    fun _ => ⟨by decide, by decide, by decide, by decide, by decide, by decide, by decide, by decide, by decide⟩⟩

/-- On a byte boundary with one byte prefetched. -/
theorem witness_reading_boundary_streamInv : StreamInv (reading 0 0 2) :=
  ⟨by decide, by decide, fun h => absurd h (by decide), fun h => absurd h (by decide),
    fun _ => ⟨by decide, by decide, by decide, by decide, by decide, by decide, by decide, by decide, by decide⟩⟩

/-- Everything read: the next BS_RBIT answers EOD. -/
theorem witness_reading_end_streamInv : StreamInv (reading 0 0 3) :=
  ⟨by decide, by decide, fun h => absurd h (by decide), fun h => absurd h (by decide),
    fun _ => ⟨by decide, by decide, by decide, by decide, by decide, by decide, by decide, by decide, by decide⟩⟩

theorem witness_heap_nil : heapOrdered [] := by intro i c _ a b h; simp at h

theorem witness_heap_queueAB : heapOrdered queueAB.slots := by
  intro i c hc a b ha hb
  obtain ⟨hi, rfl⟩ := List.getElem?_eq_some_iff.mp ha
  obtain ⟨hj, rfl⟩ := List.getElem?_eq_some_iff.mp hb
  have : i = 0 ∧ c = 1 := by simp [queueAB] at hi hj; omega
  obtain ⟨rfl, rfl⟩ := this
  exact (by decide : keyLt (.leaf 97 4) (.leaf 98 1) = false)

theorem witness_queueInv : QueueInv queueAB := ⟨by decide, by decide, witness_heap_queueAB⟩

theorem witness_rootInv : RootInv (some treeAB) := by
  intro t h
  obtain rfl := Option.some.inj h
  decide

theorem witness_treeInv : TreeInv { withQueue queueAB with root := some treeAB, code := ⟨1, 1⟩ } :=
  ⟨witness_queueInv, witness_rootInv, by decide, by decide⟩

theorem witness_responsesInv : ResponsesInv { idle with responses := [⟨.eod, 0⟩, ⟨.ok, 5⟩] } := by
  intro r hr
  revert r
  decide

theorem witness_EncodeUndoesDecode :
    decode 0x00006102 7 = .ok (.freqAdd 97) ∧ (∀ sym c, Instr.freqAdd 97 ≠ .pqEnq sym c) ∧ (∀ v, Instr.freqAdd 97 ≠ .bsWu64 v) :=
  ⟨by decide, fun _ _ => by simp, fun _ => by simp⟩

/-- A word for each of the four steps of R68. -/
theorem witness_DecodeFollowsTheFourSteps :
    rsvNat 0x00010000 ≠ 0 ∧ (rsvNat 0x0000000F = 0 ∧ opcNat 0x0000000F ∉ plainOpcodes ++ immOpcodes) ∧
    (rsvNat 0x00000100 = 0 ∧ opcNat 0x00000100 ∈ plainOpcodes ∧ immNat 0x00000100 ≠ 0) ∧
    (rsvNat 0x0000FF40 = 0 ∧ opcNat 0x0000FF40 ∈ immOpcodes) ∧
    (rsvNat 0x0000007F = 0 ∧ opcNat 0x0000007F ∈ plainOpcodes ∧ immNat 0x0000007F = 0) := by decide

theorem witness_IllegalWordsAnswerEIllegal :
    { idle with pending := [.command 0x00010222 0 true true] }.pending = .command 0x00010222 0 true true :: [] ∧
    rsvNat 0x00010222 ≠ 0 ∧ opcNat 0x000000FF ∉ plainOpcodes ++ immOpcodes ∧
    (opcNat 0x00000121 ∈ plainOpcodes ∧ immNat 0x00000121 ≠ 0) := by decide

theorem witness_StepPerformsThePresentedCommand :
    { idle with pending := [present .nop] }.pending = .command 0 0 true true :: [] ∧ decode 0 0 = .ok .nop ∧
    idle.pending = [] ∧ decodeTableWord 32 0x0000FF13 = some (.pqPeekc 255) := by decide

theorem witness_EnvironmentMovesBetweenCommands :
    { idle with pending := [.setFile [1]] }.bs.mode = .closed ∧ { headerWrite with pending := [.setFile [1]] }.bs.mode ≠ .closed ∧
    { headerWrite with pending := [.setFile [1]] }.pending = [.setFile [1]] ∧
    { headerWrite with pending := [.setInp [1]] }.pending = [.setInp [1]] := by decide

theorem witness_HardwareResetLeavesTheResetValues :
    { writing 5 7 1 with pending := [.reset] }.pending = .reset :: [] ∧ 1 ≤ (1 : Byte).toNat ∧ (10 : Byte).toNat ≤ 10 := by
  decide

theorem witness_ResetStateHoldsTheResetValues : 1 ≤ (1 : Byte).toNat ∧ (1 : Byte).toNat ≤ 10 ∧ (10 : Byte).toNat ≤ 10 := by
  decide

theorem witness_RdsrReturnsTheView :
    (writing 0x7F 7 3).bs.nbits ≤ 8 ∧ (withQueue queueAB).pq.slots.length ≤ 256 ∧ (Code.mk 256 1).len ≤ 256 ∧
    12 ≤ (12 : Byte).toNat ∧ 12 ≤ (255 : Byte).toNat := by decide

theorem witness_FreqScanCountsTheBytes : idle.envInpGrant = true ∧ { idle with envInpGrant := false }.envInpGrant = false := by
  decide

theorem witness_PqEnqResults : idle.pq.slots.length < 256 ∧ heapOrdered idle.pq.slots ∧
    (Queue.mk (List.replicate 256 (.leaf 1 1)) false).slots.length = 256 :=
  ⟨by decide, witness_heap_nil, List.length_replicate⟩

theorem witness_PqDeqResults : idle.pq.slots = [] ∧ (withQueue queueAB).pq.slots = .leaf 98 1 :: [.leaf 97 4] ∧
    (withQueue queueAB).pq.slots.length ≤ 256 ∧ heapOrdered (withQueue queueAB).pq.slots :=
  ⟨by decide, by decide, by decide, witness_heap_queueAB⟩

/-- An empty queue, one with room for one more, a full one. -/
theorem witness_EnqueueAndDequeueFollowTheirLoops : (Queue.mk [] false).slots = [] ∧
    (Queue.mk (List.replicate 255 (.leaf 1 1)) false).slots.length < 256 ∧
    (Queue.mk (List.replicate 256 (.leaf 1 1)) false).slots.length = 256 ∧ queueAB.slots = .leaf 98 1 :: [.leaf 97 4] :=
  ⟨rfl, by rw [List.length_replicate]; decide, List.length_replicate, rfl⟩

theorem witness_PqClearAndPeekResults : (1 : Byte).toNat < (withQueue queueAB).pq.slots.length ∧
    (withQueue queueAB).pq.slots.length ≤ (2 : Byte).toNat := by decide

theorem witness_DequeuesComeInKeyOrder :
    heapOrdered queueAB.slots ∧ queueAB.slots.Pairwise (fun a b => keyLt a b = true ∨ keyLt b a = true) ∧
    (∀ t ∈ queueAB.slots, t.wf = true) ∧ ((queueAB.slots.flatMap Machine.Tree.leaves).map Prod.fst).Nodup :=
  ⟨witness_heap_queueAB, by decide, by decide, by decide⟩

theorem witness_HtMergeResults :
    idle.pq.slots = [] ∧ (withQueue ⟨[.leaf 97 4], false⟩).pq.slots = [.leaf 97 4] ∧ 2 ≤ (withQueue queueAB).pq.slots.length ∧
    (withQueue queueAB).pq.slots.length ≤ 256 ∧ ∀ t ∈ (withQueue queueAB).pq.slots, t.wf = true := by decide

theorem witness_MergeFollowsItsLoop :
    (Queue.mk [] false).slots.length ≤ 256 ∧ (Queue.mk [.leaf 97 4] false).slots = [.leaf 97 4] ∧ queueAB.slots.length = 2 ∧
    3 ≤ (Queue.mk [.leaf 1 1, .leaf 2 2, .leaf 3 3] false).slots.length := by decide

theorem witness_EnqueueAndDequeueKeepTheHeap : heapOrdered queueAB.slots ∧ queueAB.slots = .leaf 98 1 :: [.leaf 97 4] :=
  ⟨witness_heap_queueAB, rfl⟩

theorem witness_DegenerateMergePutsTheSentinelLeft :
    (withQueue ⟨[.leaf 0 2], false⟩).pq.slots = [.leaf 0 2] ∧ ((0 : Symbol) ≠ 0 ∨ (2 : Count) ≠ 0) ∧
    (withQueue ⟨[.leaf 0 0], false⟩).pq.slots = [.leaf 0 0] := by decide

theorem witness_HtBuildIsScanLeavesMerge : { idle with envInpGrant := false }.envInpGrant = false ∧ idle.envInpGrant = true ∧
    idle.inp.length < 2 ^ 64 := by decide

theorem witness_MergeDoesNotDependOnEnqueueOrder :
    (([(98, 1), (97, 4)] : List (Symbol × Count)).map Prod.fst).Nodup ∧
    ([(98, 1), (97, 4)] : List (Symbol × Count)).Perm [(97, 4), (98, 1)] := ⟨by decide, .swap _ _ _⟩

theorem witness_CodesArePrefixFree : treeAB.path 98 = some [true] ∧ treeAB.path 97 = some [false] ∧ (98 : Symbol) ≠ 97 := by
  decide

theorem witness_MergedCodesFitTheRegister :
    QueueInv (withQueue queueAB).pq ∧ exec .htMerge (withQueue queueAB) = .next (after .htMerge (withQueue queueAB)) ∧
    (after .htMerge (withQueue queueAB)).root = some treeAB ∧ treeAB.path 97 = some [false] :=
  ⟨witness_queueInv, rfl, by decide, by decide⟩

theorem witness_PathLeadsToTheFirstLeaf : treeAB.path 98 = some [true] ∧ (∀ x ∈ treeAB.leaves, x.1 ≠ 99) :=
  ⟨by decide, by simp [treeAB]⟩

theorem witness_HtCodeLoadsThePath : idle.root = none ∧ (withRoot treeAB).root = some treeAB ∧ treeAB.path 99 = none ∧
    treeAB.path 97 = some [false] := by decide

/-- The walks of R125: onto a leaf, onto an Internal node (the empty string), past a leaf. -/
theorem witness_HtFindWalksTheCode :
    idle.root = none ∧ (withRoot treeAB).root = some treeAB ∧ treeAB.walk [false] = some (.leaf 97 4) ∧
    treeAB.walk [] = some (.node 5 97 (.leaf 98 1) (.leaf 97 4)) ∧ treeAB.walk [false, true] = none ∧
    (List.range (Code.mk 2 1).len).map (fun j => (Code.mk 2 1).bits.getLsbD ((Code.mk 2 1).len - 1 - j)) = [false, true] := by
  decide

theorem witness_HtFindUndoesHtCode : RootInv (withRoot treeAB).root ∧ (withRoot treeAB).root = some treeAB ∧
    ∃ x ∈ treeAB.leaves, x.1 = (97 : Symbol) := ⟨witness_rootInv, rfl, (97, 4), by decide, rfl⟩

theorem witness_HtSizeAndFreeResults : idle.root = none ∧ (withRoot treeAB).root = some treeAB ∧ RootInv (withRoot treeAB).root :=
  ⟨rfl, rfl, witness_rootInv⟩

theorem witness_CodeClearAndPushResults :
    CodeInv ⟨255, 1⟩ ∧ CodeInv ⟨256, 1⟩ ∧ 2 ≤ (2 : Byte).toNat ∧ (1 : Byte).toNat ≤ 1 ∧ (Code.mk 255 1).len < 256 ∧
    (Code.mk 256 1).len = 256 := ⟨⟨by decide, by decide⟩, ⟨by decide, by decide⟩, by decide⟩

theorem witness_BsOpenResults : 2 ≤ (2 : Byte).toNat ∧ (1 : Byte).toNat ≤ 1 ∧ headerWrite.bs.mode ≠ .closed ∧
    idle.bs.mode = .closed ∧ idle.envGrant = true ∧ { idle with envGrant := false }.envGrant = false := by decide

theorem witness_BsCloseResults :
    (StreamInv idle ∧ idle.bs.mode = .closed) ∧ (StreamInv (reading 0xFC 7 1) ∧ (reading 0xFC 7 1).bs.mode = .read) ∧
    (StreamInv headerWrite ∧ headerWrite.bs.mode = .write ∧ headerWrite.bs.nbits = 0) ∧
    (StreamInv (writing 5 7 1) ∧ (writing 5 7 1).bs.mode = .write ∧ 1 ≤ (writing 5 7 1).bs.nbits) :=
  ⟨⟨witness_idle_streamInv, rfl⟩, ⟨witness_reading_streamInv, rfl⟩, ⟨witness_headerWrite_streamInv, rfl, rfl⟩,
    ⟨witness_writing_streamInv, rfl, by decide⟩⟩

theorem witness_BsWbitResults :
    2 ≤ (2 : Byte).toNat ∧ (1 : Byte).toNat ≤ 1 ∧ idle.bs.mode ≠ .write ∧
    (StreamInv headerWrite ∧ headerWrite.bs.mode = .write ∧ headerWrite.bs.nbits < 7) ∧
    (StreamInv (writing 5 7 1) ∧ (writing 5 7 1).bs.nbits = 7 ∧ (writing 5 7 1).bs.cur + 1 < (writing 5 7 1).bufBytes) ∧
    (StreamInv (writing 0x7F 7 3) ∧ (writing 0x7F 7 3).bs.nbits = 7 ∧
      (writing 0x7F 7 3).bs.cur + 1 = (writing 0x7F 7 3).bufBytes) :=
  ⟨by decide, by decide, by decide, ⟨witness_headerWrite_streamInv, rfl, by decide⟩,
    ⟨witness_writing_streamInv, rfl, by decide⟩, ⟨witness_writing_full_streamInv, rfl, by decide⟩⟩

theorem witness_BsRbitResults :
    (StreamInv idle ∧ idle.bs.mode ≠ .read) ∧
    (StreamInv (reading 0xFC 7 1) ∧ (reading 0xFC 7 1).bs.mode = .read ∧ 0 < (reading 0xFC 7 1).bs.nbits) ∧
    (StreamInv (reading 0 0 3) ∧ (reading 0 0 3).bs.nbits = 0 ∧ unreadBytes (reading 0 0 3) = []) ∧
    (StreamInv (reading 0 0 2) ∧ (reading 0 0 2).bs.nbits = 0 ∧ unreadBytes (reading 0 0 2) = 0 :: [] ∧
      (reading 0 0 2).bs.cur < (reading 0 0 2).bs.avail) ∧
    (StreamInv (headerRead [0xA0]) ∧ (headerRead [0xA0]).bs.nbits = 0 ∧ unreadBytes (headerRead [0xA0]) = 0xA0 :: [] ∧
      (headerRead [0xA0]).bs.cur = (headerRead [0xA0]).bs.avail) :=
  ⟨⟨witness_idle_streamInv, by decide⟩, ⟨witness_reading_streamInv, rfl, by decide⟩,
    ⟨witness_reading_end_streamInv, rfl, by decide⟩, ⟨witness_reading_boundary_streamInv, rfl, by decide, by decide⟩,
    ⟨witness_headerRead_streamInv, rfl, by decide, by decide⟩⟩

/-- Eight bytes and nothing after them; seven bytes. -/
theorem witness_BsU64Results :
    idle.bs.mode ≠ .write ∧ idle.bs.mode ≠ .read ∧ (writing 5 7 1).bs.bitPhase = true ∧ (writing 5 7 1).bs.mode = .write ∧
    (reading 0xFC 7 1).bs.mode = .read ∧ (reading 0xFC 7 1).bs.bitPhase = true ∧
    headerWrite.bs.mode = .write ∧ headerWrite.bs.bitPhase = false ∧
    (headerRead [0, 0, 0, 0, 0, 0, 1, 0x2C]).bs.mode = .read ∧ (headerRead [0, 0, 0, 0, 0, 0, 1, 0x2C]).bs.bitPhase = false ∧
    (headerRead [0, 0, 0, 0, 0, 0, 1, 0x2C]).file.data.drop (headerRead [0, 0, 0, 0, 0, 0, 1, 0x2C]).file.rpos =
      [0, 0, 0, 0, 0, 0, 1, 0x2C] ++ [] ∧
    ((headerRead [1, 2, 3, 4, 5, 6, 7]).file.data.drop (headerRead [1, 2, 3, 4, 5, 6, 7]).file.rpos).length < 8 := by decide

theorem witness_U64ReadBackIsWhatWasWritten :
    headerWrite.bs.mode = .write ∧ headerWrite.bs.bitPhase = false ∧
    exec (.bsWu64 300) headerWrite = .next (after (.bsWu64 300) headerWrite) ∧
    (headerRead [0, 0, 0, 0, 0, 0, 1, 0x2C]).file.data = (after (.bsWu64 300) headerWrite).file.data ∧
    (headerRead [0, 0, 0, 0, 0, 0, 1, 0x2C]).file.rpos = headerWrite.file.data.length ∧
    (headerRead [0, 0, 0, 0, 0, 0, 1, 0x2C]).bs.mode = .read ∧ (headerRead [0, 0, 0, 0, 0, 0, 1, 0x2C]).bs.bitPhase = false :=
  ⟨rfl, rfl, rfl, by decide, rfl, rfl, rfl⟩

theorem witness_ChecksComeInOrder :
    (Instr.bsWbit 2).wellFormed = false ∧ (Instr.rdsr 12).wellFormed = false ∧
    ((Instr.bsOpen 1).wellFormed = true ∧ modesFor (.bsOpen 1) = some [.closed] ∧ headerWrite.bs.mode ∉ [Mode.closed]) ∧
    (modesFor .tcWtree = some [.write] ∧ (writing 5 7 1).bs.mode ∈ [Mode.write] ∧ isHeader .tcWtree = true ∧
      (writing 5 7 1).bs.bitPhase = true) ∧
    (idle.bs.mode = .closed ∧ { idle with envGrant := false }.envGrant = false) ∧
    { idle with envInpGrant := false }.envInpGrant = false := by decide

theorem witness_DecSpellsTheNumber : 9 < 10 ∧ 10 ≤ 10 ∧ 18446744073709551615 < 2 ^ 64 ∧ 255 < 256 ∧ dec 9 = [0x39] ∧
    dec 10 = [0x31, 0x30] ∧ dec 255 = [0x32, 0x35, 0x35] := by decide

theorem witness_TcWtreeAppendsTheBlock : idle.bs.mode ≠ .write ∧ (writing 5 7 1).bs.mode = .write ∧
    (writing 5 7 1).bs.bitPhase = true ∧ headerWrite.bs.mode = .write ∧ headerWrite.bs.bitPhase = false ∧
    { headerWrite with root := some treeAB }.root = some treeAB ∧ headerWrite.root = none := by decide

/-- `#007 098,#` and `#1 0255,#` of V-TC-3, with leading zeros; the block of two records; the empty block. -/
theorem witness_TcRtreeReadsAWellFormedBlock :
    (headerRead textAB).bs.mode = .read ∧ (headerRead textAB).bs.bitPhase = false ∧
    (∀ r ∈ [RecordText.mk [0x30, 0x30, 0x37] [0x30, 0x39, 0x38], ⟨[0x31], [0x30, 0x32, 0x35, 0x35]⟩], r.good = true) ∧
    (headerRead text007).file.data.drop (headerRead text007).file.rpos =
      openBlock [⟨[0x30, 0x30, 0x37], [0x30, 0x39, 0x38]⟩] ++ [0x23] ++ [] ∧
    (headerRead textAB).file.data.drop (headerRead textAB).file.rpos =
      openBlock [⟨[0x31], [0x39, 0x38]⟩, ⟨[0x34], [0x39, 0x37]⟩] ++ [0x23] ++ [] ∧
    (headerRead [0x23, 0x23]).file.data.drop (headerRead [0x23, 0x23]).file.rpos = openBlock [] ++ [0x23] ++ [] :=
  ⟨by decide, by decide, by simp [RecordText.good, numeralBelow, numVal, isDec], by decide, by decide, by decide⟩

theorem witness_record_good : ∀ r ∈ [RecordText.mk [0x31] [0x39, 0x38]], r.good = true := by
  simp [RecordText.good, numeralBelow, numVal, isDec]

/-- An offending byte at each place, at the boundary values: `-` for a record; `,` after a count, and the twentieth digit of
2^64; a second space; `;` after a symbol, and the third digit of 256. -/
theorem witness_Offends :
    Offends [] 0x2D ∧ Offends [0x31] 0x2C ∧
    Offends [0x31, 0x38, 0x34, 0x34, 0x36, 0x37, 0x34, 0x34, 0x30, 0x37, 0x33, 0x37, 0x30, 0x39, 0x35, 0x35, 0x31, 0x36, 0x31] 0x36 ∧
    Offends [0x31, 0x20] 0x20 ∧ Offends [0x31, 0x20, 0x39, 0x38] 0x3B ∧ Offends [0x31, 0x20, 0x32, 0x35] 0x36 :=
  ⟨.inl ⟨rfl, by decide, by decide⟩, .inr (.inl ⟨by decide, .inl ⟨by decide, by decide⟩⟩),
    .inr (.inl ⟨by decide, .inr ⟨by decide, by decide⟩⟩),
    .inr (.inr (.inl ⟨[0x31], rfl, by decide, by decide⟩)),
    .inr (.inr (.inr ⟨[0x31], [0x39, 0x38], rfl, by decide, by decide, .inl ⟨by decide, by decide⟩⟩)),
    .inr (.inr (.inr ⟨[0x31], [0x32, 0x35], rfl, by decide, by decide, .inr ⟨by decide, by decide⟩⟩))⟩

theorem witness_Unfinished :
    Unfinished [] ∧ Unfinished [0x31] ∧ Unfinished [0x31, 0x20] ∧ Unfinished [0x31, 0x20, 0x39] :=
  ⟨.inl rfl, .inr (.inl (by decide)), .inr (.inr ⟨[0x31], [], rfl, by decide, .inl rfl⟩),
    .inr (.inr ⟨[0x31], [0x39], rfl, by decide, .inr (by decide)⟩)⟩

/-- No byte; a byte that is no `#`; a record with `;` for `,`; a block that ends after `9`, and one cut before its `#`. -/
theorem witness_TcRtreeRejectsMalformedBlocks :
    (headerRead [0x78]).bs.mode = .read ∧ (headerRead [0x78]).bs.bitPhase = false ∧
    (headerRead []).file.data.drop (headerRead []).file.rpos = [] ∧
    (headerRead [0x78]).file.data.drop (headerRead [0x78]).file.rpos = 0x78 :: [] ∧ (0x78 : Byte) ≠ 0x23 ∧
    (headerRead [0x23, 0x31, 0x20, 0x39, 0x38, 0x3B]).file.data.drop (headerRead []).file.rpos =
      openBlock [] ++ [0x31, 0x20, 0x39, 0x38] ++ [0x3B] ++ [] ∧
    (headerRead [0x23, 0x31, 0x20, 0x39, 0x38, 0x2C, 0x31, 0x20, 0x39]).file.data.drop (headerRead []).file.rpos =
      openBlock [⟨[0x31], [0x39, 0x38]⟩] ++ [0x31, 0x20, 0x39] ∧
    (headerRead textAB.dropLast).file.data.drop (headerRead textAB.dropLast).file.rpos ++ [0x23] =
      openBlock [⟨[0x31], [0x39, 0x38]⟩, ⟨[0x34], [0x39, 0x37]⟩] ++ [0x23] ∧
    reply .tcRtree (headerRead [0x23, 0x31, 0x20, 0x39, 0x38, 0x3B]) = some (.eFormat, 0) := by decide

theorem witness_SerializeThenDeserializeIsIdentity :
    (([(98, 1), (97, 4)] : List (Symbol × Count)).map Prod.fst).Nodup ∧
    (queueOfLeaves [(98, 1), (97, 4)]).merge.1 = some treeAB ∧ (headerRead textAB).bs.mode = .read ∧
    (headerRead textAB).bs.bitPhase = false ∧
    (headerRead textAB).file.data.drop (headerRead textAB).file.rpos = ser (some treeAB) ++ [] := by decide

/-- One command for each clause of R166. -/
theorem witness_FailuresLeaveTheStatedState :
    reply (.codePush 2) idle = some (.eArg, 0) ∧ reply .htFind idle = some (.null, 0) ∧ reply .htMerge idle = some (.null, 0) ∧
    idle.pq.slots.length ≤ 256 ∧ reply .bsRu64 (headerRead [1, 2, 3]) = some (.eod, 0) := by decide

theorem witness_FailuresLeaveTheStatedState_htBuild : reply .htBuild { idle with inp := [] } = some (.null, 0) := by
  have h : (leavesQueue (freqScan [])).merge = (none, Queue.fresh) := by
    rw [show freqScan [] = freqZero from rfl, leavesQueue_freqZero]; exact merge_of_nil rfl
  simp [reply, exec, execHtBuild, idle, State.reset, h, refuse, respond]

theorem witness_OnlyTheNamedCommandsWrite :
    exec .nop idle = .next (after .nop idle) ∧ writesFreq .nop = false ∧ writesQueue .nop = false ∧ writesRoot .nop = false ∧
    writesCode .nop = false ∧ writesStream .nop = false ∧ writesFileData .bsRbit = false := ⟨rfl, by decide⟩

/-- Q_OVF set and PQ_DEQ, which keeps it; the mode changed; the first bit command of a stream. -/
theorem witness_ModePhaseAndOverflowRules :
    ((withQueue ⟨[.leaf 1 1], true⟩).pq.ovf = true ∧ clearsOvf .pqDeq = false) ∧
    (after (.bsOpen 1) idle).bs.mode ≠ idle.bs.mode ∧
    (headerWrite.bs.bitPhase = false ∧ (after (.bsWbit 1) headerWrite).bs.bitPhase = true ∧ (1 : Byte).toNat ≤ 1 ∧
      headerWrite.bs.mode = .write) ∧
    (headerRead [0xA0]).bs.mode = .read := by decide

/-- The bits 1, 0, 1 of E7, then the close. -/
theorem witness_WrittenBitsArePacked :
    StreamInv { headerWrite with pending :=
      [present (.bsWbit 1), present (.bsWbit 0), present (.bsWbit 1), present .bsClose] } ∧ headerWrite.bs.mode = .write ∧
    headerWrite.bs.bitPhase = false ∧
    [present (.bsWbit 1), present (.bsWbit 0), present (.bsWbit 1), present .bsClose] =
      [true, false, true].map (fun b => present (.bsWbit (bitByte b))) ++ [present .bsClose] ∧
    pack [true, false, true] = [0xA0] :=
  ⟨⟨by decide, by decide, fun h => absurd h (by decide),
    fun _ => ⟨by decide, by decide, by decide, by decide, by decide, by decide⟩, fun h => absurd h (by decide)⟩,
    rfl, rfl, by decide, by decide⟩

/-- The byte A0 and one more read than it has bits (V-BS-5). -/
theorem witness_EveryBitIsReadThenEod :
    StreamInv { headerRead [0xA0] with pending := List.replicate (8 * 1 + 1) (present .bsRbit) } ∧
    (headerRead [0xA0]).bs.mode = .read ∧ (headerRead [0xA0]).bs.nbits = 0 ∧ unreadBytes (headerRead [0xA0]) = [0xA0] ∧
    unpack [0xA0] = [true, false, true, false, false, false, false, false] :=
  ⟨⟨by decide, by decide, fun h => absurd h (by decide), fun h => absurd h (by decide),
    fun _ => ⟨by decide, by decide, by decide, by decide, by decide, by decide, by decide, by decide, by decide⟩⟩,
    rfl, rfl, by decide, by decide⟩

theorem witness_WriteThenReadRoundTrip :
    StreamInv { idle with pending := present (.bsOpen 1) :: [true].map (fun b => present (.bsWbit (bitByte b))) ++
      [present .bsClose, present (.bsOpen 0)] ++ List.replicate (8 * (([true].length + 7) / 8) + 1) (present .bsRbit) } ∧
    idle.bs.mode = .closed :=
  ⟨⟨by decide, by decide, fun _ => ⟨rfl, rfl, rfl, rfl, rfl⟩, fun h => absurd h (by decide), fun h => absurd h (by decide)⟩,
    rfl⟩

/-- The same stream with BUF = 4, its byte B2 still buffered, and with BUF = 1, the byte already in FILE (V-BS-1, V-BS-2). -/
def shortBuffer : State :=
  { writing 1 1 1 with bufBytes := 1, file := ⟨[0xB2], 0⟩, bs := ⟨.write, 1, 1, [0xB2], 0, 0, 1, true⟩ }

theorem witness_BufferingIsTransparent :
    StreamInv (writing 1 1 1) ∧ StreamInv shortBuffer ∧ SameButBuffering (writing 1 1 1) shortBuffer ∧
    Instr.bsClose ≠ .rdsr 3 ∧ Instr.bsClose ≠ .rdsr 11 ∧ Instr.bsClose ≠ .sreset ∧ (headerRead []).bs.mode ≠ .write :=
  ⟨⟨by decide, by decide, fun h => absurd h (by decide),
      fun _ => ⟨by decide, by decide, by decide, by decide, by decide, by decide⟩, fun h => absurd h (by decide)⟩,
    ⟨by decide, by decide, fun h => absurd h (by decide),
      fun _ => ⟨by decide, by decide, by decide, by decide, by decide, by decide⟩, fun h => absurd h (by decide)⟩,
    ⟨rfl, rfl, rfl, rfl, rfl, rfl, rfl, rfl, rfl, rfl, rfl, rfl, rfl, rfl, .inl (by decide), .inr rfl, .inr (by decide)⟩,
    by decide, by decide, by decide, by decide⟩

/-- A step that answers next, in a state that meets each invariant. -/
theorem witness_StepKeepsTheStreamInvariant :
    StreamInv { headerWrite with pending := [present (.bsWbit 1)] } ∧
    step { headerWrite with pending := [present (.bsWbit 1)] } = .next (after (.bsWbit 1) headerWrite) :=
  ⟨⟨by decide, by decide, fun h => absurd h (by decide),
    fun _ => ⟨by decide, by decide, by decide, by decide, by decide, by decide⟩, fun h => absurd h (by decide)⟩, rfl⟩

theorem witness_StepKeepsTheTreeInvariant : TreeInv { withQueue queueAB with pending := [present .htMerge] } ∧
    step { withQueue queueAB with pending := [present .htMerge] } = .next (after .htMerge (withQueue queueAB)) :=
  ⟨⟨witness_queueInv, fun _ h => (nomatch h), by decide, by decide⟩, rfl⟩

theorem witness_StepKeepsTheResponsesAndTheParameter : ResponsesInv { idle with responses := [⟨.eod, 0⟩, ⟨.ok, 5⟩] } ∧
    step { idle with pending := [present .nop] } = .next (after .nop idle) := ⟨witness_responsesInv, rfl⟩

end Sys2Proof.Tests
end

section
/-! What a step does with the event presented next (00_scope.md R5; 70_reset_and_hazards.md R172), said once. -/

namespace Sys2Proof.Machine

theorem perform_of_decode_ok {cw : CmdWord} {arg : Wide} {i : Instr} (s : State) (hdec : decode cw arg = .ok i) :
    perform cw arg s = exec i s := by
  simp only [perform, hdec]

theorem step_of_pending_nil {s : State} (hpend : s.pending = []) : step s = .next s := by
  simp only [step, takeNext, hpend]

theorem step_of_pending_cons {s : State} {e : Event} {rest : List Event} (hpend : s.pending = e :: rest) :
    step s = takeEvent e { s with pending := rest } := by
  simp only [step, takeNext, hpend]

theorem step_of_pending_command {s : State} {cw : CmdWord} {arg : Wide} {g gi : Bool} {rest : List Event}
    (hpend : s.pending = .command cw arg g gi :: rest) :
    step s = perform cw arg { s with pending := rest, envGrant := g, envInpGrant := gi } :=
  step_of_pending_cons hpend

theorem decodeTableWord_eq_some_iff (nbits w : Nat) (i : Instr) :
    decodeTableWord nbits w = some i ↔ decode (cwOfTable nbits w) (argOfTable nbits w) = .ok i := by
  unfold decodeTableWord
  cases decode (cwOfTable nbits w) (argOfTable nbits w) <;> simp

@[simp] theorem withFetchWord_pending (s : State) (nbits w : Nat) :
    (s.withFetchWord nbits w).pending =
      .command (cwOfTable nbits w) (argOfTable nbits w) s.envGrant s.envInpGrant :: s.pending := rfl

/-- The word is presented with the grants that already stand in `s` and in front of the events of `s`, so taking it off the
list gives `s` back: the command runs in `s` itself. -/
theorem step_withFetchWord (s : State) (nbits w : Nat) :
    step (s.withFetchWord nbits w) = perform (cwOfTable nbits w) (argOfTable nbits w) s :=
  step_of_pending_command (withFetchWord_pending s nbits w)

/-- Settles O6: each clause is what a step does with the list of events of its shape, then the decoder's answer. -/
theorem stepPerformsThePresentedCommand : Obligations.StepPerformsThePresentedCommand := by
  refine ⟨fun s cw arg g gi rest i hpend hdec => ?_, fun s hpend => step_of_pending_nil hpend, fun s nbits w i hword => ?_⟩
  · rw [step_of_pending_command hpend, perform_of_decode_ok _ hdec]
  · rw [step_withFetchWord, perform_of_decode_ok s ((decodeTableWord_eq_some_iff nbits w i).mp hword)]

end Sys2Proof.Machine
end

section
/-! What a command can do to the state before its response is given: one constructor for each way of changing it, with the
checks that have been passed by then. A proof about every command is a case split on it; no proof below unfolds `exec`. -/

namespace Sys2Proof.Machine

/-- The state with BS_BITPHASE = 1, as an accepted bit command leaves it (R78, R79). -/
def enterBitPhase (s : State) : State := { s with bs := { s.bs with bitPhase := true } }

/-- The state with a fetched byte in BS_ACC (R79). -/
def loadByte (v : Byte) (s : State) : State := { s with bs := { s.bs with acc := v, nbits := 8 } }

/-- The bytes of a header append: straight to FILE and counted (R80, R143). -/
def appendHeader (d : List Byte) (s : State) : State := addTotal d.length (fileAppend d s)

/-- The bytes of a header read: taken from FILE and counted (R81, R145). -/
def consumeHeader (n : Nat) (s : State) : State := addTotal n (fileAdvance n s)

/-- The parse TC_RTREE makes (R145). -/
def parsedBlock (s : State) : Parsed := parse .opening 0 Queue.fresh (fileRest s)

/-- The changes of state a command makes, but for its response. `unchanged` is every refusal that writes nothing and every
command that only answers; BS_WBIT and BS_RBIT state when they are refused. -/
inductive Effect (s : State) : Instr → State → Prop
  | unchanged {i} (hw : ∀ b, i ≠ .bsWbit b) (hr : i ≠ .bsRbit) : Effect s i s
  | freqClr : Effect s .freqClr { s with freq := freqZero }
  | freqAdd (sym : Symbol) : Effect s (.freqAdd sym) { s with freq := freqBump s.freq sym }
  | freqScan (hgrant : s.envInpGrant = true) : Effect s .freqScan { s with freq := Machine.freqScan s.inp }
  | htLeaves : Effect s .htLeaves { s with pq := leavesQueue s.freq }
  | htMerge {r : Option Tree} {q : Queue} (hmerge : s.pq.merge = (r, q)) :
      Effect s .htMerge { s with root := r, pq := q }
  | htBuild {r : Option Tree} {q : Queue} (hgrant : s.envInpGrant = true)
      (hmerge : (leavesQueue (Machine.freqScan s.inp)).merge = (r, q)) :
      Effect s .htBuild { s with freq := Machine.freqScan s.inp, root := r, pq := q }
  | htCode {sym : Symbol} {t : Tree} {p : List Bool} (hroot : s.root = some t) (hpath : t.path sym = some p) :
      Effect s (.htCode sym) { s with code := Code.ofBits p }
  | htFree : Effect s .htFree { s with root := none }
  | pqClr : Effect s .pqClr { s with pq := Queue.fresh }
  | pqEnq (sym : Symbol) (count : Count) : Effect s (.pqEnq sym count) { s with pq := s.pq.enqueue (.leaf sym count) }
  | pqDeq {r : Option Tree} {q : Queue} (hdeq : s.pq.dequeue = (r, q)) : Effect s .pqDeq { s with root := r, pq := q }
  | codeClr : Effect s .codeClr { s with code := Code.empty }
  | codePush {b : Byte} {bit : Bool} (hbit : bitOperand b = some bit) (hlen : s.code.len ≠ Config.codeMax) :
      Effect s (.codePush b) { s with code := s.code.push bit }
  | bsOpen {m : Byte} {mode : Mode} (hm : modeOperand m = some mode) (hclosed : s.bs.mode = .closed)
      (hgrant : s.envGrant = true) :
      Effect s (.bsOpen m) { s with bs := openedStream mode s.bs, file := openedFile mode s.file }
  | bsCloseRead (hmode : s.bs.mode = .read) : Effect s .bsClose { s with bs := closedStream s.bs }
  | bsCloseWrite (hmode : s.bs.mode = .write) :
      Effect s .bsClose { finishWrite s with bs := closedStream (finishWrite s).bs }
  | bsWbitRefused {b : Byte} (h : bitOperand b = none ∨ s.bs.mode ≠ .write) : Effect s (.bsWbit b) s
  | bsWbit {b : Byte} {bit : Bool} (hbit : bitOperand b = some bit) (hmode : s.bs.mode = .write) :
      Effect s (.bsWbit b) (writeBit bit s)
  | bsRbitRefused (h : s.bs.mode ≠ .read) : Effect s .bsRbit s
  | bsRbitShift (hmode : s.bs.mode = .read) (hnbits : s.bs.nbits ≠ 0) : Effect s .bsRbit (takeBit (enterBitPhase s))
  | bsRbitEnd {u : State} (hmode : s.bs.mode = .read) (hnbits : s.bs.nbits = 0)
      (hfetch : fetchByte (enterBitPhase s) = (none, u)) : Effect s .bsRbit u
  | bsRbitFetch {v : Byte} {u : State} (hmode : s.bs.mode = .read) (hnbits : s.bs.nbits = 0)
      (hfetch : fetchByte (enterBitPhase s) = (some v, u)) : Effect s .bsRbit (takeBit (loadByte v u))
  | bsWu64 (v : Wide) (hcheck : headerCheck .write s = none) : Effect s (.bsWu64 v) (appendHeader (bytesOfU64 v) s)
  | bsRu64 (hcheck : headerCheck .read s = none) :
      Effect s .bsRu64 (consumeHeader ((fileRest s).take 8).length s)
  | tcWtree (hcheck : headerCheck .write s = none) : Effect s .tcWtree (appendHeader (ser s.root) s)
  | tcRtreeGood {r : Option Tree} {q : Queue} (hcheck : headerCheck .read s = none) (hgood : (parsedBlock s).good = true)
      (hmerge : (parsedBlock s).pq.merge = (r, q)) :
      Effect s .tcRtree { consumeHeader (parsedBlock s).taken s with root := r, pq := q }
  | tcRtreeBad (hcheck : headerCheck .read s = none) (hbad : (parsedBlock s).good = false) :
      Effect s .tcRtree
        { consumeHeader (parsedBlock s).taken s with root := none, pq := { (parsedBlock s).pq with slots := [] } }
  | sreset : Effect s .sreset (clearBlock s)

/-- A command answers next: it changes the state by one of its effects and gives one response. -/
def Completes (i : Instr) (s : State) (o : Host.Outcome State Fault Refusal) : Prop :=
  ∃ u st v, Effect s i u ∧ o = .next (respond st v u)

theorem Completes.answer {i : Instr} {s u : State} {v : Wide} (h : Effect s i u) : Completes i s (answer v u) :=
  ⟨u, .ok, v, h, rfl⟩

theorem Completes.refuse {i : Instr} {s u : State} {st : Status} (h : Effect s i u) : Completes i s (refuse st u) :=
  ⟨u, st, 0, h, rfl⟩

/-- A refusal that writes nothing. -/
theorem Completes.refused {i : Instr} {s : State} {st : Status} (hw : ∀ b, i ≠ .bsWbit b) (hr : i ≠ .bsRbit) :
    Completes i s (Machine.refuse st s) :=
  .refuse (.unchanged hw hr)

/-- A command that only answers. -/
theorem Completes.answered {i : Instr} {s : State} {v : Wide} (hw : ∀ b, i ≠ .bsWbit b) (hr : i ≠ .bsRbit) :
    Completes i s (Machine.answer v s) :=
  .answer (.unchanged hw hr)

/-! ### The commands with more than one outcome -/

theorem execFreqScan_completes (s : State) : Completes .freqScan s (execFreqScan s) := by
  unfold execFreqScan
  split
  · exact .answer (.freqScan ‹_›)
  · exact .refused nofun nofun

theorem execHtMerge_completes (s : State) : Completes .htMerge s (execHtMerge s) := by
  unfold execHtMerge
  split
  · exact .refuse (.htMerge ‹_›)
  · exact .answer (.htMerge ‹_›)

theorem execHtBuild_completes (s : State) : Completes .htBuild s (execHtBuild s) := by
  unfold execHtBuild
  split
  · dsimp only
    split
    · exact .refuse (.htBuild ‹_› ‹_›)
    · exact .answer (.htBuild ‹_› ‹_›)
  · exact .refused nofun nofun

theorem execHtCode_completes (sym : Symbol) (s : State) : Completes (.htCode sym) s (execHtCode sym s) := by
  unfold execHtCode
  split
  · exact .refused nofun nofun
  · split
    · exact .refused nofun nofun
    · exact .answer (.htCode ‹_› ‹_›)

theorem execHtFind_completes (s : State) : Completes .htFind s (execHtFind s) := by
  unfold execHtFind
  split
  · exact .refused nofun nofun
  · split
    · exact .answered nofun nofun
    · exact .refused nofun nofun
    · exact .refused nofun nofun

theorem execPqDeq_completes (s : State) : Completes .pqDeq s (execPqDeq s) := by
  unfold execPqDeq
  split
  · exact .refuse (.pqDeq ‹_›)
  · exact .answer (.pqDeq ‹_›)

theorem execPqPeekc_completes (idx : Byte) (s : State) : Completes (.pqPeekc idx) s (execPqPeekc idx s) := by
  unfold execPqPeekc
  split
  · exact .refused nofun nofun
  · exact .answered nofun nofun

theorem execPqPeekk_completes (idx : Byte) (s : State) : Completes (.pqPeekk idx) s (execPqPeekk idx s) := by
  unfold execPqPeekk
  split
  · exact .refused nofun nofun
  · exact .answered nofun nofun

theorem execCodePush_completes (b : Byte) (s : State) : Completes (.codePush b) s (execCodePush b s) := by
  unfold execCodePush
  split
  · exact .refused nofun nofun
  · split
    · exact .refused nofun nofun
    · exact .answer (.codePush ‹_› ‹_›)

theorem execBsOpen_completes (m : Byte) (s : State) : Completes (.bsOpen m) s (execBsOpen m s) := by
  unfold execBsOpen
  split
  · exact .refused nofun nofun
  · split
    · exact .refused nofun nofun
    · split
      · exact .answer (.bsOpen ‹_› (not_not.mp ‹_›) ‹_›)
      · exact .refused nofun nofun

theorem execBsClose_completes (s : State) : Completes .bsClose s (execBsClose s) := by
  unfold execBsClose
  split
  · exact .refused nofun nofun
  · exact .answer (.bsCloseWrite ‹_›)
  · exact .answer (.bsCloseRead ‹_›)

theorem execBsWbit_completes (b : Byte) (s : State) : Completes (.bsWbit b) s (execBsWbit b s) := by
  unfold execBsWbit
  split
  · exact .refuse (.bsWbitRefused (.inl ‹_›))
  · split
    · exact .refuse (.bsWbitRefused (.inr ‹_›))
    · exact .answer (.bsWbit ‹_› (not_not.mp ‹_›))

theorem execBsRbit_completes (s : State) : Completes .bsRbit s (execBsRbit s) := by
  unfold execBsRbit
  split
  · exact .refuse (.bsRbitRefused ‹_›)
  · rename_i hmode
    have hread := not_not.mp hmode
    dsimp only
    split
    · split
      · exact .refuse (.bsRbitEnd hread ‹_› ‹_›)
      · exact .answer (.bsRbitFetch hread ‹_› ‹_›)
    · exact .answer (.bsRbitShift hread ‹_›)

theorem execBsWu64_completes (v : Wide) (s : State) : Completes (.bsWu64 v) s (execBsWu64 v s) := by
  unfold execBsWu64
  split
  · exact .refused nofun nofun
  · exact .answer (.bsWu64 v ‹_›)

theorem execBsRu64_completes (s : State) : Completes .bsRu64 s (execBsRu64 s) := by
  unfold execBsRu64
  split
  · exact .refused nofun nofun
  · dsimp only
    split
    · exact .refuse (.bsRu64 ‹_›)
    · exact .answer (.bsRu64 ‹_›)

theorem execTcWtree_completes (s : State) : Completes .tcWtree s (execTcWtree s) := by
  unfold execTcWtree
  split
  · exact .refused nofun nofun
  · exact .answer (.tcWtree ‹_›)

theorem execTcRtree_completes (s : State) : Completes .tcRtree s (execTcRtree s) := by
  unfold execTcRtree
  split
  · exact .refused nofun nofun
  · rename_i hcheck
    dsimp only
    split
    · split
      · exact .refuse (.tcRtreeGood hcheck ‹_› ‹_›)
      · exact .answer (.tcRtreeGood hcheck ‹_› ‹_›)
    · exact .refuse (.tcRtreeBad hcheck (Bool.not_eq_true _ ▸ ‹_›))

theorem execRdsr_completes (idx : Byte) (s : State) : Completes (.rdsr idx) s (execRdsr idx s) := by
  unfold execRdsr
  split
  · exact .answered nofun nofun
  · exact .refused nofun nofun

/-- Every command, in every state, completes with one of its effects (R173(c)). -/
theorem exec_completes (i : Instr) (s : State) : Completes i s (exec i s) := by
  cases i with
  | nop => exact .answered nofun nofun
  | freqClr => exact .answer .freqClr
  | freqAdd sym => exact .answer (.freqAdd sym)
  | freqScan => exact execFreqScan_completes s
  | freqRd sym => exact .answered nofun nofun
  | htLeaves => exact .answer .htLeaves
  | htMerge => exact execHtMerge_completes s
  | htBuild => exact execHtBuild_completes s
  | htCode sym => exact execHtCode_completes sym s
  | htFind => exact execHtFind_completes s
  | htSize => exact .answered nofun nofun
  | htFree => exact .answer .htFree
  | pqClr => exact .answer .pqClr
  | pqEnq sym count => exact .answer (.pqEnq sym count)
  | pqDeq => exact execPqDeq_completes s
  | pqPeekc idx => exact execPqPeekc_completes idx s
  | pqPeekk idx => exact execPqPeekk_completes idx s
  | codeClr => exact .answer .codeClr
  | codePush b => exact execCodePush_completes b s
  | bsOpen m => exact execBsOpen_completes m s
  | bsClose => exact execBsClose_completes s
  | bsWbit b => exact execBsWbit_completes b s
  | bsRbit => exact execBsRbit_completes s
  | bsWu64 v => exact execBsWu64_completes v s
  | bsRu64 => exact execBsRu64_completes s
  | bsNbytes => exact .answered nofun nofun
  | tcWtree => exact execTcWtree_completes s
  | tcRtree => exact execTcRtree_completes s
  | rdsr idx => exact execRdsr_completes idx s
  | sreset => exact .answer .sreset

/-- What is known of the state after a command: an effect of the command, and the response on top of it. -/
theorem exists_effect_of_exec {i : Instr} {s t : State} (h : exec i s = .next t) :
    ∃ u st v, Effect s i u ∧ t = respond st v u := by
  obtain ⟨u, st, v, heff, ho⟩ := exec_completes i s
  rw [h] at ho
  exact ⟨u, st, v, heff, Host.Outcome.next.inj ho⟩

end Sys2Proof.Machine
end

section
/-! The operations that more than one field passes through, each as one update of the state it starts from: the equation
says what it changes and leaves everything else alone. -/

namespace Sys2Proof.Machine

/-- An operation that leaves FILE alone appends nothing to it. -/
theorem appendNothing (s : State) (b : Stream) :
    { s with bs := b } = { s with bs := b, file := { s.file with data := s.file.data ++ [] } } := by
  rw [List.append_nil]

/-- `emit_byte` writes the BS unit and appends to FILE (R50). -/
theorem emitByte_eq (v : Byte) (s : State) : ∃ b d, emitByte v s =
    { s with bs := b, file := { s.file with data := s.file.data ++ d } } ∧ b.mode = s.bs.mode ∧
      b.bitPhase = s.bs.bitPhase := by
  unfold emitByte
  dsimp only
  split
  · exact ⟨_, _, rfl, rfl, rfl⟩
  · exact ⟨_, [], appendNothing s _, rfl, rfl⟩

/-- An accepted bit writes the BS unit and appends to FILE; the mode stays and the bit phase has begun (R78). -/
theorem writeBit_eq (bit : Bool) (s : State) : ∃ b d, writeBit bit s =
    { s with bs := b, file := { s.file with data := s.file.data ++ d } } ∧ b.mode = s.bs.mode ∧ b.bitPhase = true := by
  unfold writeBit
  dsimp only
  split
  · obtain ⟨b, d, he, hmode, hphase⟩ := emitByte_eq (pushBit s.bs.acc bit)
      { s with bs := { s.bs with bitPhase := true, acc := pushBit s.bs.acc bit, nbits := s.bs.nbits + 1 } }
    rw [he]
    exact ⟨_, d, rfl, hmode, hphase⟩
  · exact ⟨_, [], appendNothing s _, rfl, rfl⟩

/-- What a write close brings to FILE is appended to it (R77). -/
theorem finishWrite_eq (s : State) : ∃ b d, finishWrite s =
    { s with bs := b, file := { s.file with data := s.file.data ++ d } } ∧ b.buf = s.bs.buf := by
  unfold finishWrite
  dsimp only
  split
  · exact ⟨{ s.bs with cur := 0, total := s.bs.total + 1 }, s.bs.buf.take s.bs.cur ++ [padByte s.bs],
      by simp [fileAppend, addTotal, padByte], rfl⟩
  · exact ⟨_, _, rfl, rfl⟩

/-- `fetch_byte` writes the BS unit and moves the read position (R51). -/
theorem fetchByte_eq (s : State) : ∃ b n, (fetchByte s).2 =
    { s with bs := b, file := { s.file with rpos := s.file.rpos + n } } ∧ b.mode = s.bs.mode ∧
      b.bitPhase = s.bs.bitPhase := by
  unfold fetchByte
  dsimp only
  split
  · split
    · exact ⟨_, _, rfl, rfl, rfl⟩
    · exact ⟨_, _, rfl, rfl, rfl⟩
  · exact ⟨_, 0, rfl, rfl, rfl⟩

/-- The same of a fetch whose outcome is known. -/
theorem eq_of_fetchByte {s u : State} {o : Option Byte} (h : fetchByte s = (o, u)) : ∃ b n, u =
    { s with bs := b, file := { s.file with rpos := s.file.rpos + n } } ∧ b.mode = s.bs.mode ∧
      b.bitPhase = s.bs.bitPhase := by
  have heq := fetchByte_eq s
  rwa [h] at heq

end Sys2Proof.Machine
end

section
/-! What a command leaves unchanged (10_state.md R11, R14, R16, R17, R22, R29; 20_memory.md R49), and how Q_OVF, BS_MODE and
BS_BITPHASE change (R15, R18, R23). -/

namespace Sys2Proof.Machine

open Sys2Proof.Claims

/-- What the command `i` may not change on the way from `s` to `t`. -/
structure Frame (i : Instr) (s t : State) : Prop where
  freq : writesFreq i = false → t.freq = s.freq
  queue : writesQueue i = false → t.pq = s.pq
  root : writesRoot i = false → t.root = s.root
  code : writesCode i = false → t.code = s.code
  stream : writesStream i = false → t.bs = s.bs ∧ t.file = s.file
  data : writesFileData i = false → t.file.data = s.file.data
  bufBytes : t.bufBytes = s.bufBytes
  inp : t.inp = s.inp
  envGrant : t.envGrant = s.envGrant
  envInpGrant : t.envInpGrant = s.envInpGrant
  pending : t.pending = s.pending
  draws : t.draws = s.draws

section

variable {i : Instr} {s t u : State}

theorem Frame.refl : Frame i s s := by
  constructor <;> simp

theorem Frame.trans (h₁ : Frame i s t) (h₂ : Frame i t u) : Frame i s u where
  freq hi := (h₂.freq hi).trans (h₁.freq hi)
  queue hi := (h₂.queue hi).trans (h₁.queue hi)
  root hi := (h₂.root hi).trans (h₁.root hi)
  code hi := (h₂.code hi).trans (h₁.code hi)
  stream hi := ⟨(h₂.stream hi).1.trans (h₁.stream hi).1, (h₂.stream hi).2.trans (h₁.stream hi).2⟩
  data hi := (h₂.data hi).trans (h₁.data hi)
  bufBytes := h₂.bufBytes.trans h₁.bufBytes
  inp := h₂.inp.trans h₁.inp
  envGrant := h₂.envGrant.trans h₁.envGrant
  envInpGrant := h₂.envInpGrant.trans h₁.envInpGrant
  pending := h₂.pending.trans h₁.pending
  draws := h₂.draws.trans h₁.draws

theorem Frame.set_freq {f : Vector Count 256} (hi : writesFreq i = true) : Frame i s { s with freq := f } := by
  constructor <;> simp [hi]

theorem Frame.set_queue {q : Queue} (hi : writesQueue i = true) : Frame i s { s with pq := q } := by
  constructor <;> simp [hi]

theorem Frame.set_root {r : Option Tree} (hi : writesRoot i = true) : Frame i s { s with root := r } := by
  constructor <;> simp [hi]

theorem Frame.set_code {c : Code} (hi : writesCode i = true) : Frame i s { s with code := c } := by
  constructor <;> simp [hi]

/-- A reader of FILE moves its position and not its bytes. -/
theorem Frame.set_rpos {b : Stream} {n : Nat} (hi : writesStream i = true) :
    Frame i s { s with bs := b, file := { s.file with rpos := n } } := by
  constructor <;> simp [hi]

/-- Only a writer of FILE.data may change the bytes. -/
theorem Frame.set_file {b : Stream} {f : ByteFile} (hi : writesStream i = true) (hd : writesFileData i = true) :
    Frame i s { s with bs := b, file := f } := by
  constructor <;> simp [hi, hd]

/-- Every effect of a command writes only what R11, R14, D38, R17, R18 to R23 and R49 let the command write. -/
theorem Effect.frame (h : Effect s i u) : Frame i s u := by
  cases h with
  | unchanged => exact .refl
  | freqClr => exact .set_freq rfl
  | freqAdd => exact .set_freq rfl
  | freqScan => exact .set_freq rfl
  | htLeaves => exact .set_queue rfl
  | @htMerge r => exact .trans (.set_root (r := r) rfl) (.set_queue rfl)
  | htBuild => exact .trans (.set_freq rfl) (.trans (.set_root rfl) (.set_queue rfl))
  | htCode => exact .set_code rfl
  | htFree => exact .set_root rfl
  | pqClr => exact .set_queue rfl
  | pqEnq => exact .set_queue rfl
  | @pqDeq r => exact .trans (.set_root (r := r) rfl) (.set_queue rfl)
  | codeClr => exact .set_code rfl
  | codePush => exact .set_code rfl
  | bsOpen => exact .set_file rfl rfl
  | bsCloseRead => exact .set_file rfl rfl
  | bsCloseWrite =>
    obtain ⟨b, d, he, -⟩ := finishWrite_eq s
    rw [he]
    exact .set_file rfl rfl
  | bsWbitRefused => exact .refl
  | @bsWbit _ bit =>
    obtain ⟨b, d, he, -⟩ := writeBit_eq bit s
    rw [he]
    exact .set_file rfl rfl
  | bsRbitRefused => exact .refl
  | bsRbitShift => exact .set_rpos rfl
  | bsRbitEnd _ _ hfetch =>
    obtain ⟨b, n, rfl, -⟩ := eq_of_fetchByte hfetch
    exact .set_rpos rfl
  | bsRbitFetch _ _ hfetch =>
    obtain ⟨b, n, rfl, -⟩ := eq_of_fetchByte hfetch
    exact .set_rpos rfl
  | bsWu64 => exact .set_file rfl rfl
  | bsRu64 => exact .set_rpos rfl
  | tcWtree => exact .set_file rfl rfl
  | tcRtreeGood => exact .trans (.set_root rfl) (.trans (.set_queue rfl) (.set_rpos rfl))
  | tcRtreeBad => exact .trans (.set_root rfl) (.trans (.set_queue rfl) (.set_rpos rfl))
  | sreset =>
    exact .trans (.set_root (r := none) rfl)
      (.trans (.set_queue (q := .fresh) rfl) (.trans (.set_code (c := .empty) rfl) (.set_rpos rfl)))

end

theorem Frame.respond {i : Instr} {s u : State} (h : Frame i s u) (st : Status) (v : Wide) :
    Frame i s (Machine.respond st v u) :=
  ⟨h.freq, h.queue, h.root, h.code, h.stream, h.data, h.bufBytes, h.inp, h.envGrant, h.envInpGrant, h.pending, h.draws⟩

theorem frame_of_exec {i : Instr} {s t : State} (h : exec i s = .next t) : Frame i s t := by
  obtain ⟨u, st, v, heff, rfl⟩ := exists_effect_of_exec h
  exact heff.frame.respond st v

/-- Settles O49: each effect of a command writes only what its command may write. -/
theorem onlyTheNamedCommandsWrite : Obligations.OnlyTheNamedCommandsWrite := by
  intro i s t h
  have hf := frame_of_exec h
  exact ⟨hf.freq, hf.queue, hf.root, hf.code, hf.stream, hf.data, hf.bufBytes, hf.inp, hf.envGrant, hf.envInpGrant,
    hf.pending, hf.draws⟩

end Sys2Proof.Machine
end

section
/-! How Q_OVF, BS_MODE and BS_BITPHASE change, and FILE.data in write mode (10_state.md R15, R18, R23; 20_memory.md R41). -/

namespace Sys2Proof.Machine

open Sys2Proof.Claims

/-! ### Q_OVF through the queue's operations (R15) -/

@[simp] theorem dequeue_ovf (q : Queue) : q.dequeue.2.ovf = q.ovf := by
  unfold Queue.dequeue
  split <;> rfl

theorem enqueue_keeps_ovf {q : Queue} (t : Tree) (h : q.ovf = true) : (q.enqueue t).ovf = true := by
  rw [enqueue_ovf, h, Bool.true_or]

theorem mergePass_keeps_ovf {q : Queue} (h : q.ovf = true) : (mergePass q).ovf = true := by
  have h1 := dequeue_ovf q
  have h2 := dequeue_ovf q.dequeue.2
  unfold mergePass
  split
  · rename_i l q1 hl
    rw [hl] at h1 h2
    split
    · rename_i r q2 hr
      rw [hr] at h2
      exact enqueue_keeps_ovf _ (h2.trans (h1.trans h))
    · exact h
  · exact h

theorem mergeLoop_keeps_ovf (fuel : Nat) {q : Queue} (h : q.ovf = true) : (mergeLoop fuel q).ovf = true := by
  induction fuel generalizing q with
  | zero => exact h
  | succ n ih =>
    simp only [mergeLoop]
    split
    · exact ih (mergePass_keeps_ovf h)
    · exact h

/-- The merge never clears Q_OVF, whatever the length of the queue. -/
theorem merge_keeps_ovf {q : Queue} (h : q.ovf = true) : q.merge.2.ovf = true := by
  rw [Queue.merge, dequeue_ovf]
  exact mergeLoop_keeps_ovf _ ((addSentinel_spec q).1.trans h)

/-! ### The accepted bit (R78) -/

theorem bitOperand_ne_none {b : Byte} (h : b.toNat ≤ 1) : bitOperand b ≠ none := by
  have hb : b = 0 ∨ b = 1 := by
    rcases Nat.le_one_iff_eq_zero_or_eq_one.mp h with h0 | h1
    · exact .inl (BitVec.eq_of_toNat_eq h0)
    · exact .inr (BitVec.eq_of_toNat_eq h1)
  rcases hb with rfl | rfl <;> decide

@[simp] theorem writeBit_mode (bit : Bool) (s : State) : (writeBit bit s).bs.mode = s.bs.mode := by
  obtain ⟨b, d, he, hmode, -⟩ := writeBit_eq bit s
  rw [he, hmode]

@[simp] theorem writeBit_bitPhase (bit : Bool) (s : State) : (writeBit bit s).bs.bitPhase = true := by
  obtain ⟨b, d, he, -, hphase⟩ := writeBit_eq bit s
  rw [he, hphase]

theorem data_grows_writeBit (bit : Bool) (s : State) : s.file.data <+: (writeBit bit s).file.data := by
  obtain ⟨b, d, he, -⟩ := writeBit_eq bit s
  rw [he]
  exact ⟨d, rfl⟩

theorem data_grows_finishWrite (s : State) : s.file.data <+: (finishWrite s).file.data := by
  obtain ⟨b, d, he, -⟩ := finishWrite_eq s
  rw [he]
  exact ⟨d, rfl⟩

/-! ### The same for every command -/

section

variable {i : Instr} {s u : State}

theorem Effect.keeps_ovf (h : Effect s i u) (hovf : s.pq.ovf = true) (hi : clearsOvf i = false) : u.pq.ovf = true := by
  have hf := h.frame
  cases h with
  | unchanged => exact hovf
  | htMerge hmerge =>
    have hq := merge_keeps_ovf hovf
    rwa [hmerge] at hq
  | pqEnq sym count => exact enqueue_keeps_ovf _ hovf
  | pqDeq hdeq =>
    have hq := dequeue_ovf s.pq
    rw [hdeq] at hq
    exact hq.trans hovf
  | htLeaves => nomatch hi
  | htBuild => nomatch hi
  | pqClr => nomatch hi
  | tcRtreeGood => nomatch hi
  | tcRtreeBad => nomatch hi
  | sreset => nomatch hi
  | _ => exact (congrArg Queue.ovf (hf.queue rfl)).trans hovf

theorem Effect.mode (h : Effect s i u) (hne : u.bs.mode ≠ s.bs.mode) :
    (∃ m, i = .bsOpen m ∧ s.bs.mode = .closed ∧ s.envGrant = true) ∨
      ((i = .bsClose ∨ i = .sreset) ∧ u.bs.mode = .closed) := by
  cases h with
  | bsOpen _ hclosed hgrant => exact .inl ⟨_, rfl, hclosed, hgrant⟩
  | bsCloseRead => exact .inr ⟨.inl rfl, rfl⟩
  | bsCloseWrite => exact .inr ⟨.inl rfl, rfl⟩
  | sreset => exact .inr ⟨.inr rfl, rfl⟩
  | bsWbit => exact absurd (writeBit_mode _ s) hne
  | bsRbitEnd _ _ hfetch =>
    obtain ⟨b, n, rfl, hmode, -⟩ := eq_of_fetchByte hfetch
    exact absurd hmode hne
  | bsRbitFetch _ _ hfetch =>
    obtain ⟨b, n, rfl, hmode, -⟩ := eq_of_fetchByte hfetch
    exact absurd hmode hne
  | _ => exact absurd rfl hne

theorem Effect.bitPhase (h : Effect s i u) (hs : s.bs.bitPhase = false) (hu : u.bs.bitPhase = true) :
    (∃ b, i = .bsWbit b ∧ s.bs.mode = .write) ∨ (i = .bsRbit ∧ s.bs.mode = .read) := by
  cases h with
  | bsWbit _ hmode => exact .inl ⟨_, rfl, hmode⟩
  | bsRbitShift hmode => exact .inr ⟨rfl, hmode⟩
  | bsRbitEnd hmode => exact .inr ⟨rfl, hmode⟩
  | bsRbitFetch hmode => exact .inr ⟨rfl, hmode⟩
  | bsOpen => nomatch hu
  | bsCloseRead => nomatch hu
  | bsCloseWrite => nomatch hu
  | sreset => nomatch hu
  | _ => nomatch hs.symm.trans hu

theorem Effect.bitPhase_of_bsWbit {b : Byte} (h : Effect s (.bsWbit b) u) (hb : b.toNat ≤ 1) (hmode : s.bs.mode = .write) :
    u.bs.bitPhase = true := by
  cases h with
  | unchanged hw => exact absurd rfl (hw b)
  | bsWbitRefused hr => exact (hr.resolve_left (bitOperand_ne_none hb) hmode).elim
  | bsWbit => exact writeBit_bitPhase _ s

theorem Effect.bitPhase_of_bsRbit (h : Effect s .bsRbit u) (hmode : s.bs.mode = .read) : u.bs.bitPhase = true := by
  cases h with
  | unchanged _ hr => exact absurd rfl hr
  | bsRbitRefused hr => exact absurd hmode hr
  | bsRbitShift => rfl
  | bsRbitEnd _ _ hfetch =>
    obtain ⟨b, n, rfl, -, hphase⟩ := eq_of_fetchByte hfetch
    exact hphase
  | bsRbitFetch _ _ hfetch =>
    obtain ⟨b, n, rfl, -, hphase⟩ := eq_of_fetchByte hfetch
    exact hphase

theorem Effect.data_grows (h : Effect s i u) (hmode : s.bs.mode = .write) : s.file.data <+: u.file.data := by
  have hf := h.frame
  have hsame : u.file.data = s.file.data → s.file.data <+: u.file.data := fun he => ⟨[], (List.append_nil _).trans he.symm⟩
  cases h with
  | unchanged => exact hsame rfl
  | bsOpen _ hclosed => nomatch hmode.symm.trans hclosed
  | bsCloseRead => exact hsame rfl
  | bsCloseWrite => exact data_grows_finishWrite s
  | bsWbitRefused => exact hsame rfl
  | bsWbit => exact data_grows_writeBit _ s
  | bsWu64 v => exact ⟨bytesOfU64 v, rfl⟩
  | tcWtree => exact ⟨ser s.root, rfl⟩
  | _ => exact hsame (hf.data rfl)

end

/-- Settles O50: each clause is a case split over the effects of the command, where the response plays no part. -/
theorem modePhaseAndOverflowRules : Obligations.ModePhaseAndOverflowRules := by
  intro i s t h
  obtain ⟨u, st, v, heff, rfl⟩ := exists_effect_of_exec h
  refine ⟨heff.keeps_ovf, heff.mode, heff.bitPhase, ?_, ?_, heff.data_grows⟩
  · rintro b rfl
    exact heff.bitPhase_of_bsWbit
  · rintro rfl
    exact heff.bitPhase_of_bsRbit

end Sys2Proof.Machine
end

section
/-! What every step keeps: the effects of the commands, the responses and the moves of the environment, taken once. -/

namespace Sys2Proof.Machine

/-- A predicate that whatever a step consists of keeps: an event taken off the list with its grants (R5), an effect of a
command, a response (R62), FILE replaced while the stream is closed and INP replaced (R41, R42), the reset (R180). -/
structure KeptByEvents (P : State → Prop) : Prop where
  host {s rest g gi} : P s → P { s with pending := rest, envGrant := g, envInpGrant := gi }
  effect {i s u} : Effect s i u → P s → P u
  respond {s st v} : P s → P (respond st v s)
  setFile {s d} : s.bs.mode = .closed → P s → P { s with file := ⟨d, 0⟩ }
  setInp {s d} : P s → P { s with inp := d }
  hardReset {s} : P s → P (hardReset s)

theorem KeptByEvents.takeEvent {P : State → Prop} (hP : KeptByEvents P) {e : Event} {s s' : State} (hs : P s)
    (h : takeEvent e s = .next s') : P s' := by
  cases e with
  | command cw arg g gi =>
    have hcmd : P (withGrants g gi s) := hP.host hs
    rw [Machine.takeEvent, perform] at h
    split at h
    · obtain ⟨u, st, v, heff, rfl⟩ := exists_effect_of_exec h
      exact hP.respond (hP.effect heff hcmd)
    · cases h
      exact hP.respond hcmd
  | setFile d =>
    rw [Machine.takeEvent] at h
    split at h
    · cases h
      exact hP.setFile ‹_› hs
    · cases h
  | setInp d =>
    cases h
    exact hP.setInp hs
  | reset =>
    cases h
    exact hP.hardReset hs

theorem KeptByEvents.step {P : State → Prop} (hP : KeptByEvents P) {s s' : State} (hs : P s) (h : step s = .next s') :
    P s' := by
  match hpend : s.pending with
  | [] =>
    rw [step_of_pending_nil hpend] at h
    exact Host.Outcome.next.inj h ▸ hs
  | e :: rest =>
    rw [step_of_pending_cons hpend] at h
    exact hP.takeEvent (hP.host hs) h

end Sys2Proof.Machine
end

section
/-! The invariant of the HT unit and CODE (10_state.md R14, R17, R26, R27) is kept by every event. -/

namespace Sys2Proof.Machine

/-! ### The queue (R14, R26(c)) -/

theorem queueInv_of_slots_nil {q : Queue} (h : q.slots = []) : QueueInv q where
  bounded := by simp [h]
  leaves := by simp [h]
  heap := by intro i c _ a b ha; simp [h] at ha

theorem QueueInv.enqueue_leaf {q : Queue} (h : QueueInv q) (s : Symbol) (c : Count) :
    QueueInv (q.enqueue (.leaf s c)) := by
  by_cases hfull : q.full = true
  · rw [enqueue_of_full _ hfull]
    exact ⟨h.bounded, h.leaves, h.heap⟩
  · rw [Bool.not_eq_true] at hfull
    refine ⟨?_, ?_, enqueue_heap _ h.heap⟩
    · rw [enqueue_length _ hfull]
      exact (full_eq_false_iff q).mp hfull
    · intro t ht
      rcases List.mem_cons.mp ((enqueue_perm _ hfull).mem_iff.mp ht) with rfl | hmem
      · rfl
      · exact h.leaves t hmem

theorem QueueInv.foldl_enqueueLeaf {q : Queue} (h : QueueInv q) (f : Vector Count 256) (l : List Symbol) :
    QueueInv (l.foldl (enqueueLeaf f) q) := by
  induction l generalizing q with
  | nil => exact h
  | cons x l ih =>
    refine ih ?_
    unfold enqueueLeaf
    split
    · exact h
    · exact h.enqueue_leaf x _

theorem queueInv_leavesQueue (f : Vector Count 256) : QueueInv (leavesQueue f) :=
  (queueInv_of_slots_nil rfl).foldl_enqueueLeaf f allSymbols

theorem queueInv_parse (d : List Byte) : QueueInv (parse .opening 0 Queue.fresh d).pq :=
  parse_induction (fun _ s c h => h.enqueue_leaf s c) .opening 0 Queue.fresh d (queueInv_of_slots_nil rfl)

theorem QueueInv.addSentinel {q : Queue} (h : QueueInv q) : QueueInv (addSentinel q) := by
  unfold Machine.addSentinel
  split
  · exact h.enqueue_leaf _ 0
  · exact h

/-! ### ROOT (R26, R27) -/

theorem rootInv_none : RootInv none := nofun

theorem rootInv_some {t : Tree} (hwf : t.wf = true) (hlen : t.leaves.length ≤ 256) : RootInv (some t) := by
  rintro _ ⟨⟩
  exact ⟨hwf, hlen⟩

theorem wf_of_isLeaf {t : Tree} (h : t.isLeaf = true) : t.wf = true := by
  obtain ⟨s, c, rfl⟩ := (isLeaf_iff t).mp h
  rfl

theorem leaves_length_of_isLeaf {t : Tree} (h : t.isLeaf = true) : t.leaves.length = 1 := by
  obtain ⟨s, c, rfl⟩ := (isLeaf_iff t).mp h
  rfl

/-- As many leaves as elements while every element is a leaf. -/
theorem leavesOf_length {l : List Tree} (h : ∀ t ∈ l, t.isLeaf = true) : (leavesOf l).length = l.length := by
  induction l with
  | nil => rfl
  | cons t l ih =>
    obtain ⟨ht, hl⟩ := List.forall_mem_cons.mp h
    rw [leavesOf, List.flatMap_cons, List.length_append, leaves_length_of_isLeaf ht, List.length_cons, Nat.add_comm]
    exact congrArg (· + 1) (ih hl)

/-- `dequeue()` of a heap of leaves gives a leaf or null and leaves a heap of leaves (R102). -/
theorem QueueInv.dequeue {q q' : Queue} {r : Option Tree} (h : QueueInv q) (hdeq : q.dequeue = (r, q')) :
    RootInv r ∧ QueueInv q' := by
  obtain ⟨hbounded, hleaves, hheap⟩ := h
  unfold Queue.dequeue at hdeq
  split at hdeq
  · cases hdeq
    exact ⟨rootInv_none, hbounded, hleaves, hheap⟩
  · rename_i m rest hslots
    cases hdeq
    rw [hslots] at hbounded hleaves hheap
    obtain ⟨hm, hrest⟩ := List.forall_mem_cons.mp hleaves
    refine ⟨rootInv_some (wf_of_isLeaf hm) (by rw [leaves_length_of_isLeaf hm]; decide), ?_, ?_, refill_heap hheap⟩
    · rw [refill_length]
      exact Nat.le_of_succ_le hbounded
    · exact fun t ht => hrest t ((refill_perm rest).mem_iff.mp ht)

/-- `merge()` of a heap of leaves gives null or a well-formed tree of at most 256 leaves, and empties the queue (R120). -/
theorem QueueInv.merge {q q' : Queue} {r : Option Tree} (h : QueueInv q) (hmerge : q.merge = (r, q')) :
    RootInv r ∧ QueueInv q' := by
  by_cases hnil : q.slots = []
  · rw [merge_of_nil hnil] at hmerge
    cases hmerge
    exact ⟨rootInv_none, h⟩
  · obtain ⟨t, ht, hperm, -⟩ := merge_of_ne_nil hnil h.bounded
    have hwf : t.wf = true := merge_wf h.bounded (fun x hx => wf_of_isLeaf (h.leaves x hx)) (congrArg Prod.fst ht)
    rw [ht] at hmerge
    cases hmerge
    have hlen : t.leaves.length = (Machine.addSentinel q).slots.length := hperm.length_eq.trans (leavesOf_length h.addSentinel.leaves)
    exact ⟨rootInv_some hwf (hlen ▸ h.addSentinel.bounded), queueInv_of_slots_nil rfl⟩

/-! ### CODE (R17) -/

theorem codeInv_empty : CodeInv Code.empty := ⟨by decide, by decide⟩

theorem CodeInv.push {c : Code} (h : CodeInv c) (b : Bool) (hlen : c.len < 256) : CodeInv (c.push b) := by
  obtain ⟨-, hbits⟩ := h
  have hmax : 2 ^ c.len ≤ 2 ^ 255 := Nat.pow_le_pow_right (by decide) (by omega)
  have hb := b.toNat_lt
  refine ⟨hlen, ?_⟩
  rw [push_bits_toNat c b (by omega), push_len, Nat.pow_succ]
  omega

theorem codeInv_ofBits (p : List Bool) (h : p.length ≤ 256) : CodeInv (Code.ofBits p) := by
  induction p using List.reverseRecOn with
  | nil => exact codeInv_empty
  | append_singleton p b ih =>
    rw [List.length_append, List.length_singleton] at h
    rw [ofBits_append]
    exact (ih (by omega)).push b (by rw [ofBits_len]; omega)

/-- A code is shorter than the tree has leaves (R132): every step down leaves at least one leaf aside. -/
theorem path_length_lt {t : Tree} {sym : Symbol} {p : List Bool} (h : t.path sym = some p) :
    p.length < t.leaves.length := by
  induction t generalizing p with
  | leaf s c =>
    simp only [Tree.path, Option.ite_none_right_eq_some, Option.some.injEq] at h
    obtain ⟨-, rfl⟩ := h
    exact Nat.one_pos
  | node c k l r ihl ihr =>
    have hl := leaves_length_pos l
    have hr := leaves_length_pos r
    rw [leaves_node, List.length_append]
    simp only [Tree.path] at h
    split at h
    · cases h
      have := ihl ‹_›
      rw [List.length_cons]
      omega
    · split at h
      · cases h
        have := ihr ‹_›
        rw [List.length_cons]
        omega
      · cases h

/-! ### Every command and every event -/

theorem TreeInv.of_eq {s t : State} (h : TreeInv s) (hq : t.pq = s.pq) (hr : t.root = s.root) (hc : t.code = s.code) :
    TreeInv t :=
  ⟨hq ▸ h.queue, hr ▸ h.root, hc ▸ h.code⟩

theorem treeInv_clearBlock (s : State) : TreeInv (clearBlock s) :=
  ⟨queueInv_of_slots_nil rfl, rootInv_none, codeInv_empty⟩

theorem Effect.keeps_treeInv {i : Instr} {s u : State} (h : Effect s i u) (hs : TreeInv s) : TreeInv u := by
  have hf := h.frame
  obtain ⟨hqueue, hroot, hcode⟩ := hs
  cases h with
  | htLeaves =>
    refine ⟨?_, hroot, hcode⟩
    dsimp only
    exact queueInv_leavesQueue s.freq
  | htMerge hmerge =>
    obtain ⟨hr, hq⟩ := hqueue.merge hmerge
    exact ⟨hq, hr, hcode⟩
  | htBuild _ hmerge =>
    obtain ⟨hr, hq⟩ := (queueInv_leavesQueue _).merge hmerge
    exact ⟨hq, hr, hcode⟩
  | htCode ht hpath =>
    obtain ⟨-, hlen⟩ := hroot _ ht
    exact ⟨hqueue, hroot, codeInv_ofBits _ ((path_length_lt hpath).le.trans hlen)⟩
  | htFree => exact ⟨hqueue, rootInv_none, hcode⟩
  | pqClr => exact ⟨queueInv_of_slots_nil rfl, hroot, hcode⟩
  | pqEnq sym count => exact ⟨hqueue.enqueue_leaf sym count, hroot, hcode⟩
  | pqDeq hdeq =>
    obtain ⟨hr, hq⟩ := hqueue.dequeue hdeq
    exact ⟨hq, hr, hcode⟩
  | codeClr => exact ⟨hqueue, hroot, codeInv_empty⟩
  | codePush _ hlen => exact ⟨hqueue, hroot, hcode.push _ (lt_of_le_of_ne hcode.1 hlen)⟩
  | tcRtreeGood _ _ hmerge =>
    obtain ⟨hr, hq⟩ := (queueInv_parse _).merge hmerge
    exact ⟨hq, hr, hcode⟩
  | tcRtreeBad => exact ⟨queueInv_of_slots_nil rfl, rootInv_none, hcode⟩
  | sreset => exact treeInv_clearBlock s
  | unchanged => exact ⟨hqueue, hroot, hcode⟩
  | _ => exact TreeInv.of_eq ⟨hqueue, hroot, hcode⟩ (hf.queue rfl) (hf.root rfl) (hf.code rfl)

/-- Settles O56: every effect of a command keeps the invariant, and so does every move of the environment. -/
theorem stepKeepsTheTreeInvariant : Obligations.StepKeepsTheTreeInvariant := by
  have hkept : KeptByEvents TreeInv :=
    { host := fun h => h.of_eq rfl rfl rfl
      respond := fun h => h.of_eq rfl rfl rfl
      effect := fun heff h => heff.keeps_treeInv h
      setFile := fun _ h => h.of_eq rfl rfl rfl
      setInp := fun h => h.of_eq rfl rfl rfl
      hardReset := fun {s} _ => (treeInv_clearBlock s).of_eq rfl rfl rfl }
  exact fun s s' => hkept.step

end Sys2Proof.Machine
end

section
/-! The invariant of the BS unit, FILE and the batch buffer (10_state.md R21, R28) is kept by every event. -/

namespace Sys2Proof.Machine

theorem StreamInv.of_eq {s t : State} (h : StreamInv s) (hb : t.bs = s.bs) (hf : t.file = s.file)
    (hn : t.bufBytes = s.bufBytes) : StreamInv t := by
  obtain ⟨f, q, r, c, b, n, fl, inp, g, gi, pd, rs, dr⟩ := t
  obtain rfl : b = s.bs := hb
  obtain rfl : fl = s.file := hf
  obtain rfl : n = s.bufBytes := hn
  refine ⟨h.param, h.buf, h.closed, fun hm => ?_, fun hm => ?_⟩
  · obtain ⟨hnbits, hacc, hcur, havail, htotal, hheader⟩ := h.write hm
    exact ⟨hnbits, hacc, hcur, havail, htotal, hheader⟩
  · obtain ⟨hnbits, hacc, hcur, havail, hrpos, hahead, htotal, hpre, hheader⟩ := h.read hm
    exact ⟨hnbits, hacc, hcur, havail, hrpos, hahead, htotal, hpre, hheader⟩

/-! ### Closed streams and the open (R28(a), R76, R77, R157) -/

/-- A closed, idle BS unit meets the invariant whatever FILE holds. -/
theorem streamInv_of_closed {s : State} (hparam : 1 ≤ s.bufBytes) (hbuf : s.bs.buf.length = s.bufBytes)
    (hmode : s.bs.mode = .closed) (hidle : ClosedInv s.bs) : StreamInv s where
  param := hparam
  buf := hbuf
  closed _ := hidle
  write h := nomatch hmode.symm.trans h
  read h := nomatch hmode.symm.trans h

theorem streamInv_of_write {s : State} (hparam : 1 ≤ s.bufBytes) (hbuf : s.bs.buf.length = s.bufBytes)
    (hmode : s.bs.mode = .write) (hwrite : WriteInv s) : StreamInv s where
  param := hparam
  buf := hbuf
  closed h := nomatch hmode.symm.trans h
  write _ := hwrite
  read h := nomatch hmode.symm.trans h

theorem streamInv_of_read {s : State} (hparam : 1 ≤ s.bufBytes) (hbuf : s.bs.buf.length = s.bufBytes)
    (hmode : s.bs.mode = .read) (hread : ReadInv s) : StreamInv s where
  param := hparam
  buf := hbuf
  closed h := nomatch hmode.symm.trans h
  write h := nomatch hmode.symm.trans h
  read _ := hread

theorem closedInv_closedStream (b : Stream) : ClosedInv (closedStream b) := ⟨rfl, rfl, rfl, rfl, rfl⟩

theorem StreamInv.clearBlock {s : State} (h : StreamInv s) : StreamInv (clearBlock s) :=
  streamInv_of_closed h.param h.buf rfl ⟨rfl, rfl, rfl, rfl, rfl⟩

theorem StreamInv.hardReset {s : State} (h : StreamInv s) : StreamInv (hardReset s) :=
  streamInv_of_closed h.param (by simp [Machine.hardReset]) rfl ⟨rfl, rfl, rfl, rfl, rfl⟩

/-- FILE may be replaced while the stream is closed (R41, R57). -/
theorem StreamInv.setFile {s : State} (h : StreamInv s) (hmode : s.bs.mode = .closed) (f : ByteFile) :
    StreamInv { s with file := f } :=
  streamInv_of_closed h.param h.buf hmode (h.closed hmode)

theorem StreamInv.close_read {s : State} (h : StreamInv s) : StreamInv { s with bs := closedStream s.bs } :=
  streamInv_of_closed h.param h.buf rfl (closedInv_closedStream _)

theorem StreamInv.close_write {s : State} (h : StreamInv s) :
    StreamInv { finishWrite s with bs := closedStream (finishWrite s).bs } := by
  obtain ⟨b, d, he, hbuf⟩ := finishWrite_eq s
  rw [he]
  exact streamInv_of_closed h.param ((congrArg List.length hbuf).trans h.buf) rfl (closedInv_closedStream _)

/-- A granted open starts from nothing: no byte written or read, none buffered (R76). -/
theorem StreamInv.opened {s : State} (h : StreamInv s) (mode : Mode) :
    StreamInv { s with bs := openedStream mode s.bs, file := openedFile mode s.file } := by
  cases mode with
  | closed => exact streamInv_of_closed h.param h.buf rfl ⟨rfl, rfl, rfl, rfl, rfl⟩
  | write =>
    exact streamInv_of_write h.param h.buf rfl
      { nbits := Nat.zero_le 7, acc := Nat.one_pos, cur := h.param, avail := rfl, total := rfl, header := fun _ => ⟨rfl, rfl⟩ }
  | read =>
    exact streamInv_of_read h.param h.buf rfl
      { nbits := Nat.zero_le 7, acc := rfl, cur := le_refl 0, avail := Nat.zero_le _, rpos := Nat.zero_le _
        ahead := le_refl 0, total := rfl, prefetched := rfl, header := fun _ => ⟨rfl, rfl, rfl⟩ }

/-! ### Write streams (R28(b), (c)) -/

theorem pushBit_toNat (a : Byte) (bit : Bool) (h : a.toNat < 2 ^ 7) :
    (pushBit a bit).toNat = 2 * a.toNat + bit.toNat := by
  have hdisj : a <<< 1 &&& (BitVec.ofBool bit).setWidth 8 = 0 := by
    ext i hi
    cases i <;> simp
  rw [pushBit, ← BitVec.add_eq_or_of_and_eq_zero _ _ hdisj, BitVec.toNat_add]
  cases bit <;> simp [Nat.shiftLeft_eq] <;> omega

theorem produced_length {s : State} (h : s.bs.cur ≤ s.bs.buf.length) :
    (produced s).length = s.file.data.length + s.bs.cur := by
  rw [produced, List.length_append, List.length_take_of_le h]

/-- `emit_byte` keeps the cursor inside the buffer and BS_TOTAL the number of bytes produced (R22, R50). -/
theorem emitByte_keeps_total (v : Byte) {s : State} (hbuf : s.bs.buf.length = s.bufBytes) (hcur : s.bs.cur < s.bufBytes)
    (htotal : s.bs.total = BitVec.ofNat 64 (s.file.data.length + s.bs.cur)) :
    (emitByte v s).bs.cur < s.bufBytes ∧
      (emitByte v s).bs.total = BitVec.ofNat 64 ((emitByte v s).file.data.length + (emitByte v s).bs.cur) := by
  obtain ⟨hbs, -⟩ := emitByte_spec v s
  have hbuf' : (emitByte v s).bs.buf = s.bs.buf.set s.bs.cur v := by rw [hbs]
  have htotal' : (emitByte v s).bs.total = s.bs.total + 1 := by rw [hbs]
  have hcur' : (emitByte v s).bs.cur < s.bufBytes := by
    rw [hbs]
    dsimp only
    split <;> omega
  have hlen : (emitByte v s).bs.cur ≤ (emitByte v s).bs.buf.length := by
    rw [hbuf', List.length_set, hbuf]
    exact hcur'.le
  refine ⟨hcur', ?_⟩
  rw [← produced_length hlen, produced_emitByte v s (hbuf ▸ hcur), List.length_append, produced_length (hbuf ▸ hcur.le),
    htotal', htotal, List.length_singleton, BitVec.ofNat_add _ 1]
  rfl

/-- A byte emitted during the bit phase leaves the write stream on a byte boundary (R78). -/
theorem streamInv_emitByte (v : Byte) {s : State} (hparam : 1 ≤ s.bufBytes) (hbuf : s.bs.buf.length = s.bufBytes)
    (hmode : s.bs.mode = .write) (havail : s.bs.avail = 0) (hphase : s.bs.bitPhase = true) (hcur : s.bs.cur < s.bufBytes)
    (htotal : s.bs.total = BitVec.ofNat 64 (s.file.data.length + s.bs.cur)) :
    StreamInv { emitByte v s with bs := { (emitByte v s).bs with acc := 0, nbits := 0 } } := by
  obtain ⟨hcur', htotal'⟩ := emitByte_keeps_total v hbuf hcur htotal
  obtain ⟨hbs, -, hn, -⟩ := emitByte_spec v s
  rw [← hn] at hparam hcur'
  refine streamInv_of_write hparam ?_ ?_ ⟨Nat.zero_le 7, Nat.one_pos, hcur', ?_, htotal', ?_⟩
  · rw [hn, hbs]
    exact List.length_set.trans hbuf
  · rw [hbs]
    exact hmode
  · rw [hbs]
    exact havail
  · rw [hbs]
    exact fun h => nomatch h.symm.trans hphase

/-- An accepted bit keeps the write stream (R78): one more pending bit, or the byte they make emitted. -/
theorem StreamInv.writeBit {s : State} (h : StreamInv s) (hmode : s.bs.mode = .write) (bit : Bool) :
    StreamInv (writeBit bit s) := by
  obtain ⟨hnbits, hacc, hcur, havail, htotal, -⟩ := h.write hmode
  unfold Machine.writeBit
  dsimp only
  split
  · exact streamInv_emitByte _ h.param h.buf hmode havail rfl hcur htotal
  · have hmax : 2 ^ s.bs.nbits ≤ 2 ^ 7 := Nat.pow_le_pow_right (by decide) hnbits
    have hacc' : (pushBit s.bs.acc bit).toNat < 2 ^ (s.bs.nbits + 1) := by
      have hbit := bit.toNat_lt
      rw [pushBit_toNat _ bit (by omega), Nat.pow_succ]
      omega
    exact streamInv_of_write h.param h.buf hmode ⟨by dsimp only; omega, hacc', hcur, havail, htotal, nofun⟩

/-- A header append goes past the empty batch buffer (R80, R143). -/
theorem StreamInv.appendHeader {s : State} (h : StreamInv s) (hcheck : headerCheck .write s = none) (d : List Byte) :
    StreamInv (appendHeader d s) := by
  obtain ⟨hmode, hphase⟩ := (headerCheck_eq_none_iff .write s).mp hcheck
  obtain ⟨hnbits, hacc, hcur, havail, htotal, hheader⟩ := h.write hmode
  refine streamInv_of_write h.param h.buf hmode ⟨hnbits, hacc, hcur, havail, ?_, hheader⟩
  obtain ⟨-, hcur0⟩ := hheader hphase
  simp only [Machine.appendHeader, addTotal_total, fileAppend_bs, addTotal_file, fileAppend_data, addTotal_cur, htotal, hcur0,
    List.length_append, Nat.add_zero, BitVec.ofNat_add]

/-! ### Read streams (R21, R28(d), (e)) -/

/-- The part of a read stream's invariant that does not speak of BS_ACC: what is prefetched and what is counted. -/
structure PrefetchInv (s : State) : Prop where
  buf : s.bs.buf.length = s.bufBytes
  cur : s.bs.cur ≤ s.bs.avail
  avail : s.bs.avail ≤ s.bufBytes
  rpos : s.file.rpos ≤ s.file.data.length
  ahead : s.bs.avail - s.bs.cur ≤ s.file.rpos
  total : s.bs.total = BitVec.ofNat 64 (s.file.rpos - (s.bs.avail - s.bs.cur))
  prefetched : unreadBytes s = s.file.data.drop (s.file.rpos - (s.bs.avail - s.bs.cur))

theorem StreamInv.prefetch {s : State} (h : StreamInv s) (hmode : s.bs.mode = .read) : PrefetchInv s := by
  obtain ⟨-, -, hcur, havail, hrpos, hahead, htotal, hpre, -⟩ := h.read hmode
  exact ⟨h.buf, hcur, havail, hrpos, hahead, htotal, hpre⟩

/-- The refill loads the first bytes `r` of what is left of FILE into an empty buffer: it reads ahead and counts nothing (R51). -/
theorem PrefetchInv.load {s : State} (h : PrefetchInv s) (hempty : s.bs.cur = s.bs.avail) {r rest : List Byte}
    (hr : fileRest s = r ++ rest) (hle : r.length ≤ s.bufBytes) :
    PrefetchInv { fileAdvance r.length s with
      bs := { s.bs with buf := r ++ s.bs.buf.drop r.length, avail := r.length, cur := 0 } } := by
  obtain ⟨hbuf, -, -, hrpos, -, htotal, -⟩ := h
  rw [hempty, Nat.sub_self, Nat.sub_zero] at htotal
  have hleft : s.file.data.length - s.file.rpos = r.length + rest.length := by
    rw [← List.length_drop, ← List.length_append]
    exact congrArg List.length hr
  have hback : s.file.rpos + r.length - (r.length - 0) = s.file.rpos := by omega
  refine ⟨?_, Nat.zero_le _, hle, ?_, ?_, ?_, ?_⟩ <;> dsimp only [fileAdvance]
  · rw [List.length_append, List.length_drop]
    omega
  · omega
  · omega
  · rw [hback]
    exact htotal
  · rw [hback]
    have hdrop : s.file.data.drop (s.file.rpos + r.length) = rest := by
      rw [← List.drop_drop, ← fileRest, hr, List.drop_left]
    simp only [unreadBytes, fileRest, List.take_left, List.drop_zero, hdrop]
    exact hr.symm

theorem PrefetchInv.refillBuf {s : State} (h : PrefetchInv s) (hempty : s.bs.cur = s.bs.avail) :
    PrefetchInv (refillBuf s) :=
  h.load hempty (List.take_append_drop s.bufBytes (fileRest s)).symm (List.length_take_le _ _)

/-- A byte taken from the buffer is one byte further and is counted (R22, R51). -/
theorem PrefetchInv.takeByte {s : State} (h : PrefetchInv s) (hne : s.bs.cur ≠ s.bs.avail) :
    PrefetchInv (addTotal 1 { s with bs := { s.bs with cur := s.bs.cur + 1 } }) := by
  obtain ⟨hbuf, hcur, havail, hrpos, hahead, htotal, hpre⟩ := h
  have hnext : s.file.rpos - (s.bs.avail - (s.bs.cur + 1)) = s.file.rpos - (s.bs.avail - s.bs.cur) + 1 := by omega
  refine ⟨hbuf, ?_, havail, hrpos, ?_, ?_, ?_⟩ <;> dsimp only [addTotal]
  · omega
  · omega
  · rw [hnext, BitVec.ofNat_add, htotal]
  · have hlen : s.bs.cur < (s.bs.buf.take s.bs.avail).length := by
      rw [List.length_take_of_le (hbuf ▸ havail)]
      omega
    have hdrop := congrArg (List.drop 1) hpre
    rw [unreadBytes, List.drop_append_of_le_length (by rw [List.length_drop]; omega), List.drop_drop, List.drop_drop] at hdrop
    rw [hnext]
    exact hdrop

theorem PrefetchInv.fetchByte {s : State} (h : PrefetchInv s) : PrefetchInv (fetchByte s).2 := by
  unfold Machine.fetchByte
  dsimp only
  split
  · have hr := h.refillBuf ‹_›
    split
    · exact hr
    · exact hr.takeByte ‹_›
  · exact h.takeByte ‹_›

/-- BS_ACC holds its unread bits at the top, zeros below, and so it does when the top one is shifted out (R21, R79). -/
theorem shiftOut_low_zeros (a : Byte) {n : Nat} (hpos : 1 ≤ n) (hn : n ≤ 8) (h : a.toNat % 2 ^ (8 - n) = 0) :
    (a <<< 1).toNat % 2 ^ (8 - (n - 1)) = 0 := by
  have hexp : 8 - (n - 1) = 8 - n + 1 := by omega
  have htop : 2 ^ (8 - n + 1) ∣ 2 ^ 8 := Nat.pow_dvd_pow 2 (by omega)
  have hshift : (a <<< 1).toNat = a.toNat * 2 % 2 ^ 8 := by
    rw [BitVec.toNat_shiftLeft, Nat.shiftLeft_eq, pow_one]
  rw [hexp, hshift]
  refine Nat.mod_eq_zero_of_dvd ((Nat.dvd_mod_iff htop).mpr ?_)
  rw [pow_succ]
  exact Nat.mul_dvd_mul_right (Nat.dvd_of_mod_eq_zero h) 2

/-- A read stream in its bit phase: the batch buffer, and fewer than eight unread bits in BS_ACC. -/
theorem PrefetchInv.streamInv {s : State} (h : PrefetchInv s) (hparam : 1 ≤ s.bufBytes) (hmode : s.bs.mode = .read)
    (hphase : s.bs.bitPhase = true) (hnbits : s.bs.nbits ≤ 7) (hacc : s.bs.acc.toNat % 2 ^ (8 - s.bs.nbits) = 0) :
    StreamInv s :=
  streamInv_of_read hparam h.buf hmode
    ⟨hnbits, hacc, h.cur, h.avail, h.rpos, h.ahead, h.total, h.prefetched, fun hf => nomatch hf.symm.trans hphase⟩

/-- Taking a bit leaves such a stream, from a full BS_ACC too. -/
theorem PrefetchInv.takeBit {s : State} (h : PrefetchInv s) (hparam : 1 ≤ s.bufBytes) (hmode : s.bs.mode = .read)
    (hphase : s.bs.bitPhase = true) (hpos : 1 ≤ s.bs.nbits) (hn : s.bs.nbits ≤ 8)
    (hacc : s.bs.acc.toNat % 2 ^ (8 - s.bs.nbits) = 0) : StreamInv (takeBit s) := by
  obtain ⟨hbuf, hcur, havail, hrpos, hahead, htotal, hpre⟩ := h
  exact PrefetchInv.streamInv ⟨hbuf, hcur, havail, hrpos, hahead, htotal, hpre⟩ hparam hmode hphase
    (Nat.sub_le_of_le_add hn) (shiftOut_low_zeros _ hpos hn hacc)

/-- The first bit command of a stream changes nothing of what is prefetched. -/
theorem PrefetchInv.enterBitPhase {s : State} (h : PrefetchInv s) : PrefetchInv (enterBitPhase s) :=
  ⟨h.buf, h.cur, h.avail, h.rpos, h.ahead, h.total, h.prefetched⟩

theorem PrefetchInv.loadByte {s : State} (h : PrefetchInv s) (v : Byte) : PrefetchInv (loadByte v s) :=
  ⟨h.buf, h.cur, h.avail, h.rpos, h.ahead, h.total, h.prefetched⟩

/-- A header read goes past the empty batch buffer, by no more bytes than there are (R81, R145). -/
theorem StreamInv.consumeHeader {s : State} (h : StreamInv s) (hcheck : headerCheck .read s = none) {n : Nat}
    (hn : n ≤ (fileRest s).length) : StreamInv (consumeHeader n s) := by
  obtain ⟨hmode, hphase⟩ := (headerCheck_eq_none_iff .read s).mp hcheck
  obtain ⟨hnbits, hacc, hcur, havail, hrpos, -, htotal, -, hheader⟩ := h.read hmode
  obtain ⟨-, hcur0, havail0⟩ := hheader hphase
  rw [fileRest, List.length_drop] at hn
  have hahead : s.bs.avail - s.bs.cur = 0 := by omega
  refine streamInv_of_read h.param h.buf hmode ⟨hnbits, hacc, hcur, havail, ?_, ?_, ?_, ?_, hheader⟩ <;>
    dsimp only [Machine.consumeHeader, fileAdvance, addTotal]
  · omega
  · omega
  · rw [htotal, hahead, Nat.sub_zero, Nat.sub_zero, BitVec.ofNat_add]
  · rw [hahead, Nat.sub_zero]
    simp [unreadBytes, fileRest, hcur0, havail0]

/-- The parser takes no more bytes than there are (R144). -/
theorem parsedBlock_taken_le (s : State) : (parsedBlock s).taken ≤ (fileRest s).length :=
  (parse_taken .opening 0 Queue.fresh (fileRest s)).2.trans (Nat.zero_add _).le

/-! ### Every command and every event -/

theorem Effect.keeps_streamInv {i : Instr} {s u : State} (h : Effect s i u) (hs : StreamInv s) : StreamInv u := by
  cases h with
  | bsOpen => exact hs.opened _
  | bsCloseRead => exact hs.close_read
  | bsCloseWrite => exact hs.close_write
  | bsWbit _ hmode => exact hs.writeBit hmode _
  | bsRbitShift hmode hnbits =>
    have hread := hs.read hmode
    exact (hs.prefetch hmode).enterBitPhase.takeBit hs.param hmode rfl (Nat.one_le_iff_ne_zero.mpr hnbits)
      (hread.nbits.trans (by decide)) hread.acc
  | bsRbitEnd hmode hnbits hfetch =>
    have hpre := (hs.prefetch hmode).enterBitPhase.fetchByte
    obtain ⟨hmode', hacc', hnbits', hphase', -, hbufBytes, -⟩ := fetchByte_frame (enterBitPhase s)
    rw [hfetch] at hpre hmode' hacc' hnbits' hphase' hbufBytes
    exact hpre.streamInv (hs.param.trans_eq hbufBytes.symm) (hmode'.trans hmode) hphase'
      ((hnbits'.trans hnbits).le.trans (Nat.zero_le 7)) (hacc' ▸ hnbits' ▸ (hs.read hmode).acc)
  | bsRbitFetch hmode hnbits hfetch =>
    have hpre := (hs.prefetch hmode).enterBitPhase.fetchByte
    rw [hfetch] at hpre
    obtain ⟨b, n, rfl, hmode', hphase⟩ := eq_of_fetchByte hfetch
    exact (hpre.loadByte _).takeBit hs.param (hmode'.trans hmode) hphase (Nat.le_add_left 1 7) (le_refl 8) (Nat.mod_one _)
  | bsWu64 v hcheck => exact hs.appendHeader hcheck _
  | bsRu64 hcheck => exact hs.consumeHeader hcheck (List.length_take_le' _ _)
  | tcWtree hcheck => exact hs.appendHeader hcheck _
  | tcRtreeGood hcheck => exact (hs.consumeHeader hcheck (parsedBlock_taken_le s)).of_eq rfl rfl rfl
  | tcRtreeBad hcheck => exact (hs.consumeHeader hcheck (parsedBlock_taken_le s)).of_eq rfl rfl rfl
  | sreset => exact hs.clearBlock
  | _ => exact hs.of_eq rfl rfl rfl

/-- Settles O55: every effect of a command keeps the invariant, and so does every move of the environment. -/
theorem stepKeepsTheStreamInvariant : Obligations.StepKeepsTheStreamInvariant := by
  have hkept : KeptByEvents StreamInv :=
    { host := fun h => h.of_eq rfl rfl rfl
      respond := fun h => h.of_eq rfl rfl rfl
      effect := fun heff h => heff.keeps_streamInv h
      setFile := fun hmode h => h.setFile hmode _
      setInp := fun h => h.of_eq rfl rfl rfl
      hardReset := fun h => h.hardReset }
  exact fun s s' => hkept.step

/-! ### The state after reset (R181) -/

theorem streamInv_reset : StreamInv State.reset :=
  streamInv_of_closed (Nat.succ_pos _) (by simp [State.reset]) rfl ⟨rfl, rfl, rfl, rfl, rfl⟩

theorem treeInv_reset : TreeInv State.reset := ⟨queueInv_of_slots_nil rfl, rootInv_none, codeInv_empty⟩

theorem responsesInv_reset : ResponsesInv State.reset := fun _ h => nomatch h

/-- Settles O58: the base case of the three invariants. -/
theorem resetMeetsTheInvariants : Obligations.ResetMeetsTheInvariants :=
  ⟨streamInv_reset, treeInv_reset, responsesInv_reset⟩

end Sys2Proof.Machine
end

section
/-! The moves of the environment between two commands (20_memory.md R41, R42, R57). -/

namespace Sys2Proof.Machine

theorem takeEvent_setFile_of_closed {s : State} (d : List Byte) (hmode : s.bs.mode = .closed) :
    takeEvent (.setFile d) s = .next { s with file := ⟨d, 0⟩ } :=
  if_pos hmode

theorem takeEvent_setFile_of_open {s : State} (d : List Byte) (hmode : s.bs.mode ≠ .closed) :
    takeEvent (.setFile d) s = .fault .fileReplacedWhileOpen :=
  if_neg hmode

/-- Settles O7: each clause is what taking an event of its kind off the list does. -/
theorem environmentMovesBetweenCommands : Obligations.EnvironmentMovesBetweenCommands := by
  refine fun s d rest => ⟨fun hpend hmode => ?_, fun hpend hmode => ?_, fun hpend => step_of_pending_cons hpend⟩
  · rw [step_of_pending_cons hpend]
    exact takeEvent_setFile_of_closed d hmode
  · rw [step_of_pending_cons hpend]
    exact takeEvent_setFile_of_open d hmode

end Sys2Proof.Machine
end

section
/-! Buffering is transparent (20_memory.md R52), first part: what the block does without looking at its batch buffer, at FILE
or at BUF_BYTES. `visible` blanks these three, and an operation that does not look at them acts on what is left. -/

namespace Sys2Proof.Machine

open Sys2Proof.Claims

/-- The state with the batch buffer, FILE, BUF_BYTES and the model's count of resets blanked. -/
def visible (s : State) : State :=
  { s with bs := { s.bs with buf := [], cur := 0, avail := 0 }, file := ⟨[], 0⟩, bufBytes := 0, draws := 0 }

/-- The outcome with `f` applied to the next state. -/
def onNext (f : State → State) : Host.Outcome State Fault Refusal → Host.Outcome State Fault Refusal
  | .next s => .next (f s)
  | .fault r => .fault r
  | .refused r => .refused r

/-- The views of R34 but SR_BS_BUF and SR_PARAM do not show the batch buffer. -/
theorem statusView_visible (s : State) {idx : Byte} (h3 : idx ≠ 3) (h11 : idx ≠ 11) :
    statusView (visible s) idx = statusView s idx := by
  unfold statusView
  split
  case h_4 h => exact absurd (BitVec.eq_of_toNat_eq h) h3
  case h_12 h => exact absurd (BitVec.eq_of_toNat_eq h) h11
  all_goals rfl

@[simp] theorem visible_freq (s : State) : (visible s).freq = s.freq := rfl
@[simp] theorem visible_pq (s : State) : (visible s).pq = s.pq := rfl
@[simp] theorem visible_root (s : State) : (visible s).root = s.root := rfl
@[simp] theorem visible_code (s : State) : (visible s).code = s.code := rfl
@[simp] theorem visible_inp (s : State) : (visible s).inp = s.inp := rfl
@[simp] theorem visible_envInpGrant (s : State) : (visible s).envInpGrant = s.envInpGrant := rfl

/-- A command outside the bit stream and the tree codec does the same whatever is buffered: the branch it takes depends on
fields that are not blanked. -/
theorem exec_visible {i : Instr} (hi : writesStream i = false) (h3 : i ≠ .rdsr 3) (h11 : i ≠ .rdsr 11) (s : State) :
    exec i (visible s) = onNext visible (exec i s) := by
  cases i with
  | freqScan =>
    rw [exec, exec, execFreqScan, execFreqScan, apply_ite (onNext visible)]
    rfl
  | htLeaves =>
    simp only [exec, execHtLeaves, visible_freq]
    generalize leavesQueue s.freq = q
    rfl
  | htMerge =>
    simp only [exec, execHtMerge, visible_pq]
    rcases s.pq.merge with ⟨_ | t, q⟩ <;> rfl
  | htBuild =>
    simp only [exec, execHtBuild, visible_inp, apply_ite (onNext visible)]
    rcases (leavesQueue (freqScan s.inp)).merge with ⟨_ | t, q⟩ <;> rfl
  | htCode sym =>
    simp only [exec, execHtCode, visible_root]
    cases s.root with
    | none => rfl
    | some t =>
      dsimp only
      cases t.path sym <;> rfl
  | htFind =>
    simp only [exec, execHtFind, visible_root, visible_code]
    cases s.root with
    | none => rfl
    | some t =>
      dsimp only
      rcases t.walk s.code.toBits with _ | _ | _ <;> rfl
  | pqDeq =>
    simp only [exec, execPqDeq, visible_pq]
    rcases s.pq.dequeue with ⟨_ | t, q⟩ <;> rfl
  | pqPeekc idx =>
    simp only [exec, execPqPeekc, visible_pq]
    cases slotOperand s.pq idx <;> rfl
  | pqPeekk idx =>
    simp only [exec, execPqPeekk, visible_pq]
    cases slotOperand s.pq idx <;> rfl
  | codePush b =>
    simp only [exec, execCodePush, visible_code]
    cases bitOperand b with
    | none => rfl
    | some bit =>
      dsimp only
      rw [apply_ite (onNext visible)]
      rfl
  | rdsr idx =>
    simp only [exec, execRdsr, statusView_visible s (fun h => h3 (congrArg _ h)) (fun h => h11 (congrArg _ h))]
    cases statusView s idx <;> rfl
  | bsOpen => nomatch hi
  | bsClose => nomatch hi
  | bsWbit => nomatch hi
  | bsRbit => nomatch hi
  | bsWu64 => nomatch hi
  | bsRu64 => nomatch hi
  | tcWtree => nomatch hi
  | tcRtree => nomatch hi
  | sreset => nomatch hi
  | _ => rfl

/-! ### The operations of the stream -/

theorem visible_emitByte (v : Byte) (s : State) : visible (emitByte v s) = addTotal 1 (visible s) := by
  unfold emitByte
  dsimp only
  split <;> rfl

/-- A bit shifted into BS_ACC, and the bit phase begun (R78). -/
def shiftIn (bit : Bool) (s : State) : State :=
  { s with bs := { s.bs with bitPhase := true, acc := pushBit s.bs.acc bit, nbits := s.bs.nbits + 1 } }

/-- BS_ACC emptied, its byte having been emitted (R78). -/
def emptyAcc (s : State) : State := { s with bs := { s.bs with acc := 0, nbits := 0 } }

theorem writeBit_eq_ite (bit : Bool) (s : State) :
    writeBit bit s = if s.bs.nbits + 1 = 8 then emptyAcc (emitByte (pushBit s.bs.acc bit) (shiftIn bit s))
      else shiftIn bit s := rfl

/-- An accepted bit depends on BS_ACC and BS_NBITS alone: whether the batch buffer is then full shows nowhere else (R78). -/
theorem visible_writeBit (bit : Bool) (s : State) : visible (writeBit bit s) = visible (writeBit bit (visible s)) := by
  have hbyte (u : State) (v : Byte) : visible (emptyAcc (emitByte v u)) = emptyAcc (addTotal 1 (visible u)) :=
    congrArg emptyAcc (visible_emitByte v u)
  rw [writeBit_eq_ite, writeBit_eq_ite, apply_ite visible, apply_ite visible, hbyte, hbyte]
  rfl

theorem finishWrite_eq_ite (s : State) : finishWrite s =
    if 1 ≤ s.bs.nbits ∧ s.bs.nbits ≤ 7 then addTotal 1 (fileAppend [padByte s.bs] (flush s)) else flush s := rfl

/-- A write close depends on BS_NBITS alone: whether there is a pad byte to count (R77). -/
theorem visible_finishWrite (s : State) : visible (finishWrite s) = visible (finishWrite (visible s)) := by
  rw [finishWrite_eq_ite, finishWrite_eq_ite, apply_ite visible, apply_ite visible]
  rfl

theorem visible_fetchByte (s : State) : visible (fetchByte s).2 =
    { visible s with bs := { (visible s).bs with total := (fetchByte s).2.bs.total } } := by
  unfold fetchByte
  dsimp only
  split
  · split <;> rfl
  · rfl

end Sys2Proof.Machine
end

section
/-! Buffering is transparent, second part: what the stream commands do to the bytes produced and to the bytes unread, and the
branches of the two reading commands, said once (40_bitstream.md R77 to R81). -/

namespace Sys2Proof.Machine

variable {s : State}

/-! ### The bytes produced (R50, R54) -/

theorem finishWrite_data (s : State) : (finishWrite s).file.data =
    produced s ++ if 1 ≤ s.bs.nbits ∧ s.bs.nbits ≤ 7 then [padByte s.bs] else [] := by
  rw [finishWrite_eq_ite]
  split
  · rfl
  · exact (List.append_nil _).symm

/-- An accepted bit adds to the bytes produced the byte it completes, if it completes one. -/
theorem produced_writeBit (bit : Bool) (hcur : s.bs.cur < s.bs.buf.length) : produced (writeBit bit s) =
    produced s ++ if s.bs.nbits + 1 = 8 then [pushBit s.bs.acc bit] else [] := by
  rw [writeBit_eq_ite]
  split
  · exact produced_emitByte _ (shiftIn bit s) hcur
  · exact (List.append_nil _).symm

theorem StreamInv.cur_lt_of_write (hs : StreamInv s) (hmode : s.bs.mode = .write) : s.bs.cur < s.bs.buf.length :=
  (hs.write hmode).cur.trans_eq hs.buf.symm

theorem StreamInv.produced_appendHeader (hs : StreamInv s) (hcheck : headerCheck .write s = none) (d : List Byte) :
    produced (Machine.appendHeader d s) = produced s ++ d := by
  obtain ⟨hmode, hphase⟩ := (headerCheck_eq_none_iff .write s).mp hcheck
  obtain ⟨-, hcur⟩ := (hs.write hmode).header hphase
  simp [produced, Machine.appendHeader, hcur]

/-! ### The bytes unread (R51) -/

theorem unreadBytes_of_avail (havail : s.bs.avail = 0) : unreadBytes s = fileRest s := by
  simp [unreadBytes, havail]

theorem StreamInv.avail_of_header (hs : StreamInv s) (hcheck : headerCheck .read s = none) : s.bs.avail = 0 := by
  obtain ⟨hmode, hphase⟩ := (headerCheck_eq_none_iff .read s).mp hcheck
  obtain ⟨-, -, havail⟩ := (hs.read hmode).header hphase
  exact havail

/-- `fetch_byte` by the bytes unread (R51): their first one, which is counted, leaves the rest; with none unread it is NONE
and nothing is counted. -/
theorem PrefetchInv.fetchByte_outcome (hs : PrefetchInv s) (hparam : 1 ≤ s.bufBytes) :
    (Machine.fetchByte s).1 = (unreadBytes s).head? ∧
    (Machine.fetchByte s).2.bs.total = s.bs.total + BitVec.ofNat 64 ((unreadBytes s).take 1).length ∧
    unreadBytes (Machine.fetchByte s).2 = (unreadBytes s).tail := by
  have hspec := fetchByte_spec s hs.cur (hs.avail.trans_eq hs.buf.symm) hparam
  cases hrest : unreadBytes s with
  | nil =>
    rw [hrest] at hspec
    obtain ⟨hbyte, htotal, hunread⟩ := hspec
    exact ⟨hbyte, htotal.trans (BitVec.add_zero _).symm, hunread⟩
  | cons v rest =>
    rw [hrest] at hspec
    exact hspec

/-! ### The branches of BS_RBIT, BS_RU64 and TC_RTREE -/

/-- What BS_RBIT does with the outcome of its fetch (R79). -/
def answerFetched : Option Byte × State → Host.Outcome State Fault Refusal
  | (none, u) => refuse .eod u
  | (some v, u) => answer (topBit (loadByte v u).bs) (takeBit (loadByte v u))

theorem execBsRbit_of_mode (hmode : s.bs.mode ≠ .read) : execBsRbit s = refuse .eMode s := if_pos hmode

theorem execBsRbit_of_fetch (hmode : s.bs.mode = .read) (hnbits : s.bs.nbits = 0) :
    execBsRbit s = answerFetched (fetchByte (enterBitPhase s)) :=
  (if_neg (not_not_intro hmode)).trans (if_pos hnbits)

theorem execBsRbit_of_shift (hmode : s.bs.mode = .read) (hnbits : s.bs.nbits ≠ 0) :
    execBsRbit s = answer (topBit s.bs) (takeBit (enterBitPhase s)) :=
  (if_neg (not_not_intro hmode)).trans (if_neg hnbits)

theorem execBsRu64_of_header (hcheck : headerCheck .read s = none) : execBsRu64 s =
    if ((fileRest s).take 8).length < 8 then refuse .eod (consumeHeader ((fileRest s).take 8).length s)
    else answer (u64OfBytes ((fileRest s).take 8)) (consumeHeader ((fileRest s).take 8).length s) := by
  rw [execBsRu64, hcheck]
  rfl

theorem afterParse_pq (p : Parsed) (s : State) : (afterParse p s).pq = p.pq := rfl

end Sys2Proof.Machine
end

section
/-! Buffering is transparent, third part: the logical stream (20_memory.md R52). Two states that agree on what is visible
and on the bytes produced or unread are two states a host cannot tell apart; a command that does not touch the stream keeps
them so. -/

namespace Sys2Proof.Claims

open Sys2Proof.Machine

section

variable {s t u w : State}

/-! ### The relation by what is visible and by mode -/

theorem SameButBuffering.visible_eq (h : SameButBuffering s t) : visible s = visible t := by
  simp only [visible, h.freq, h.pq, h.root, h.code, h.mode, h.acc, h.nbits, h.total, h.bitPhase, h.inp, h.envGrant,
    h.envInpGrant, h.pending, h.responses]

theorem SameButBuffering.produced_eq (h : SameButBuffering s t) (hmode : s.bs.mode = .write) : produced s = produced t :=
  h.written.resolve_right (not_not_intro hmode)

theorem SameButBuffering.data_eq (h : SameButBuffering s t) (hmode : s.bs.mode ≠ .write) : s.file.data = t.file.data :=
  h.present.resolve_right hmode

theorem SameButBuffering.data_eq_of_read (h : SameButBuffering s t) (hmode : s.bs.mode = .read) :
    s.file.data = t.file.data :=
  h.data_eq (hmode ▸ nofun)

theorem SameButBuffering.unread_eq (h : SameButBuffering s t) (hmode : s.bs.mode = .read) : unreadBytes s = unreadBytes t :=
  h.unread.resolve_right (not_not_intro hmode)

theorem sameButBuffering_of_visible (hv : visible s = visible t) (hwrite : s.bs.mode = .write → produced s = produced t)
    (hdata : s.bs.mode ≠ .write → s.file.data = t.file.data)
    (hread : s.bs.mode = .read → unreadBytes s = unreadBytes t) : SameButBuffering s t where
  freq := congrArg (·.freq) hv
  pq := congrArg (·.pq) hv
  root := congrArg (·.root) hv
  code := congrArg (·.code) hv
  mode := congrArg (·.bs.mode) hv
  acc := congrArg (·.bs.acc) hv
  nbits := congrArg (·.bs.nbits) hv
  total := congrArg (·.bs.total) hv
  bitPhase := congrArg (·.bs.bitPhase) hv
  inp := congrArg (·.inp) hv
  envGrant := congrArg (·.envGrant) hv
  envInpGrant := congrArg (·.envInpGrant) hv
  pending := congrArg (·.pending) hv
  responses := congrArg (·.responses) hv
  written := or_iff_not_imp_right.mpr fun hm => hwrite (not_not.mp hm)
  present := or_iff_not_imp_right.mpr hdata
  unread := or_iff_not_imp_right.mpr fun hm => hread (not_not.mp hm)

theorem sameButBuffering_of_closed (hv : visible s = visible t) (hmode : s.bs.mode = .closed)
    (hdata : s.file.data = t.file.data) : SameButBuffering s t :=
  sameButBuffering_of_visible hv (fun h => nomatch hmode.symm.trans h) (fun _ => hdata) (fun h => nomatch hmode.symm.trans h)

theorem sameButBuffering_of_write (hv : visible s = visible t) (hmode : s.bs.mode = .write)
    (hproduced : produced s = produced t) : SameButBuffering s t :=
  sameButBuffering_of_visible hv (fun _ => hproduced) (fun h => absurd hmode h) (fun h => nomatch hmode.symm.trans h)

theorem sameButBuffering_of_read (hv : visible s = visible t) (hmode : s.bs.mode = .read)
    (hdata : s.file.data = t.file.data) (hunread : unreadBytes s = unreadBytes t) : SameButBuffering s t :=
  sameButBuffering_of_visible hv (fun h => nomatch hmode.symm.trans h) (fun _ => hdata) (fun _ => hunread)

/-- A change of what is visible alone keeps the logical stream. -/
theorem SameButBuffering.of_stream_eq (h : SameButBuffering s t) (hv : visible u = visible w) (hus : u.bs = s.bs)
    (huf : u.file = s.file) (hws : w.bs = t.bs) (hwf : w.file = t.file) : SameButBuffering u w := by
  refine sameButBuffering_of_visible hv (fun hm => ?_) (fun hm => ?_) (fun hm => ?_)
  · simpa only [produced, hus, huf, hws, hwf] using h.produced_eq (hus ▸ hm)
  · simpa only [huf, hwf] using h.data_eq (hus ▸ hm)
  · simpa only [unreadBytes, fileRest, hus, huf, hws, hwf] using h.unread_eq (hus ▸ hm)

theorem SameButBuffering.respond (h : SameButBuffering s t) (st : Status) (v : Wide) :
    SameButBuffering (respond st v s) (respond st v t) :=
  h.of_stream_eq (congrArg (Machine.respond st v) h.visible_eq) rfl rfl rfl rfl

/-- Both commands answer next, with equal responses, and leave two states a host cannot tell apart. -/
def AnswerAlike (o o' : Host.Outcome State Fault Refusal) : Prop :=
  ∃ u w, o = .next u ∧ o' = .next w ∧ SameButBuffering u w

theorem AnswerAlike.answer (h : SameButBuffering u w) {v v' : Wide} (hv : v = v') :
    AnswerAlike (answer v u) (answer v' w) :=
  ⟨_, _, rfl, rfl, hv ▸ h.respond .ok v⟩

theorem AnswerAlike.refuse (h : SameButBuffering u w) {st : Status} : AnswerAlike (refuse st u) (refuse st w) :=
  ⟨_, _, rfl, rfl, h.respond st 0⟩

/-! ### The commands outside the bit stream and the tree codec -/

theorem visible_of_exec {i : Instr} (hi : writesStream i = false) (h3 : i ≠ .rdsr 3) (h11 : i ≠ .rdsr 11)
    (h : exec i s = .next u) : exec i (visible s) = .next (visible u) := by
  rw [exec_visible hi h3 h11, h]
  rfl

theorem SameButBuffering.exec_off_stream (h : SameButBuffering s t) {i : Instr} (hi : writesStream i = false)
    (h3 : i ≠ .rdsr 3) (h11 : i ≠ .rdsr 11) : AnswerAlike (exec i s) (exec i t) := by
  obtain ⟨u, st, v, -, hu⟩ := exec_completes i s
  obtain ⟨w, st', v', -, hw⟩ := exec_completes i t
  have hv : visible (Machine.respond st v u) = visible (Machine.respond st' v' w) := by
    have hs := visible_of_exec hi h3 h11 hu
    rw [h.visible_eq, visible_of_exec hi h3 h11 hw] at hs
    exact (Host.Outcome.next.inj hs).symm
  obtain ⟨hus, huf⟩ := (frame_of_exec hu).stream hi
  obtain ⟨hws, hwf⟩ := (frame_of_exec hw).stream hi
  exact ⟨_, _, hu, hw, h.of_stream_eq hv hus huf hws hwf⟩

end

end Sys2Proof.Claims
end

section
/-! Buffering is transparent, fourth part: each command that touches the stream, done in two states a host cannot tell
apart (40_bitstream.md R76 to R81; 43_tree_codec.md R143, R145; 44_system.md R157). -/

namespace Sys2Proof.Claims

open Sys2Proof.Machine

section

variable {s t : State}

/-! ### Open, close and SRESET (R76, R77, R157) -/

theorem SameButBuffering.opened (h : SameButBuffering s t) (hclosed : s.bs.mode = .closed) (mode : Mode) :
    SameButBuffering { s with bs := openedStream mode s.bs, file := openedFile mode s.file }
      { t with bs := openedStream mode t.bs, file := openedFile mode t.file } := by
  have hv := congrArg (fun x : State => { x with bs := openedStream mode x.bs }) h.visible_eq
  have hdata := h.data_eq (hclosed ▸ nofun)
  cases mode with
  | closed => exact sameButBuffering_of_closed hv rfl hdata
  | write => exact sameButBuffering_of_write hv rfl rfl
  | read => exact sameButBuffering_of_read hv rfl hdata hdata

theorem SameButBuffering.execBsOpen (h : SameButBuffering s t) (m : Byte) :
    AnswerAlike (execBsOpen m s) (execBsOpen m t) := by
  unfold Machine.execBsOpen
  cases modeOperand m with
  | none => exact .refuse h
  | some mode =>
    dsimp only
    rw [← h.mode]
    split
    · exact .refuse h
    · rename_i hclosed
      by_cases hgrant : s.envGrant = true
      · rw [if_pos hgrant, if_pos (h.envGrant ▸ hgrant)]
        exact .answer (h.opened (not_not.mp hclosed) mode) rfl
      · rw [if_neg hgrant, if_neg (h.envGrant ▸ hgrant)]
        exact .refuse h

theorem SameButBuffering.closed (hv : visible s = visible t) (hdata : s.file.data = t.file.data) :
    SameButBuffering { s with bs := closedStream s.bs } { t with bs := closedStream t.bs } :=
  sameButBuffering_of_closed (congrArg (fun x : State => { x with bs := closedStream x.bs }) hv) rfl hdata

/-- Every byte produced is in FILE after a write close, and with it the pad byte of the same pending bits (R77). -/
theorem SameButBuffering.finishWrite (h : SameButBuffering s t) (hmode : s.bs.mode = .write) :
    visible (finishWrite s) = visible (finishWrite t) ∧ (finishWrite s).file.data = (finishWrite t).file.data := by
  constructor
  · rw [visible_finishWrite, h.visible_eq, ← visible_finishWrite]
  · simp only [finishWrite_data, padByte, h.produced_eq hmode, h.acc, h.nbits]

theorem SameButBuffering.execBsClose (h : SameButBuffering s t) : AnswerAlike (execBsClose s) (execBsClose t) := by
  unfold Machine.execBsClose
  rw [← h.mode]
  cases hmode : s.bs.mode with
  | closed => exact .refuse h
  | write =>
    obtain ⟨hv, hdata⟩ := h.finishWrite hmode
    exact .answer (.closed hv hdata) (congrArg (·.bs.total) hv)
  | read => exact .answer (.closed h.visible_eq (h.data_eq_of_read hmode)) h.total

theorem SameButBuffering.execSreset (h : SameButBuffering s t) (hmode : s.bs.mode ≠ .write) :
    AnswerAlike (execSreset s) (execSreset t) := by
  have hv : visible (clearBlock s) = visible (clearBlock t) := congrArg clearBlock h.visible_eq
  exact .answer (sameButBuffering_of_closed hv rfl (h.data_eq hmode)) rfl

/-! ### Bits (R78, R79) -/

theorem SameButBuffering.writeBit (h : SameButBuffering s t) (hs : StreamInv s) (ht : StreamInv t)
    (hmode : s.bs.mode = .write) (bit : Bool) : SameButBuffering (writeBit bit s) (writeBit bit t) := by
  refine sameButBuffering_of_write ?_ ((writeBit_mode bit s).trans hmode) ?_
  · rw [visible_writeBit, h.visible_eq, ← visible_writeBit]
  · rw [produced_writeBit bit (hs.cur_lt_of_write hmode), produced_writeBit bit (ht.cur_lt_of_write (h.mode ▸ hmode)),
      h.produced_eq hmode, h.acc, h.nbits]

theorem SameButBuffering.execBsWbit (h : SameButBuffering s t) (hs : StreamInv s) (ht : StreamInv t) (b : Byte) :
    AnswerAlike (execBsWbit b s) (execBsWbit b t) := by
  unfold Machine.execBsWbit
  cases bitOperand b with
  | none => exact .refuse h
  | some bit =>
    dsimp only
    rw [← h.mode]
    split
    · exact .refuse h
    · exact .answer (h.writeBit hs ht (not_not.mp ‹_›) bit) rfl

/-- The byte fetched is the first unread one, wherever the buffer ends (R51). -/
theorem SameButBuffering.fetchByte (h : SameButBuffering s t) (hmode : s.bs.mode = .read) (hs : PrefetchInv s)
    (ht : PrefetchInv t) (hsb : 1 ≤ s.bufBytes) (htb : 1 ≤ t.bufBytes) :
    (fetchByte s).1 = (fetchByte t).1 ∧ SameButBuffering (fetchByte s).2 (fetchByte t).2 := by
  obtain ⟨hbyte, htotal, hunread⟩ := hs.fetchByte_outcome hsb
  obtain ⟨hbyte', htotal', hunread'⟩ := ht.fetchByte_outcome htb
  obtain ⟨hmode', -, -, -, hdata, -⟩ := fetchByte_frame s
  obtain ⟨-, -, -, -, hdata', -⟩ := fetchByte_frame t
  refine ⟨?_, sameButBuffering_of_read ?_ (hmode'.trans hmode) ?_ ?_⟩
  · rw [hbyte, hbyte', h.unread_eq hmode]
  · rw [visible_fetchByte, visible_fetchByte, htotal, htotal', h.visible_eq, h.total, h.unread_eq hmode]
  · rw [hdata, hdata', h.data_eq_of_read hmode]
  · rw [hunread, hunread', h.unread_eq hmode]

theorem SameButBuffering.enterBitPhase (h : SameButBuffering s t) (hmode : s.bs.mode = .read) :
    SameButBuffering (enterBitPhase s) (enterBitPhase t) :=
  sameButBuffering_of_read (congrArg Machine.enterBitPhase h.visible_eq) hmode (h.data_eq_of_read hmode) (h.unread_eq hmode)

theorem SameButBuffering.loadByte (h : SameButBuffering s t) (hmode : s.bs.mode = .read) (v : Byte) :
    SameButBuffering (loadByte v s) (loadByte v t) :=
  sameButBuffering_of_read (congrArg (Machine.loadByte v) h.visible_eq) hmode (h.data_eq_of_read hmode) (h.unread_eq hmode)

theorem SameButBuffering.takeBit (h : SameButBuffering s t) (hmode : s.bs.mode = .read) :
    SameButBuffering (takeBit s) (takeBit t) :=
  sameButBuffering_of_read (congrArg Machine.takeBit h.visible_eq) hmode (h.data_eq_of_read hmode) (h.unread_eq hmode)

theorem answerFetched_alike {p p' : Option Byte × State} (hbyte : p.1 = p'.1) (h : SameButBuffering p.2 p'.2)
    (hmode : p.2.bs.mode = .read) : AnswerAlike (answerFetched p) (answerFetched p') := by
  obtain ⟨o, u⟩ := p
  obtain ⟨o', w⟩ := p'
  obtain rfl : o = o' := hbyte
  cases o with
  | none => exact .refuse h
  | some v => exact .answer ((h.loadByte hmode v).takeBit hmode) rfl

theorem SameButBuffering.execBsRbit (h : SameButBuffering s t) (hs : StreamInv s) (ht : StreamInv t) :
    AnswerAlike (execBsRbit s) (execBsRbit t) := by
  by_cases hmode : s.bs.mode = .read
  · have hmode' : t.bs.mode = .read := h.mode ▸ hmode
    by_cases hnbits : s.bs.nbits = 0
    · rw [execBsRbit_of_fetch hmode hnbits, execBsRbit_of_fetch hmode' (h.nbits ▸ hnbits)]
      obtain ⟨hbyte, hsame⟩ := (h.enterBitPhase hmode).fetchByte hmode (hs.prefetch hmode).enterBitPhase
        (ht.prefetch hmode').enterBitPhase hs.param ht.param
      exact answerFetched_alike hbyte hsame ((fetchByte_frame (Machine.enterBitPhase s)).1.trans hmode)
    · rw [execBsRbit_of_shift hmode hnbits, execBsRbit_of_shift hmode' (h.nbits ▸ hnbits)]
      exact .answer ((h.enterBitPhase hmode).takeBit hmode) (by rw [topBit, topBit, h.acc])
  · rw [execBsRbit_of_mode hmode, execBsRbit_of_mode (h.mode ▸ hmode)]
    exact .refuse h

/-! ### Header commands (R80, R81, R143, R145): the batch buffer is empty -/

theorem SameButBuffering.headerCheck_eq (h : SameButBuffering s t) (m : Mode) : headerCheck m s = headerCheck m t := by
  simp only [headerCheck, h.mode, h.bitPhase]

theorem SameButBuffering.appendHeader (h : SameButBuffering s t) (hs : StreamInv s) (ht : StreamInv t)
    (hcheck : headerCheck .write s = none) (d : List Byte) : SameButBuffering (appendHeader d s) (appendHeader d t) := by
  obtain ⟨hmode, -⟩ := (headerCheck_eq_none_iff .write s).mp hcheck
  refine sameButBuffering_of_write (congrArg (addTotal d.length) h.visible_eq) hmode ?_
  rw [hs.produced_appendHeader hcheck, ht.produced_appendHeader (h.headerCheck_eq .write ▸ hcheck), h.produced_eq hmode]

theorem SameButBuffering.execBsWu64 (h : SameButBuffering s t) (hs : StreamInv s) (ht : StreamInv t) (v : Wide) :
    AnswerAlike (execBsWu64 v s) (execBsWu64 v t) := by
  unfold Machine.execBsWu64
  rw [← h.headerCheck_eq]
  cases hcheck : headerCheck .write s with
  | some e => exact .refuse h
  | none => exact .answer (h.appendHeader hs ht hcheck (bytesOfU64 v)) rfl

theorem SameButBuffering.execTcWtree (h : SameButBuffering s t) (hs : StreamInv s) (ht : StreamInv t) :
    AnswerAlike (execTcWtree s) (execTcWtree t) := by
  unfold Machine.execTcWtree
  rw [← h.headerCheck_eq, ← h.root]
  cases hcheck : headerCheck .write s with
  | some e => exact .refuse h
  | none => exact .answer (h.appendHeader hs ht hcheck (ser s.root)) rfl

/-- The same tree and queue put into both states. -/
theorem SameButBuffering.set_tree (h : SameButBuffering s t) (r : Option Machine.Tree) (q : Queue) :
    SameButBuffering { s with root := r, pq := q } { t with root := r, pq := q } :=
  h.of_stream_eq (congrArg (fun x : State => { x with root := r, pq := q }) h.visible_eq) rfl rfl rfl rfl

section

variable (h : SameButBuffering s t) (hs : StreamInv s) (ht : StreamInv t)
include h hs ht

theorem SameButBuffering.fileRest_eq (hcheck : headerCheck .read s = none) : fileRest s = fileRest t := by
  obtain ⟨hmode, -⟩ := (headerCheck_eq_none_iff .read s).mp hcheck
  have havail' := ht.avail_of_header (h.headerCheck_eq .read ▸ hcheck)
  rw [← unreadBytes_of_avail (hs.avail_of_header hcheck), h.unread_eq hmode, unreadBytes_of_avail havail']

theorem SameButBuffering.consumeHeader (hcheck : headerCheck .read s = none) (n : Nat) :
    SameButBuffering (consumeHeader n s) (consumeHeader n t) := by
  obtain ⟨hmode, -⟩ := (headerCheck_eq_none_iff .read s).mp hcheck
  have havail := hs.avail_of_header hcheck
  have havail' := ht.avail_of_header (h.headerCheck_eq .read ▸ hcheck)
  have hrest (x : State) : fileRest (Machine.consumeHeader n x) = (fileRest x).drop n := fileRest_advance n x
  refine sameButBuffering_of_read (congrArg (addTotal n) h.visible_eq) hmode (h.data_eq_of_read hmode) ?_
  rw [unreadBytes_of_avail (s := Machine.consumeHeader n s) havail,
    unreadBytes_of_avail (s := Machine.consumeHeader n t) havail', hrest, hrest, h.fileRest_eq hs ht hcheck]

theorem SameButBuffering.execBsRu64 : AnswerAlike (execBsRu64 s) (execBsRu64 t) := by
  cases hcheck : headerCheck .read s with
  | some e =>
    rw [Machine.execBsRu64, Machine.execBsRu64, ← h.headerCheck_eq, hcheck]
    exact .refuse h
  | none =>
    have hsame := h.consumeHeader hs ht hcheck ((fileRest s).take 8).length
    rw [execBsRu64_of_header hcheck, execBsRu64_of_header (h.headerCheck_eq .read ▸ hcheck),
      ← h.fileRest_eq hs ht hcheck]
    split
    · exact .refuse hsame
    · exact .answer hsame rfl

theorem SameButBuffering.execTcRtree : AnswerAlike (execTcRtree s) (execTcRtree t) := by
  unfold Machine.execTcRtree
  rw [← h.headerCheck_eq]
  cases hcheck : headerCheck .read s with
  | some e => exact .refuse h
  | none =>
    simp only [← h.fileRest_eq hs ht hcheck]
    generalize parse .opening 0 Queue.fresh (fileRest s) = p
    have hsame := (h.consumeHeader hs ht hcheck p.taken).set_tree
    cases p.good with
    | false => exact .refuse (hsame none { p.pq with slots := [] })
    | true =>
      simp only [afterParse_pq, if_true]
      rcases p.pq.merge with ⟨_ | x, q⟩
      · exact .refuse (hsame none q)
      · exact .answer (hsame (some x) q) (congrArg₂ (· - ·) (hsame none q).total h.total)

end

end

end Sys2Proof.Claims

namespace Sys2Proof.Machine

open Sys2Proof.Claims

/-- Settles O54: a command outside the stream does not look at the batch buffer; the others one by one, by what they do to
the bytes produced or unread. -/
theorem bufferingIsTransparent : Obligations.BufferingIsTransparent := by
  intro i s t hs ht h h3 h11 hreset
  cases i with
  | bsOpen m => exact h.execBsOpen m
  | bsClose => exact h.execBsClose
  | bsWbit b => exact h.execBsWbit hs ht b
  | bsRbit => exact h.execBsRbit hs ht
  | bsWu64 v => exact h.execBsWu64 hs ht v
  | bsRu64 => exact h.execBsRu64 hs ht
  | tcWtree => exact h.execTcWtree hs ht
  | tcRtree => exact h.execTcRtree hs ht
  | sreset => exact h.execSreset (hreset rfl)
  | _ => exact h.exec_off_stream rfl h3 h11

end Sys2Proof.Machine
end

section
/-! The encoder and the decoder undo each other (30_encoding.md R60, R61, R64), and the decoder takes the four steps of R68. -/

namespace Sys2Proof

open Sys2Proof.Claims

/-! ### Decoding what was encoded -/

/-- The command with its ARG operand replaced: only PQ_ENQ and BS_WU64 read ARG (R61). -/
def Instr.withArg (arg : Wide) : Instr → Instr
  | .pqEnq sym _ => .pqEnq sym arg
  | .bsWu64 _ => .bsWu64 arg
  | i => i

@[simp] theorem Instr.withArg_argOf (i : Instr) : i.withArg i.argOf = i := by
  cases i <;> rfl

theorem Instr.withArg_of_ne {i : Instr} (henq : ∀ sym c, i ≠ .pqEnq sym c) (hwu : ∀ v, i ≠ .bsWu64 v) (arg : Wide) :
    i.withArg arg = i := by
  cases i with
  | pqEnq sym c => exact absurd rfl (henq sym c)
  | bsWu64 v => exact absurd rfl (hwu v)
  | _ => rfl

/-- The OPC and IMM8 of a command select that command in the opcode map of R64; ARG fills the operand that reads it. -/
theorem decodeOpcode_opcode_imm8 (i : Instr) (arg : Wide) : decodeOpcode i.opcode i.imm8 arg = .ok (i.withArg arg) := by
  cases i <;> rfl

theorem decode_packWord (opc imm : Byte) (arg : Wide) : decode (packWord opc imm) arg = decodeOpcode opc imm arg := by
  simp [decode]

theorem decode_encode_word (i : Instr) (arg : Wide) : decode (encode i).1 arg = .ok (i.withArg arg) :=
  (decode_packWord i.opcode i.imm8 arg).trans (decodeOpcode_opcode_imm8 i arg)

/-- Settles O2: the encoded word selects the command whatever ARG is, and the encoded ARG is the command's own. -/
theorem decodeUndoesEncode : Obligations.DecodeUndoesEncode := fun i =>
  (decode_encode_word i i.argOf).trans (congrArg Except.ok i.withArg_argOf)

/-! ### What OPC selects (R64, R66, R67) -/

theorem withoutImm_of_ne {imm : Byte} (i : Instr) (himm : imm ≠ 0) : withoutImm imm i = .error .unusedImmediate :=
  if_neg himm

/-- What the opcode map answers for an OPC and an IMM8: steps (2) to (4) of R68, one constructor for each kind of OPC. -/
inductive Selects (opc imm : Byte) : Except DecodeError Instr → Prop
  | plain {i} (hmem : opc.toNat ∈ plainOpcodes) (hopc : i.opcode.toNat = opc.toNat) (himm : i.imm8 = 0) :
      Selects opc imm (withoutImm imm i)
  | immediate {i} (hmem : opc.toNat ∈ immOpcodes) (hopc : i.opcode.toNat = opc.toNat) (himm : i.imm8 = imm) :
      Selects opc imm (.ok i)
  | unassigned (hmem : opc.toNat ∉ plainOpcodes ++ immOpcodes) : Selects opc imm (.error .unassignedOpcode)

theorem selects_decodeOpcode (opc imm : Byte) (arg : Wide) : Selects opc imm (decodeOpcode opc imm arg) := by
  unfold decodeOpcode
  split
  case h_3 h | h_5 h | h_9 h | h_14 h | h_16 h | h_17 h | h_19 h | h_20 h | h_22 h | h_29 h =>
    exact .immediate (by rw [h]; decide) h.symm rfl
  case h_31 => exact .unassigned (by simp_all [plainOpcodes, immOpcodes])
  all_goals
    rename_i h
    exact .plain (by rw [h]; decide) h.symm rfl

/-- No OPC both takes an immediate and takes none. -/
theorem not_mem_immOpcodes_of_mem_plainOpcodes : ∀ n ∈ plainOpcodes, n ∉ immOpcodes := by decide

section

variable {opc imm : Byte} {o : Except DecodeError Instr}

/-- The command selected has that OPC, and IMM8 is its operand, or 0 when it takes none. -/
theorem Selects.fields {i : Instr} (h : Selects opc imm o) (ho : o = .ok i) : i.opcode = opc ∧ i.imm8 = imm := by
  cases h with
  | plain _ hopc himm =>
    by_cases hzero : imm = 0
    · subst hzero
      cases ho
      exact ⟨BitVec.eq_of_toNat_eq hopc, himm⟩
    · rw [withoutImm_of_ne _ hzero] at ho
      cases ho
  | immediate _ hopc himm =>
    cases ho
    exact ⟨BitVec.eq_of_toNat_eq hopc, himm⟩
  | unassigned => cases ho

theorem Selects.of_unassigned (h : Selects opc imm o) (hopc : opc.toNat ∉ plainOpcodes ++ immOpcodes) :
    o = .error .unassignedOpcode := by
  cases h with
  | plain hmem => exact absurd (List.mem_append_left _ hmem) hopc
  | immediate hmem => exact absurd (List.mem_append_right _ hmem) hopc
  | unassigned => rfl

theorem Selects.of_unusedImmediate (h : Selects opc imm o) (hopc : opc.toNat ∈ plainOpcodes) (himm : imm ≠ 0) :
    o = .error .unusedImmediate := by
  cases h with
  | plain => exact withoutImm_of_ne _ himm
  | immediate hmem => exact absurd hmem (not_mem_immOpcodes_of_mem_plainOpcodes _ hopc)
  | unassigned hmem => exact absurd (List.mem_append_left _ hopc) hmem

theorem Selects.of_assigned (h : Selects opc imm o)
    (hopc : opc.toNat ∈ plainOpcodes ∧ imm = 0 ∨ opc.toNat ∈ immOpcodes) : ∃ i, o = .ok i := by
  cases h with
  | plain hmem =>
    obtain ⟨-, rfl⟩ | himm := hopc
    · exact ⟨_, rfl⟩
    · exact absurd himm (not_mem_immOpcodes_of_mem_plainOpcodes _ hmem)
  | immediate => exact ⟨_, rfl⟩
  | unassigned hmem => exact absurd (List.mem_append.mpr (hopc.imp_left And.left)) hmem

end

theorem decode_of_rsvField_eq_zero {cw : CmdWord} (h : rsvField cw = 0) (arg : Wide) :
    decode cw arg = decodeOpcode (opcField cw) (immField cw) arg :=
  if_pos h

theorem decode_of_rsvField_ne_zero {cw : CmdWord} (h : rsvField cw ≠ 0) (arg : Wide) :
    decode cw arg = .error .reservedBits :=
  if_neg h

/-- A word that decodes has RSV = 0 and is made of the OPC and IMM8 of its command. -/
theorem fields_of_decode {cw : CmdWord} {arg : Wide} {i : Instr} (h : decode cw arg = .ok i) :
    rsvField cw = 0 ∧ i.opcode = opcField cw ∧ i.imm8 = immField cw := by
  by_cases hrsv : rsvField cw = 0
  · rw [decode_of_rsvField_eq_zero hrsv] at h
    exact ⟨hrsv, (selects_decodeOpcode _ _ arg).fields h⟩
  · rw [decode_of_rsvField_ne_zero hrsv] at h
    cases h

theorem encode_word_of_decode {cw : CmdWord} {arg : Wide} {i : Instr} (h : decode cw arg = .ok i) : (encode i).1 = cw := by
  obtain ⟨hrsv, hopc, himm⟩ := fields_of_decode h
  rw [encode, hopc, himm, packWord_fields hrsv]

/-- Settles O3: a legal word is the encoded word of its command, so `decode_encode_word` says what it decodes to with any
other ARG. -/
theorem encodeUndoesDecode : Obligations.EncodeUndoesDecode := by
  intro cw arg i h
  obtain rfl := encode_word_of_decode h
  exact ⟨rfl, decodeUndoesEncode i, fun henq hwu arg' => by rw [decode_encode_word, Instr.withArg_of_ne henq hwu]⟩

/-! ### The four steps of R68, by division of the word -/

theorem toNat_opcField (cw : CmdWord) : (opcField cw).toNat = opcNat cw := opcField_toNat cw

theorem toNat_immField (cw : CmdWord) : (immField cw).toNat = immNat cw := immField_toNat cw

theorem immField_eq_zero_iff (cw : CmdWord) : immField cw = 0 ↔ immNat cw = 0 := by
  rw [← BitVec.toNat_inj, toNat_immField]
  rfl

theorem rsvField_eq_zero_iff (cw : CmdWord) : rsvField cw = 0 ↔ rsvNat cw = 0 := by
  rw [← BitVec.toNat_inj, rsvField_toNat]
  rfl

/-- A word that passes steps (1) to (3) of R68. -/
def Legal (cw : CmdWord) : Prop :=
  rsvNat cw = 0 ∧ (opcNat cw ∈ plainOpcodes ∧ immNat cw = 0 ∨ opcNat cw ∈ immOpcodes)

section

variable {cw : CmdWord} (arg : Wide)

theorem decode_of_reservedBits (hrsv : rsvNat cw ≠ 0) : decode cw arg = .error .reservedBits :=
  decode_of_rsvField_ne_zero (mt (rsvField_eq_zero_iff cw).mp hrsv) arg

/-- Past step (1) the opcode map decides. -/
theorem selects_decode (hrsv : rsvNat cw = 0) : Selects (opcField cw) (immField cw) (decode cw arg) := by
  rw [decode_of_rsvField_eq_zero ((rsvField_eq_zero_iff cw).mpr hrsv)]
  exact selects_decodeOpcode _ _ arg

theorem decode_of_unassigned (hrsv : rsvNat cw = 0) (hopc : opcNat cw ∉ plainOpcodes ++ immOpcodes) :
    decode cw arg = .error .unassignedOpcode :=
  (selects_decode arg hrsv).of_unassigned hopc

theorem decode_of_unusedImmediate (hrsv : rsvNat cw = 0) (hopc : opcNat cw ∈ plainOpcodes) (himm : immNat cw ≠ 0) :
    decode cw arg = .error .unusedImmediate :=
  (selects_decode arg hrsv).of_unusedImmediate hopc (mt (immField_eq_zero_iff cw).mp himm)

theorem exists_decode_of_legal (h : Legal cw) : ∃ i, decode cw arg = .ok i := by
  obtain ⟨hrsv, hopc⟩ := h
  refine (selects_decode arg hrsv).of_assigned ?_
  rwa [immField_eq_zero_iff, toNat_opcField]

/-- The three kinds of illegal word (R65, R66, R67). -/
theorem not_legal_iff : ¬ Legal cw ↔
    rsvNat cw ≠ 0 ∨ opcNat cw ∉ plainOpcodes ++ immOpcodes ∨ (opcNat cw ∈ plainOpcodes ∧ immNat cw ≠ 0) := by
  have hdisjoint := not_mem_immOpcodes_of_mem_plainOpcodes (opcNat cw)
  rw [Legal, List.mem_append]
  tauto

theorem exists_decodeError_of_not_legal (h : ¬ Legal cw) : ∃ e, decode cw arg = .error e := by
  by_cases hrsv : rsvNat cw = 0
  · obtain hres | hopc | ⟨hopc, himm⟩ := not_legal_iff.mp h
    · exact absurd hrsv hres
    · exact ⟨_, decode_of_unassigned arg hrsv hopc⟩
    · exact ⟨_, decode_of_unusedImmediate arg hrsv hopc himm⟩
  · exact ⟨_, decode_of_reservedBits arg hrsv⟩

theorem exists_decode_iff_legal : (∃ i, decode cw arg = .ok i) ↔ Legal cw := by
  refine ⟨fun ⟨i, hi⟩ => ?_, exists_decode_of_legal arg⟩
  by_contra h
  obtain ⟨e, he⟩ := exists_decodeError_of_not_legal arg h
  rw [hi] at he
  cases he

end

/-! ### The match and mask pairs of the opcode table (R68) -/

/-- The row of a command without an immediate: every bit of CW is matched. -/
def plainRow (n : Nat) : CmdWord × CmdWord := (BitVec.ofNat 32 n, 0xFFFFFFFF)

/-- The row of a command with an immediate: every bit but those of IMM8 is matched. -/
def immRow (n : Nat) : CmdWord × CmdWord := (BitVec.ofNat 32 n, 0xFFFF00FF)

theorem opcodeTable_perm : opcodeTable.Perm (plainOpcodes.map plainRow ++ immOpcodes.map immRow) := by decide

theorem mem_opcodeTable_iff (row : CmdWord × CmdWord) :
    row ∈ opcodeTable ↔ (∃ n ∈ plainOpcodes, plainRow n = row) ∨ (∃ n ∈ immOpcodes, immRow n = row) := by
  rw [opcodeTable_perm.mem_iff, List.mem_append, List.mem_map, List.mem_map]

theorem lt_of_mem_opcodes : ∀ n ∈ plainOpcodes ++ immOpcodes, n < 256 := by decide

/-- The word that an OPC alone makes. -/
theorem eq_ofNat_iff (cw : CmdWord) {n : Nat} (hn : n < 256) :
    cw = BitVec.ofNat 32 n ↔ rsvNat cw = 0 ∧ immNat cw = 0 ∧ opcNat cw = n := by
  have hlt := cw.isLt
  rw [← BitVec.toNat_inj, BitVec.toNat_ofNat]
  unfold rsvNat immNat opcNat
  omega

/-- The mask of a row with an immediate keeps RSV and OPC and clears IMM8. -/
theorem fields_and_immMask (cw : CmdWord) : rsvField (cw &&& 0xFFFF00FF) = rsvField cw ∧
    immField (cw &&& 0xFFFF00FF) = 0 ∧ opcField (cw &&& 0xFFFF00FF) = opcField cw := by
  refine ⟨?_, ?_, ?_⟩
  · rw [rsvField, BitVec.extractLsb'_and]
    exact BitVec.and_allOnes
  · rw [immField, BitVec.extractLsb'_and]
    exact BitVec.and_zero
  · rw [opcField, BitVec.extractLsb'_and]
    exact BitVec.and_allOnes

theorem and_plainRow_eq_iff (cw : CmdWord) {n : Nat} (hn : n < 256) :
    cw &&& (plainRow n).2 = (plainRow n).1 ↔ rsvNat cw = 0 ∧ immNat cw = 0 ∧ opcNat cw = n := by
  have hmask : cw &&& (plainRow n).2 = cw := BitVec.and_allOnes
  rw [hmask]
  exact eq_ofNat_iff cw hn

theorem and_immRow_eq_iff (cw : CmdWord) {n : Nat} (hn : n < 256) :
    cw &&& (immRow n).2 = (immRow n).1 ↔ rsvNat cw = 0 ∧ opcNat cw = n := by
  obtain ⟨hrsv, himm, hopc⟩ := fields_and_immMask cw
  simp only [immRow, eq_ofNat_iff _ hn, ← rsvField_eq_zero_iff, ← immField_eq_zero_iff, ← toNat_opcField, hrsv, himm, hopc,
    true_and]

theorem exists_matching_row_iff_legal (cw : CmdWord) : (∃ row ∈ opcodeTable, cw &&& row.2 = row.1) ↔ Legal cw := by
  constructor
  · rintro ⟨row, hmem, hrow⟩
    obtain ⟨n, hn, rfl⟩ | ⟨n, hn, rfl⟩ := (mem_opcodeTable_iff row).mp hmem
    · obtain ⟨hrsv, himm, rfl⟩ := (and_plainRow_eq_iff cw (lt_of_mem_opcodes n (List.mem_append_left _ hn))).mp hrow
      exact ⟨hrsv, .inl ⟨hn, himm⟩⟩
    · obtain ⟨hrsv, rfl⟩ := (and_immRow_eq_iff cw (lt_of_mem_opcodes n (List.mem_append_right _ hn))).mp hrow
      exact ⟨hrsv, .inr hn⟩
  · have hlt : opcNat cw < 256 := Nat.mod_lt _ (by decide)
    rintro ⟨hrsv, ⟨hopc, himm⟩ | hopc⟩
    · exact ⟨_, (mem_opcodeTable_iff _).mpr (.inl ⟨_, hopc, rfl⟩), (and_plainRow_eq_iff cw hlt).mpr ⟨hrsv, himm, rfl⟩⟩
    · exact ⟨_, (mem_opcodeTable_iff _).mpr (.inr ⟨_, hopc, rfl⟩), (and_immRow_eq_iff cw hlt).mpr ⟨hrsv, rfl⟩⟩

/-- Settles O4: each step's answer is the opcode map's; a word decodes, and fits a row, exactly when it is legal. -/
theorem decodeFollowsTheFourSteps : Obligations.DecodeFollowsTheFourSteps := by
  intro cw arg
  refine ⟨decode_of_reservedBits arg, decode_of_unassigned arg, decode_of_unusedImmediate arg, fun hrsv hopc => ?_,
    (exists_decode_iff_legal arg).trans (exists_matching_row_iff_legal cw).symm⟩
  obtain ⟨i, hi⟩ := exists_decode_of_legal arg ⟨hrsv, hopc⟩
  obtain ⟨-, hiopc, hiimm⟩ := fields_of_decode hi
  exact ⟨i, hi, by rw [hiopc, toNat_opcField], by rw [hiimm, toNat_immField]⟩

/-! ### Words written out from the spec -/

/-- Settles O1: the decoder evaluated on each word. -/
theorem specWordsDecode : Obligations.SpecWordsDecode := by
  unfold Obligations.SpecWordsDecode
  decide

end Sys2Proof
end

section
/-! What the block does with an illegal word (30_encoding.md R65 to R67). -/

namespace Sys2Proof.Machine

open Sys2Proof.Claims

theorem perform_of_not_legal {cw : CmdWord} (h : ¬ Legal cw) (arg : Wide) (s : State) :
    perform cw arg s = .next (respond .eIllegal 0 s) := by
  obtain ⟨e, he⟩ := exists_decodeError_of_not_legal arg h
  rw [perform, he]
  rfl

/-- Settles O5: no illegal word decodes, and a word that does not decode is answered and no more. -/
theorem illegalWordsAnswerEIllegal : Obligations.IllegalWordsAnswerEIllegal := by
  intro s cw arg g gi rest hpend hillegal
  rw [step_of_pending_command hpend, perform_of_not_legal (not_legal_iff.mpr hillegal)]

end Sys2Proof.Machine
end

section
/-! The responses of a run (30_encoding.md R62; 70_reset_and_hazards.md R163): a command ends with exactly one, an event that
is no command with none. -/

namespace Sys2Proof.Machine

open Sys2Proof.Claims

/-- The two ways a command ends: it answers OK, or it refuses with a status of its row of R163 and RESULT 0. -/
inductive Ends (i : Instr) : Host.Outcome State Fault Refusal → Prop
  | answer (v : Wide) (u : State) : Ends i (answer v u)
  | refuse {st : Status} (u : State) (hrow : (failuresOf i).contains st = true) : Ends i (refuse st u)

/-- A header command refused by the checks of R75. -/
theorem Ends.refuseHeader {i : Instr} {m : Mode} {s : State} {st : Status} (hcheck : headerCheck m s = some st)
    (hmode : (failuresOf i).contains .eMode = true) (hphase : (failuresOf i).contains .ePhase = true) :
    Ends i (Machine.refuse st s) := by
  obtain rfl | rfl := headerCheck_cases hcheck
  · exact .refuse s hmode
  · exact .refuse s hphase

/-! ### The commands with more than one outcome -/

theorem execFreqScan_ends (s : State) : Ends .freqScan (execFreqScan s) := by
  dsimp only [execFreqScan]
  split
  · exact .answer _ _
  · exact .refuse _ rfl

theorem execHtMerge_ends (s : State) : Ends .htMerge (execHtMerge s) := by
  dsimp only [execHtMerge]
  split
  · exact .refuse _ rfl
  · exact .answer _ _

theorem execHtBuild_ends (s : State) : Ends .htBuild (execHtBuild s) := by
  dsimp only [execHtBuild]
  split
  · split
    · exact .refuse _ rfl
    · exact .answer _ _
  · exact .refuse _ rfl

theorem execHtCode_ends (sym : Symbol) (s : State) : Ends (.htCode sym) (execHtCode sym s) := by
  dsimp only [execHtCode]
  split
  · exact .refuse _ rfl
  · split
    · exact .refuse _ rfl
    · exact .answer _ _

theorem execHtFind_ends (s : State) : Ends .htFind (execHtFind s) := by
  dsimp only [execHtFind]
  split
  · exact .refuse _ rfl
  · split
    · exact .answer _ _
    · exact .refuse _ rfl
    · exact .refuse _ rfl

theorem execPqDeq_ends (s : State) : Ends .pqDeq (execPqDeq s) := by
  dsimp only [execPqDeq]
  split
  · exact .refuse _ rfl
  · exact .answer _ _

theorem execPqPeekc_ends (idx : Byte) (s : State) : Ends (.pqPeekc idx) (execPqPeekc idx s) := by
  dsimp only [execPqPeekc]
  split
  · exact .refuse _ rfl
  · exact .answer _ _

theorem execPqPeekk_ends (idx : Byte) (s : State) : Ends (.pqPeekk idx) (execPqPeekk idx s) := by
  dsimp only [execPqPeekk]
  split
  · exact .refuse _ rfl
  · exact .answer _ _

theorem execCodePush_ends (b : Byte) (s : State) : Ends (.codePush b) (execCodePush b s) := by
  dsimp only [execCodePush]
  split
  · exact .refuse _ rfl
  · split
    · exact .refuse _ rfl
    · exact .answer _ _

theorem execBsOpen_ends (m : Byte) (s : State) : Ends (.bsOpen m) (execBsOpen m s) := by
  dsimp only [execBsOpen]
  split
  · exact .refuse _ rfl
  · split
    · exact .refuse _ rfl
    · split
      · exact .answer _ _
      · exact .refuse _ rfl

theorem execBsClose_ends (s : State) : Ends .bsClose (execBsClose s) := by
  dsimp only [execBsClose]
  split
  · exact .refuse _ rfl
  · exact .answer _ _
  · exact .answer _ _

theorem execBsWbit_ends (b : Byte) (s : State) : Ends (.bsWbit b) (execBsWbit b s) := by
  dsimp only [execBsWbit]
  split
  · exact .refuse _ rfl
  · split
    · exact .refuse _ rfl
    · exact .answer _ _

theorem execBsRbit_ends (s : State) : Ends .bsRbit (execBsRbit s) := by
  dsimp only [execBsRbit]
  split
  · exact .refuse _ rfl
  · split
    · split
      · exact .refuse _ rfl
      · exact .answer _ _
    · exact .answer _ _

theorem execBsWu64_ends (v : Wide) (s : State) : Ends (.bsWu64 v) (execBsWu64 v s) := by
  dsimp only [execBsWu64]
  split
  · exact .refuseHeader ‹_› rfl rfl
  · exact .answer _ _

theorem execBsRu64_ends (s : State) : Ends .bsRu64 (execBsRu64 s) := by
  dsimp only [execBsRu64]
  split
  · exact .refuseHeader ‹_› rfl rfl
  · split
    · exact .refuse _ rfl
    · exact .answer _ _

theorem execTcWtree_ends (s : State) : Ends .tcWtree (execTcWtree s) := by
  dsimp only [execTcWtree]
  split
  · exact .refuseHeader ‹_› rfl rfl
  · exact .answer _ _

theorem execTcRtree_ends (s : State) : Ends .tcRtree (execTcRtree s) := by
  dsimp only [execTcRtree]
  split
  · exact .refuseHeader ‹_› rfl rfl
  · split
    · split
      · exact .refuse _ rfl
      · exact .answer _ _
    · exact .refuse _ rfl

theorem execRdsr_ends (idx : Byte) (s : State) : Ends (.rdsr idx) (execRdsr idx s) := by
  dsimp only [execRdsr]
  split
  · exact .answer _ _
  · exact .refuse _ rfl

/-- Every command in every state ends by a response of its row (R163). -/
theorem exec_ends (i : Instr) (s : State) : Ends i (exec i s) := by
  cases i with
  | freqScan => exact execFreqScan_ends s
  | htMerge => exact execHtMerge_ends s
  | htBuild => exact execHtBuild_ends s
  | htCode sym => exact execHtCode_ends sym s
  | htFind => exact execHtFind_ends s
  | pqDeq => exact execPqDeq_ends s
  | pqPeekc idx => exact execPqPeekc_ends idx s
  | pqPeekk idx => exact execPqPeekk_ends idx s
  | codePush b => exact execCodePush_ends b s
  | bsOpen m => exact execBsOpen_ends m s
  | bsClose => exact execBsClose_ends s
  | bsWbit b => exact execBsWbit_ends b s
  | bsRbit => exact execBsRbit_ends s
  | bsWu64 v => exact execBsWu64_ends v s
  | bsRu64 => exact execBsRu64_ends s
  | tcWtree => exact execTcWtree_ends s
  | tcRtree => exact execTcRtree_ends s
  | rdsr idx => exact execRdsr_ends idx s
  | _ => exact .answer _ _

/-- No effect of a command touches the host's record; only the response does (R62). -/
theorem Effect.responses_eq {i : Instr} {s u : State} (h : Effect s i u) : u.responses = s.responses := by
  cases h with
  | bsCloseWrite =>
    obtain ⟨b, d, he, -⟩ := finishWrite_eq s
    rw [he]
  | @bsWbit _ bit =>
    obtain ⟨b, d, he, -⟩ := writeBit_eq bit s
    rw [he]
  | bsRbitEnd _ _ hfetch =>
    obtain ⟨b, n, rfl, -⟩ := eq_of_fetchByte hfetch
    rfl
  | bsRbitFetch _ _ hfetch =>
    obtain ⟨b, n, rfl, -⟩ := eq_of_fetchByte hfetch
    rfl
  | _ => rfl

/-- The response a command gives is one its row of R163 allows, and has RESULT 0 unless it is OK. -/
structure Response.Allowed (i : Instr) (r : Response) : Prop where
  status : r.status = .ok ∨ r.status ∈ failuresOf i
  result : r.status ≠ .ok → r.result = 0

theorem Ends.allowed {i : Instr} {u : State} {r : Response} {l : List Response} {o : Host.Outcome State Fault Refusal}
    (h : Ends i o) (ho : o = .next u) (hl : u.responses = r :: l) : r.Allowed i := by
  cases h with
  | answer v u =>
    cases ho
    cases hl
    exact ⟨.inl rfl, absurd rfl⟩
  | refuse u hrow =>
    cases ho
    cases hl
    exact ⟨.inr (List.contains_iff_mem.mp hrow), fun _ => rfl⟩

/-- A command gives exactly one response (R62). -/
theorem responses_of_exec {i : Instr} {s t : State} (h : exec i s = .next t) :
    ∃ r, t.responses = r :: s.responses ∧ r.Allowed i := by
  obtain ⟨u, st, v, heff, rfl⟩ := exists_effect_of_exec h
  have hl : (respond st v u).responses = ⟨st, v⟩ :: s.responses := by rw [respond_responses, heff.responses_eq]
  exact ⟨_, hl, (exec_ends i s).allowed h hl⟩

/-- The responses after an event: none added, or one with RESULT 0 unless OK (R62). -/
def Extends (l l' : List Response) : Prop :=
  l' = l ∨ ∃ r, l' = r :: l ∧ (r.status ≠ .ok → r.result = 0)

theorem perform_extends {cw : CmdWord} {arg : Wide} {s t : State} (h : perform cw arg s = .next t) :
    Extends s.responses t.responses := by
  rw [perform] at h
  split at h
  · obtain ⟨r, hr, hallowed⟩ := responses_of_exec h
    exact .inr ⟨r, hr, hallowed.result⟩
  · cases h
    exact .inr ⟨_, rfl, fun _ => rfl⟩

theorem takeEvent_extends {e : Event} {s t : State} (h : takeEvent e s = .next t) :
    Extends s.responses t.responses := by
  cases e with
  | command cw arg g gi => exact perform_extends (s := withGrants g gi s) h
  | setFile d =>
    rw [takeEvent] at h
    split at h
    · cases h
      exact .inl rfl
    · cases h
  | setInp d =>
    cases h
    exact .inl rfl
  | reset =>
    cases h
    exact .inl rfl

theorem step_extends {s t : State} (h : step s = .next t) : Extends s.responses t.responses := by
  match hpend : s.pending with
  | [] =>
    rw [step_of_pending_nil hpend] at h
    cases h
    exact .inl rfl
  | e :: rest =>
    rw [step_of_pending_cons hpend] at h
    exact takeEvent_extends (s := { s with pending := rest }) h

theorem ResponsesInv.of_extends {s t : State} (hs : ResponsesInv s) (h : Extends s.responses t.responses) :
    ResponsesInv t := by
  obtain heq | ⟨r, heq, hr⟩ := h
  · rwa [ResponsesInv, heq]
  · rw [ResponsesInv, heq]
    exact List.forall_mem_cons.mpr ⟨hr, hs⟩

/-- BUF_BYTES is a parameter (R4, R29). -/
theorem keptByEvents_bufBytes (n : Nat) : KeptByEvents (fun s => s.bufBytes = n) where
  host h := h
  effect heff h := heff.frame.bufBytes.trans h
  respond h := h
  setFile _ h := h
  setInp h := h
  hardReset h := h

/-- Settles O57: what a step may add to the responses gives both clauses about them. -/
theorem stepKeepsTheResponsesAndTheParameter : Obligations.StepKeepsTheResponsesAndTheParameter := by
  intro s s' h
  have hext := step_extends h
  exact ⟨fun hs => hs.of_extends hext, (keptByEvents_bufBytes s.bufBytes).step rfl h,
    hext.imp_right fun ⟨r, hr, _⟩ => ⟨r, hr⟩⟩

end Sys2Proof.Machine
end

section
/-! The bits of a byte, and of a sequence of bytes (40_bitstream.md R83): BS_ACC as the bits shifted into it, `unpack` as a
map that loses nothing, and `pack` as its inverse on a zero-padded bit string. -/

namespace Sys2Proof.Machine

open Sys2Proof.Claims

/-! ### The accumulator (R20, R78) -/

/-- The `n` lowest bits of a byte, the highest of them first: what BS_ACC holds of `n` pending bits, first bit first (R78). -/
def lowBits (n : Nat) (a : Byte) : List Bool := (List.range n).map (fun j => a.getLsbD (n - 1 - j))

@[simp] theorem lowBits_length (n : Nat) (a : Byte) : (lowBits n a).length = n := by simp [lowBits]

@[simp] theorem lowBits_zero (a : Byte) : lowBits 0 a = [] := rfl

theorem getLsbD_pushBit (a : Byte) (b : Bool) {i : Nat} (hi : i < 8) :
    (pushBit a b).getLsbD i = if i = 0 then b else a.getLsbD (i - 1) := by
  cases i with
  | zero => simp [pushBit]
  | succ i => simp [pushBit, hi, BitVec.getLsbD_eq_getElem (Nat.lt_of_succ_lt hi)]

/-- Shifting a bit in puts it last. -/
theorem lowBits_pushBit (a : Byte) (b : Bool) {n : Nat} (hn : n < 8) : lowBits (n + 1) (pushBit a b) = lowBits n a ++ [b] := by
  have hold : ∀ j ∈ List.range n, (pushBit a b).getLsbD (n + 1 - 1 - j) = a.getLsbD (n - 1 - j) := by
    intro j hj
    have hj : j < n := List.mem_range.mp hj
    rw [getLsbD_pushBit a b (by omega), if_neg (by omega)]
    congr 1
    omega
  have hnew : (pushBit a b).getLsbD (n + 1 - 1 - n) = b := by
    rw [getLsbD_pushBit a b (by omega), if_pos (by omega)]
  rw [lowBits, List.range_succ, List.map_append, List.map_congr_left hold, List.map_singleton, hnew, lowBits]

/-- A byte shifted left by `k` is one into which `k` zeros were shifted. -/
theorem lowBits_shiftLeft (a : Byte) {n k : Nat} (h : n + k ≤ 8) :
    lowBits (n + k) (a <<< k) = lowBits n a ++ List.replicate k false := by
  induction k with
  | zero => simp
  | succ k ih =>
    have hstep : a <<< (k + 1) = pushBit (a <<< k) false := by simp [pushBit, BitVec.shiftLeft_add]
    rw [hstep, ← Nat.add_assoc, lowBits_pushBit _ _ (by omega), ih (by omega), List.append_assoc, List.replicate_succ']

/-- The bits shifted into a byte are its lowest bits. -/
theorem lowBits_foldl_pushBit (a : Byte) {w : List Bool} (h : w.length ≤ 8) : lowBits w.length (w.foldl pushBit a) = w := by
  induction w using List.reverseRecOn with
  | nil => rfl
  | append_singleton w b ih =>
    rw [List.length_append, List.length_singleton] at h
    rw [List.foldl_concat, List.length_append, List.length_singleton, lowBits_pushBit _ _ h, ih (by omega)]

/-- The number that R83's `byte` spells is the byte its bits make when shifted in. -/
theorem ofNat_foldl_bits (w : List Bool) (n : Nat) :
    BitVec.ofNat 8 (w.foldl (fun a b => 2 * a + b.toNat) n) = w.foldl pushBit (BitVec.ofNat 8 n) := by
  have hpush (n : Nat) (b : Bool) : BitVec.ofNat 8 (2 * n + b.toNat) = pushBit (BitVec.ofNat 8 n) b := by
    refine BitVec.eq_of_getLsbD_eq fun i hi => ?_
    have hhalf : (2 * n + b.toNat) / 2 = n := by
      have hbit := b.toNat_lt
      omega
    rw [getLsbD_pushBit _ b hi, BitVec.getLsbD_ofNat, BitVec.getLsbD_ofNat]
    cases i with
    | zero => cases b <;> simp
    | succ i => simp [Nat.testBit_succ, hhalf, hi, Nat.lt_of_succ_lt hi]
  induction w generalizing n with
  | nil => rfl
  | cons b w ih => rw [List.foldl_cons, List.foldl_cons, ih, hpush]

/-! ### `unpack` (R83) -/

@[simp] theorem unpack_nil : unpack [] = [] := rfl

@[simp] theorem unpack_cons (v : Byte) (d : List Byte) : unpack (v :: d) = lowBits 8 v ++ unpack d := rfl

@[simp] theorem unpack_append (d e : List Byte) : unpack (d ++ e) = unpack d ++ unpack e := List.flatMap_append

@[simp] theorem unpack_length (d : List Byte) : (unpack d).length = 8 * d.length := by
  induction d with
  | nil => rfl
  | cons v d ih =>
    rw [unpack_cons, List.length_append, lowBits_length, ih, List.length_cons]
    omega

theorem lowBits_eight_inj {a b : Byte} (h : lowBits 8 a = lowBits 8 b) : a = b := by
  ext i hi
  have hbit := congrArg (·[7 - i]?) h
  have hidx : 7 - (7 - i) = i := by omega
  simpa [lowBits, show 7 - i < 8 by omega, hidx, BitVec.getLsbD_eq_getElem hi] using hbit

/-- No two sequences of bytes have the same bits (R85: no byte value is special). -/
theorem unpack_injective : Function.Injective unpack := by
  intro d
  induction d with
  | nil =>
    intro e h
    have hlen := congrArg List.length h
    rw [unpack_length, unpack_length, List.length_nil] at hlen
    exact (List.length_eq_zero_iff.mp (by omega)).symm
  | cons v d ih =>
    rintro (_ | ⟨x, e⟩) h
    · have hlen := congrArg List.length h
      simp at hlen
    · obtain ⟨hbyte, hrest⟩ := List.append_inj h (by simp)
      rw [lowBits_eight_inj hbyte, ih hrest]

/-! ### `pack` (R83) -/

/-- The zero bits that fill the last byte of `n` bits. -/
def padBits (n : Nat) : List Bool := List.replicate (8 * ((n + 7) / 8) - n) false

theorem lowBits_packByte {w : List Bool} (h : w.length ≤ 8) :
    lowBits 8 (packByte w) = w ++ List.replicate (8 - w.length) false := by
  have hlen : (w ++ List.replicate (8 - w.length) false).length = 8 := by
    rw [List.length_append, List.length_replicate]
    omega
  have hbits := lowBits_foldl_pushBit (BitVec.ofNat 8 0) hlen.le
  rwa [hlen, ← ofNat_foldl_bits] at hbits

@[simp] theorem pack_length (w : List Bool) : (pack w).length = (w.length + 7) / 8 := by simp [pack]

theorem pack_of_ne_nil {w : List Bool} (h : w ≠ []) : pack w = packByte (w.take 8) :: pack (w.drop 8) := by
  have hlen : (w.length + 7) / 8 = ((w.drop 8).length + 7) / 8 + 1 := by
    have := List.length_pos_iff.mpr h
    rw [List.length_drop]
    omega
  rw [pack, hlen, List.range_succ_eq_map, List.map_cons, List.map_map, Nat.mul_zero, List.drop_zero, pack]
  congr 2
  funext i
  rw [Function.comp_apply, List.drop_drop, Nat.mul_succ, Nat.add_comm]

/-- What `pack` makes of a bit string holds its bits and then zeros up to the byte boundary (R83, R84). -/
theorem unpack_pack (w : List Bool) : unpack (pack w) = w ++ padBits w.length := by
  by_cases hw : w = []
  · subst hw
    rfl
  · have hpos := List.length_pos_iff.mpr hw
    rw [pack_of_ne_nil hw, unpack_cons, lowBits_packByte (List.length_take_le _ _), unpack_pack (w.drop 8), List.length_drop,
      List.length_take]
    rcases Nat.lt_or_ge w.length 8 with hlt | hge
    · rw [List.take_of_length_le hlt.le, List.drop_of_length_le hlt.le, padBits, padBits, Nat.min_eq_right hlt.le,
        show w.length - 8 = 0 by omega, show 8 * ((w.length + 7) / 8) - w.length = 8 - w.length by omega]
      simp
    · rw [Nat.min_eq_left hge, Nat.sub_self, List.replicate_zero, List.append_nil, ← List.append_assoc, List.take_append_drop,
        padBits, padBits, show 8 * ((w.length - 8 + 7) / 8) - (w.length - 8) = 8 * ((w.length + 7) / 8) - w.length by omega]
  termination_by w.length
  decreasing_by
    rw [List.length_drop]
    omega

end Sys2Proof.Machine
end

section
/-! The bit-stream commands branch by branch (40_bitstream.md R75 to R82): the operands, and what each command does once the
checks before it are known to pass or to fail. -/

namespace Sys2Proof.Machine

variable {s : State}

/-! ### Operands (R63) -/

theorem eq_zero_or_one_of_toNat_le {b : Byte} (h : b.toNat ≤ 1) : b = 0 ∨ b = 1 :=
  (Nat.le_one_iff_eq_zero_or_eq_one.mp h).imp BitVec.eq_of_toNat_eq BitVec.eq_of_toNat_eq

theorem ne_zero_and_one_of_le_toNat {b : Byte} (h : 2 ≤ b.toNat) : b ≠ 0 ∧ b ≠ 1 := by
  constructor <;> rintro rfl <;> exact absurd h (by decide)

theorem bitOperand_of_two_le {b : Byte} (h : 2 ≤ b.toNat) : bitOperand b = none := by
  obtain ⟨h0, h1⟩ := ne_zero_and_one_of_le_toNat h
  rw [bitOperand, if_neg h0, if_neg h1]

theorem bitOperand_of_le_one {b : Byte} (h : b.toNat ≤ 1) : ∃ bit, bitOperand b = some bit ∧ bit.toNat = b.toNat := by
  obtain rfl | rfl := eq_zero_or_one_of_toNat_le h
  · exact ⟨false, rfl, rfl⟩
  · exact ⟨true, rfl, rfl⟩

theorem modeOperand_of_two_le {m : Byte} (h : 2 ≤ m.toNat) : modeOperand m = none := by
  obtain ⟨h0, h1⟩ := ne_zero_and_one_of_le_toNat h
  rw [modeOperand, if_neg h0, if_neg h1]

theorem modeOperand_of_le_one {m : Byte} (h : m.toNat ≤ 1) : ∃ mode, modeOperand m = some mode := by
  obtain rfl | rfl := eq_zero_or_one_of_toNat_le h
  · exact ⟨.read, rfl⟩
  · exact ⟨.write, rfl⟩

/-- A bit as the number RESULT holds (R62). -/
theorem setWidth_ofBool (b : Bool) : (BitVec.ofBool b).setWidth 64 = BitVec.ofNat 64 b.toNat := by
  cases b <;> rfl

/-! ### BS_OPEN (R76) -/

theorem execBsOpen_of_operand {m : Byte} (h : 2 ≤ m.toNat) : execBsOpen m s = refuse .eArg s := by
  rw [execBsOpen, modeOperand_of_two_le h]

theorem execBsOpen_of_mode {m : Byte} (h : m.toNat ≤ 1) (hopen : s.bs.mode ≠ .closed) : execBsOpen m s = refuse .eMode s := by
  obtain ⟨mode, hm⟩ := modeOperand_of_le_one h
  rw [execBsOpen, hm]
  exact if_pos hopen

theorem execBsOpen_of_closed {m : Byte} {mode : Mode} (hm : modeOperand m = some mode) (hclosed : s.bs.mode = .closed) :
    execBsOpen m s = if s.envGrant then answer 0 { s with bs := openedStream mode s.bs, file := openedFile mode s.file }
      else refuse .eOpen s := by
  rw [execBsOpen, hm]
  exact if_neg (not_not_intro hclosed)

theorem execBsOpen_of_refused {m : Byte} (h : m.toNat ≤ 1) (hclosed : s.bs.mode = .closed) (hgrant : s.envGrant = false) :
    execBsOpen m s = refuse .eOpen s := by
  obtain ⟨mode, hm⟩ := modeOperand_of_le_one h
  rw [execBsOpen_of_closed hm hclosed, hgrant]
  rfl

theorem execBsOpen_of_granted {m : Byte} {mode : Mode} (hm : modeOperand m = some mode) (hclosed : s.bs.mode = .closed)
    (hgrant : s.envGrant = true) :
    execBsOpen m s = answer 0 { s with bs := openedStream mode s.bs, file := openedFile mode s.file } := by
  rw [execBsOpen_of_closed hm hclosed, hgrant]
  rfl

/-- Settles O33: the branches of BS_OPEN in the order of its checks. -/
theorem bsOpenResults : Obligations.BsOpenResults := fun _ _ =>
  ⟨execBsOpen_of_operand, execBsOpen_of_mode, execBsOpen_of_refused,
    fun hclosed hgrant => ⟨execBsOpen_of_granted (m := 1) (mode := .write) rfl hclosed hgrant,
      execBsOpen_of_granted (m := 0) (mode := .read) rfl hclosed hgrant⟩⟩

/-! ### BS_CLOSE (R77) -/

theorem execBsClose_of_closed (hmode : s.bs.mode = .closed) : execBsClose s = refuse .eMode s := by
  rw [execBsClose, hmode]

theorem execBsClose_of_read (hmode : s.bs.mode = .read) :
    execBsClose s = answer s.bs.total { s with bs := closedStream s.bs } := by
  rw [execBsClose, hmode]

/-- The pad byte a write close appends, if it appends one (R45, R77). -/
def padding (b : Stream) : List Byte := if 1 ≤ b.nbits ∧ b.nbits ≤ 7 then [padByte b] else []

theorem padding_of_pending {b : Stream} (hpos : 1 ≤ b.nbits) (hmax : b.nbits ≤ 7) : padding b = [padByte b] := if_pos ⟨hpos, hmax⟩

theorem padding_of_boundary {b : Stream} (h : b.nbits = 0) : padding b = [] := by simp [padding, h]

/-- A write close, as one update: the buffered bytes and the padding go to FILE, and the padding is counted (R77). -/
theorem finishWrite_eq_padding (s : State) : finishWrite s =
    { s with
      bs := { s.bs with cur := 0, total := s.bs.total + BitVec.ofNat 64 (padding s.bs).length }
      file := { s.file with data := s.file.data ++ s.bs.buf.take s.bs.cur ++ padding s.bs } } := by
  rw [finishWrite_eq_ite, padding]
  split
  · rfl
  · simp

/-- The state after a write close (R77). -/
def closedWrite (s : State) : State :=
  { s with
    bs := { closedStream s.bs with total := s.bs.total + BitVec.ofNat 64 (padding s.bs).length }
    file := { s.file with data := s.file.data ++ s.bs.buf.take s.bs.cur ++ padding s.bs } }

theorem execBsClose_of_write (hmode : s.bs.mode = .write) :
    execBsClose s = answer (closedWrite s).bs.total (closedWrite s) := by
  rw [execBsClose, hmode]
  dsimp only
  rw [finishWrite_eq_padding]
  rfl

/-- The pending bits left-justified, as a number: no bit is lost (R45). -/
theorem padByte_toNat {b : Stream} (hacc : b.acc.toNat < 2 ^ b.nbits) (hmax : b.nbits ≤ 7) :
    (padByte b).toNat = b.acc.toNat * 2 ^ (8 - b.nbits) := by
  have hsplit : 2 ^ b.nbits * 2 ^ (8 - b.nbits) = 2 ^ 8 := by
    rw [← Nat.pow_add]
    congr 1
    omega
  rw [padByte, BitVec.toNat_shiftLeft, Nat.shiftLeft_eq]
  exact Nat.mod_eq_of_lt (hsplit ▸ Nat.mul_lt_mul_of_pos_right hacc (Nat.two_pow_pos _))

/-- BS_TOTAL after a write close is the length of FILE, modulo 2^64 (R28 as log 17 takes it). -/
theorem StreamInv.total_add_padding (hs : StreamInv s) (hmode : s.bs.mode = .write) :
    s.bs.total + BitVec.ofNat 64 (padding s.bs).length =
      BitVec.ofNat 64 (s.file.data ++ s.bs.buf.take s.bs.cur ++ padding s.bs).length := by
  have hlen : (s.file.data ++ s.bs.buf.take s.bs.cur).length = s.file.data.length + s.bs.cur :=
    produced_length (hs.cur_lt_of_write hmode).le
  rw [(hs.write hmode).total, ← hlen, ← BitVec.ofNat_add, ← List.length_append]

/-- Settles O34: one branch for each mode; what a write close pads with is the pad byte or nothing. -/
theorem bsCloseResults : Obligations.BsCloseResults := by
  refine fun s hs => ⟨execBsClose_of_closed, execBsClose_of_read, fun hmode => ⟨padding s.bs, execBsClose_of_write hmode,
    padding_of_boundary, fun hpos => ?_, hs.total_add_padding hmode⟩⟩
  have hw := hs.write hmode
  exact ⟨padByte s.bs, padding_of_pending hpos hw.nbits, padByte_toNat hw.acc hw.nbits⟩

/-! ### BS_WBIT (R78, R50) -/

theorem execBsWbit_of_operand {b : Byte} (h : 2 ≤ b.toNat) : execBsWbit b s = refuse .eArg s := by
  rw [execBsWbit, bitOperand_of_two_le h]

theorem execBsWbit_of_mode {b : Byte} (h : b.toNat ≤ 1) (hmode : s.bs.mode ≠ .write) : execBsWbit b s = refuse .eMode s := by
  obtain ⟨bit, hb, -⟩ := bitOperand_of_le_one h
  rw [execBsWbit, hb]
  exact if_pos hmode

theorem execBsWbit_of_write {b : Byte} {bit : Bool} (hb : bitOperand b = some bit) (hmode : s.bs.mode = .write) :
    execBsWbit b s = answer (BitVec.ofNat 64 bit.toNat) (writeBit bit s) := by
  rw [execBsWbit, hb, ← setWidth_ofBool]
  exact if_neg (not_not_intro hmode)

theorem writeBit_of_lt (bit : Bool) (h : s.bs.nbits < 7) : writeBit bit s = shiftIn bit s := by
  rw [writeBit_eq_ite, if_neg (by omega)]

theorem writeBit_of_eighth (bit : Bool) (h : s.bs.nbits = 7) :
    writeBit bit s = emptyAcc (emitByte (pushBit s.bs.acc bit) (shiftIn bit s)) := by
  rw [writeBit_eq_ite, if_pos (by omega)]

theorem emitByte_of_room (v : Byte) (h : s.bs.cur + 1 < s.bufBytes) : emitByte v s =
    addTotal 1 { s with bs := { s.bs with buf := s.bs.buf.set s.bs.cur v, cur := s.bs.cur + 1 } } :=
  if_neg (Nat.ne_of_lt h)

/-- The byte that fills BS_BUF goes to FILE behind those that stood in it (R50). -/
theorem emitByte_of_full (v : Byte) (hcur : s.bs.cur < s.bs.buf.length) (h : s.bs.cur + 1 = s.bufBytes) : emitByte v s =
    addTotal 1 { s with
      bs := { s.bs with buf := s.bs.buf.set s.bs.cur v, cur := 0 }
      file := { s.file with data := s.file.data ++ s.bs.buf.take s.bs.cur ++ [v] } } := by
  have htake : (s.bs.buf.set s.bs.cur v).take (s.bs.cur + 1) = s.bs.buf.take s.bs.cur ++ [v] := by
    rw [List.take_add_one, List.take_set_of_le (le_refl _)]
    simp [hcur]
  rw [List.append_assoc, ← htake]
  exact if_pos h

/-- Settles O35: the checks of BS_WBIT, then the three ways an accepted bit can end. -/
theorem bsWbitResults : Obligations.BsWbitResults := by
  refine fun s b hs => ⟨execBsWbit_of_operand, execBsWbit_of_mode, fun hb hmode => ?_⟩
  obtain ⟨bit, hbit, hnat⟩ := bitOperand_of_le_one hb
  have hw := hs.write hmode
  have hacc : s.bs.acc.toNat < 2 ^ 7 := hw.acc.trans_le (Nat.pow_le_pow_right (by decide) hw.nbits)
  rw [exec, execBsWbit_of_write hbit hmode, ← hnat]
  refine ⟨pushBit s.bs.acc bit, pushBit_toNat _ bit hacc, fun hlt => ?_, fun heighth hroom => ?_, fun heighth hfull => ?_⟩
  · rw [writeBit_of_lt bit hlt]
    rfl
  · rw [writeBit_of_eighth bit heighth, emitByte_of_room (s := shiftIn bit s) _ hroom]
    rfl
  · rw [writeBit_of_eighth bit heighth, emitByte_of_full (s := shiftIn bit s) _ (hs.cur_lt_of_write hmode) hfull]
    rfl

end Sys2Proof.Machine
end

section
/-! BS_RBIT (40_bitstream.md R79) with `fetch_byte` (20_memory.md R51) branch by branch: from the batch buffer, after a refill,
at the end of FILE. -/

namespace Sys2Proof.Machine

variable {s : State}

/-- A byte taken from the batch buffer is counted, and the cursor moves on (R51). -/
def takeBuffered (s : State) : State := addTotal 1 { s with bs := { s.bs with cur := s.bs.cur + 1 } }

theorem fetchByte_of_buffered (h : s.bs.cur < s.bs.avail) :
    fetchByte s = (some (s.bs.buf.getD s.bs.cur 0), takeBuffered s) := by
  rw [fetchByte, if_neg (Nat.ne_of_lt h)]
  exact if_neg (Nat.ne_of_lt h)

theorem fetchByte_of_empty (h : s.bs.cur = s.bs.avail) : fetchByte s =
    if (refillBuf s).bs.cur = (refillBuf s).bs.avail then (none, refillBuf s)
    else (some ((refillBuf s).bs.buf.getD (refillBuf s).bs.cur 0), takeBuffered (refillBuf s)) := by
  rw [fetchByte, if_pos h]
  rfl

theorem refillBuf_avail (s : State) : (refillBuf s).bs.avail = min s.bufBytes (s.file.data.length - s.file.rpos) :=
  (fileRead_length s.bufBytes s).trans (by rw [fileRest, List.length_drop])

theorem refillBuf_rpos (s : State) : (refillBuf s).file.rpos = s.file.rpos + (refillBuf s).bs.avail := rfl

theorem refillBuf_of_end (h : fileRest s = []) : refillBuf s = { s with bs := { s.bs with cur := 0, avail := 0 } } := by
  simp [refillBuf, fileRead, h, fileAdvance]

/-- At the end of FILE with the buffer used up, `fetch_byte` leaves the buffer empty and counts nothing (R51). -/
theorem fetchByte_of_end (hempty : s.bs.cur = s.bs.avail) (h : fileRest s = []) :
    fetchByte s = (none, { s with bs := { s.bs with cur := 0, avail := 0 } }) := by
  rw [fetchByte_of_empty hempty, refillBuf_of_end h]
  rfl

theorem fetchByte_of_refill (hempty : s.bs.cur = s.bs.avail) (hsome : (fetchByte s).1 ≠ none) :
    (fetchByte s).2 = takeBuffered (refillBuf s) := by
  rw [fetchByte_of_empty hempty] at hsome ⊢
  by_cases hend : (refillBuf s).bs.cur = (refillBuf s).bs.avail
  · rw [if_pos hend] at hsome
    exact absurd rfl hsome
  · rw [if_neg hend]

theorem PrefetchInv.end_of_unreadBytes_nil (hs : PrefetchInv s) (h : unreadBytes s = []) :
    s.bs.cur = s.bs.avail ∧ fileRest s = [] := by
  obtain ⟨hbuffered, hrest⟩ := List.append_eq_nil_iff.mp h
  rw [List.drop_eq_nil_iff, List.length_take_of_le (hs.avail.trans_eq hs.buf.symm)] at hbuffered
  exact ⟨le_antisymm hs.cur hbuffered, hrest⟩

/-- What a fetch writes: the batch buffer, BS_TOTAL and the read position. -/
theorem fetchByte_update (s : State) : (fetchByte s).2 =
    { s with
      bs := { s.bs with buf := (fetchByte s).2.bs.buf, cur := (fetchByte s).2.bs.cur, avail := (fetchByte s).2.bs.avail
                        total := (fetchByte s).2.bs.total }
      file := { s.file with rpos := (fetchByte s).2.file.rpos } } := by
  unfold fetchByte
  dsimp only
  split
  · split <;> rfl
  · rfl

theorem topBit_msb (b : Stream) : topBit b = BitVec.ofNat 64 b.acc.msb.toNat := setWidth_ofBool _

theorem topBit_eq (b : Stream) : topBit b = BitVec.ofNat 64 (b.acc.toNat / 128) := by
  have hmsb : b.acc.msb.toNat = b.acc.toNat / 128 := by
    have hlt := b.acc.isLt
    rw [BitVec.msb_eq_decide]
    rcases Nat.lt_or_ge b.acc.toNat 128 with h | h
    · rw [decide_eq_false (by omega), Bool.toNat_false]
      omega
    · rw [decide_eq_true (by omega), Bool.toNat_true]
      omega
  rw [topBit_msb, hmsb]

theorem shiftLeft_one_eq (a : Byte) : a <<< 1 = BitVec.ofNat 8 (2 * a.toNat) := by
  apply BitVec.eq_of_toNat_eq
  rw [BitVec.toNat_shiftLeft, Nat.shiftLeft_eq, pow_one, Nat.mul_comm, BitVec.toNat_ofNat]

/-- BS_RBIT on a byte boundary with a byte left: that byte is loaded and its first bit answered (R79). -/
theorem StreamInv.execBsRbit_of_unread (hs : StreamInv s) (hmode : s.bs.mode = .read) (hnbits : s.bs.nbits = 0) {v : Byte}
    {rest : List Byte} (hun : unreadBytes s = v :: rest) :
    execBsRbit s = answer (topBit (loadByte v (fetchByte (enterBitPhase s)).2).bs)
      (takeBit (loadByte v (fetchByte (enterBitPhase s)).2)) := by
  obtain ⟨hbyte, -⟩ := (hs.prefetch hmode).enterBitPhase.fetchByte_outcome hs.param
  rw [show unreadBytes (enterBitPhase s) = v :: rest from hun] at hbyte
  rw [execBsRbit_of_fetch hmode hnbits, ← Prod.mk.eta (p := fetchByte (enterBitPhase s)), hbyte]
  rfl

/-- BS_RBIT with no bit left: EOD (R79). -/
theorem StreamInv.execBsRbit_of_end (hs : StreamInv s) (hmode : s.bs.mode = .read) (hnbits : s.bs.nbits = 0)
    (hun : unreadBytes s = []) :
    execBsRbit s = refuse .eod { s with bs := { s.bs with bitPhase := true, cur := 0, avail := 0 } } := by
  obtain ⟨hempty, hrest⟩ := (hs.prefetch hmode).end_of_unreadBytes_nil hun
  rw [execBsRbit_of_fetch hmode hnbits, fetchByte_of_end (s := enterBitPhase s) hempty hrest]
  rfl

/-- Settles O36: the mode check, a bit of BS_ACC, the end of FILE, and a fetch, which comes from the buffer or after a refill. -/
theorem bsRbitResults : Obligations.BsRbitResults := by
  refine fun s hs => ⟨execBsRbit_of_mode, fun hmode hpos => ?_, hs.execBsRbit_of_end, fun v rest hmode hnbits hun => ?_⟩
  · rw [exec, execBsRbit_of_shift hmode (Nat.ne_of_gt hpos), topBit_eq, ← shiftLeft_one_eq]
    rfl
  · obtain ⟨hbyte, htotal, hrest⟩ := (hs.prefetch hmode).enterBitPhase.fetchByte_outcome hs.param
    rw [show unreadBytes (enterBitPhase s) = v :: rest from hun] at hbyte htotal hrest
    have hupdate := fetchByte_update (enterBitPhase s)
    have hbuffered (hlt : s.bs.cur < s.bs.avail) : (fetchByte (enterBitPhase s)).2 = takeBuffered (enterBitPhase s) :=
      congrArg Prod.snd (fetchByte_of_buffered (s := enterBitPhase s) hlt)
    have hrefill (hempty : s.bs.cur = s.bs.avail) :
        (fetchByte (enterBitPhase s)).2 = takeBuffered (refillBuf (enterBitPhase s)) :=
      fetchByte_of_refill hempty (hbyte ▸ nofun)
    rw [exec, hs.execBsRbit_of_unread hmode hnbits hun, topBit_eq]
    generalize (fetchByte (enterBitPhase s)).2 = u at *
    refine ⟨u.bs.buf, u.bs.cur, u.bs.avail, u.file.rpos, ?_, fun hlt => ?_, fun hempty => ?_, ?_⟩
    · rw [hupdate, htotal, ← shiftLeft_one_eq]
      rfl
    · rw [hbuffered hlt]
      exact ⟨rfl, rfl, rfl, rfl⟩
    · rw [hrefill hempty]
      exact ⟨rfl, refillBuf_avail (enterBitPhase s), refillBuf_rpos (enterBitPhase s)⟩
    · rw [hupdate] at hrest
      exact hrest

end Sys2Proof.Machine
end

section
/-! BS_WU64, BS_RU64 and BS_NBYTES (40_bitstream.md R80 to R82), and the order of the checks of every command (R75, R164). -/

namespace Sys2Proof.Machine

open Sys2Proof.Claims

variable {s : State}

/-! ### Byte order (R46) -/

@[simp] theorem bytesOfU64_length (v : Wide) : (bytesOfU64 v).length = 8 := rfl

theorem extractByte_eq (v : Wide) (k : Nat) : v.extractLsb' k 8 = BitVec.ofNat 8 (v.toNat / 2 ^ k) := by
  apply BitVec.eq_of_toNat_eq
  rw [BitVec.extractLsb'_toNat, Nat.shiftRight_eq_div_pow, BitVec.toNat_ofNat]

/-- Byte k is the number divided by 256 as often as bytes follow it. -/
theorem bytesOfU64_eq (v : Wide) :
    bytesOfU64 v = (List.range 8).map (fun k => BitVec.ofNat 8 (v.toNat / 2 ^ (8 * (7 - k)))) := by
  simp only [bytesOfU64, extractByte_eq]
  rfl

theorem u64OfBytes_eq (b0 b1 b2 b3 b4 b5 b6 b7 : Byte) : u64OfBytes [b0, b1, b2, b3, b4, b5, b6, b7] =
    BitVec.ofNat 64 (b0.toNat * 2 ^ 56 + b1.toNat * 2 ^ 48 + b2.toNat * 2 ^ 40 + b3.toNat * 2 ^ 32 + b4.toNat * 2 ^ 24 +
      b5.toNat * 2 ^ 16 + b6.toNat * 2 ^ 8 + b7.toNat) := by
  refine congrArg (BitVec.ofNat 64) ?_
  simp only [List.foldl_cons, List.foldl_nil]
  omega

/-- The integer of the eight bytes of `v` is `v` (R46): its base-256 digits, the most significant first. -/
theorem u64OfBytes_bytesOfU64 (v : Wide) : u64OfBytes (bytesOfU64 v) = v := by
  have htop : v.toNat / 2 ^ 56 % 2 ^ 8 = v.toNat / 2 ^ 56 := Nat.mod_eq_of_lt (Nat.div_lt_of_lt_mul v.isLt)
  have hdigit (k : Nat) : v.toNat / 2 ^ (k + 8) * 256 + v.toNat / 2 ^ k % 2 ^ 8 = v.toNat / 2 ^ k := by
    rw [Nat.pow_add, ← Nat.div_div_eq_div_mul]
    exact Nat.div_add_mod' _ _
  simp only [u64OfBytes, bytesOfU64, extractByte_eq, BitVec.toNat_ofNat, List.foldl_cons, List.foldl_nil]
  rw [Nat.zero_mul, Nat.zero_add, htop, hdigit 48, hdigit 40, hdigit 32, hdigit 24, hdigit 16, hdigit 8, hdigit 0, pow_zero,
    Nat.div_one, BitVec.ofNat_toNat, BitVec.setWidth_eq]

/-! ### The header commands (R80, R81) -/

theorem execBsWu64_of_check {e : Status} (v : Wide) (h : headerCheck .write s = some e) : execBsWu64 v s = refuse e s := by
  rw [execBsWu64, h]

theorem execBsWu64_of_header (v : Wide) (h : headerCheck .write s = none) :
    execBsWu64 v s = answer 0 (appendHeader (bytesOfU64 v) s) := by
  rw [execBsWu64, h]
  rfl

theorem execBsRu64_of_check {e : Status} (h : headerCheck .read s = some e) : execBsRu64 s = refuse e s := by
  rw [execBsRu64, h]

theorem execTcWtree_of_check {e : Status} (h : headerCheck .write s = some e) : execTcWtree s = refuse e s := by
  rw [execTcWtree, h]

theorem execTcRtree_of_check {e : Status} (h : headerCheck .read s = some e) : execTcRtree s = refuse e s := by
  rw [execTcRtree, h]

theorem execBsRu64_of_eight (hcheck : headerCheck .read s = none) {r rest : List Byte} (hlen : r.length = 8)
    (hrest : fileRest s = r ++ rest) : execBsRu64 s = answer (u64OfBytes r) (consumeHeader 8 s) := by
  rw [execBsRu64_of_header hcheck, hrest, ← hlen, List.take_left, if_neg (by omega)]

theorem execBsRu64_of_short (hcheck : headerCheck .read s = none) (hlen : (fileRest s).length < 8) :
    execBsRu64 s = refuse .eod (consumeHeader (fileRest s).length s) := by
  rw [execBsRu64_of_header hcheck, List.take_of_length_le hlen.le, if_pos hlen]

/-- Settles O37: the two checks of each command, the append, eight bytes or more left, fewer left. -/
theorem bsU64Results : Obligations.BsU64Results := by
  refine fun s v => ⟨fun hmode => execBsWu64_of_check v (headerCheck_of_mode hmode),
    fun hmode hphase => execBsWu64_of_check v (headerCheck_of_phase hmode hphase),
    fun hmode => execBsRu64_of_check (headerCheck_of_mode hmode),
    fun hmode hphase => execBsRu64_of_check (headerCheck_of_phase hmode hphase), fun hmode hphase => ?_,
    fun b0 b1 b2 b3 b4 b5 b6 b7 rest hmode hphase hrest => ?_,
    fun hmode hphase hlen => execBsRu64_of_short ((headerCheck_eq_none_iff .read s).mpr ⟨hmode, hphase⟩) hlen⟩
  · rw [← bytesOfU64_eq]
    exact execBsWu64_of_header v ((headerCheck_eq_none_iff .write s).mpr ⟨hmode, hphase⟩)
  · rw [← u64OfBytes_eq]
    exact execBsRu64_of_eight ((headerCheck_eq_none_iff .read s).mpr ⟨hmode, hphase⟩) rfl hrest

/-- Settles O38: the eight bytes appended are all that lies behind the read position. -/
theorem u64ReadBackIsWhatWasWritten : Obligations.U64ReadBackIsWhatWasWritten := by
  intro s s' t v hmode hphase hwrite hmode' hphase' hdata hrpos
  rw [exec, execBsWu64_of_header v ((headerCheck_eq_none_iff .write s).mpr ⟨hmode, hphase⟩)] at hwrite
  obtain rfl := Host.Outcome.next.inj hwrite
  have hrest : fileRest t = bytesOfU64 v ++ [] := by
    rw [fileRest, hdata, hrpos, List.append_nil]
    exact List.drop_left
  rw [exec, execBsRu64_of_eight ((headerCheck_eq_none_iff .read t).mpr ⟨hmode', hphase'⟩) (bytesOfU64_length v) hrest,
    u64OfBytes_bytesOfU64]
  rfl

/-- Settles O39: BS_NBYTES has no check and answers BS_TOTAL. -/
theorem bsNbytesAnswersTheTotal : Obligations.BsNbytesAnswersTheTotal := fun _ => rfl

/-! ### The order of the checks (R75, R164) -/

theorem statusView_eq_none {idx : Byte} (h : 12 ≤ idx.toNat) : statusView s idx = none := by
  unfold statusView
  split
  case h_13 => rfl
  all_goals omega

theorem execRdsr_of_operand {idx : Byte} (h : 12 ≤ idx.toNat) : execRdsr idx s = refuse .eArg s := by
  rw [execRdsr, statusView_eq_none h]

theorem execCodePush_of_operand {b : Byte} (h : 2 ≤ b.toNat) : execCodePush b s = refuse .eArg s := by
  rw [execCodePush, bitOperand_of_two_le h]

/-- The operand check of the four commands that have one by R63 alone. -/
theorem exec_of_operand {i : Instr} (h : i.wellFormed = false) : exec i s = refuse .eArg s := by
  cases i with
  | codePush b => exact execCodePush_of_operand (Nat.lt_of_not_le (of_decide_eq_false h))
  | bsOpen m => exact execBsOpen_of_operand (Nat.lt_of_not_le (of_decide_eq_false h))
  | bsWbit b => exact execBsWbit_of_operand (Nat.lt_of_not_le (of_decide_eq_false h))
  | rdsr idx => exact execRdsr_of_operand (Nat.lt_of_not_le (of_decide_eq_false h))
  | _ => nomatch h

theorem eq_closed_of_notMem {m : Mode} (h : m ∉ [Mode.read, .write]) : m = .closed := by
  cases m with
  | closed => rfl
  | read => exact absurd (by decide) h
  | write => exact absurd (by decide) h

/-- The mode check of the eight commands that have one. -/
theorem exec_of_mode {i : Instr} {l : List Mode} (hwf : i.wellFormed = true) (hl : modesFor i = some l)
    (hmode : s.bs.mode ∉ l) : exec i s = refuse .eMode s := by
  cases i with
  | bsOpen m =>
    cases hl
    exact execBsOpen_of_mode (of_decide_eq_true hwf) (mt List.mem_singleton.mpr hmode)
  | bsClose =>
    cases hl
    exact execBsClose_of_closed (eq_closed_of_notMem hmode)
  | bsWbit b =>
    cases hl
    exact execBsWbit_of_mode (of_decide_eq_true hwf) (mt List.mem_singleton.mpr hmode)
  | bsRbit =>
    cases hl
    exact execBsRbit_of_mode (mt List.mem_singleton.mpr hmode)
  | bsWu64 v =>
    cases hl
    exact execBsWu64_of_check v (headerCheck_of_mode (mt List.mem_singleton.mpr hmode))
  | bsRu64 =>
    cases hl
    exact execBsRu64_of_check (headerCheck_of_mode (mt List.mem_singleton.mpr hmode))
  | tcWtree =>
    cases hl
    exact execTcWtree_of_check (headerCheck_of_mode (mt List.mem_singleton.mpr hmode))
  | tcRtree =>
    cases hl
    exact execTcRtree_of_check (headerCheck_of_mode (mt List.mem_singleton.mpr hmode))
  | _ => nomatch hl

/-- The phase check of the four header commands. -/
theorem exec_of_phase {i : Instr} {l : List Mode} (hl : modesFor i = some l) (hmode : s.bs.mode ∈ l)
    (hheader : isHeader i = true) (hphase : s.bs.bitPhase = true) : exec i s = refuse .ePhase s := by
  cases i with
  | bsWu64 v =>
    cases hl
    exact execBsWu64_of_check v (headerCheck_of_phase (List.mem_singleton.mp hmode) hphase)
  | bsRu64 =>
    cases hl
    exact execBsRu64_of_check (headerCheck_of_phase (List.mem_singleton.mp hmode) hphase)
  | tcWtree =>
    cases hl
    exact execTcWtree_of_check (headerCheck_of_phase (List.mem_singleton.mp hmode) hphase)
  | tcRtree =>
    cases hl
    exact execTcRtree_of_check (headerCheck_of_phase (List.mem_singleton.mp hmode) hphase)
  | _ => nomatch hheader

theorem execFreqScan_of_refused (h : s.envInpGrant = false) : execFreqScan s = refuse .eOpen s := by
  rw [execFreqScan, h]
  rfl

theorem execHtBuild_of_refused (h : s.envInpGrant = false) : execHtBuild s = refuse .eOpen s := by
  rw [execHtBuild, h]
  rfl

/-- Settles O40: each check in turn, those before it having passed. -/
theorem checksComeInOrder : Obligations.ChecksComeInOrder := by
  refine fun s i => ⟨exec_of_operand, fun l => exec_of_mode, fun l => exec_of_phase, ?_, ?_⟩
  · rintro m rfl hwf hclosed hgrant
    exact execBsOpen_of_refused (of_decide_eq_true hwf) hclosed hgrant
  · rintro (rfl | rfl) hgrant
    · exact execFreqScan_of_refused hgrant
    · exact execHtBuild_of_refused hgrant

end Sys2Proof.Machine
end

section
/-! Runs of bit commands (40_bitstream.md R83 to R85): the bits a write stream has produced and those a read stream has left,
what one command does to them, and the runs that follow. -/

namespace Sys2Proof.Machine

open Sys2Proof.Claims

variable {s : State}

/-! ### A run of presented commands (R5, R6) -/

/-- The state in which a command presented with both grants is performed, the events `rest` being left. -/
def granted (rest : List Event) (s : State) : State := { s with pending := rest, envGrant := true, envInpGrant := true }

theorem step_present {i : Instr} {rest : List Event} (hpend : s.pending = present i :: rest) :
    step s = exec i (granted rest s) := by
  rw [step_of_pending_command hpend, perform_of_decode_ok _ (decodeUndoesEncode i)]
  rfl

theorem run_of_step {M : Host.Core} {s t : M.State} (h : M.step s = .next t) (n : Nat) : M.run (n + 1) s = M.run n t := by
  rw [Host.Core.run, h]

/-- A command presented first takes the first step of a run. -/
theorem run_present {i : Instr} {rest : List Event} {t : State} (hpend : s.pending = present i :: rest)
    (hexec : exec i (granted rest s) = .next t) (n : Nat) : core.run (n + 1) s = core.run n t :=
  run_of_step (M := core) ((step_present hpend).trans hexec) n

theorem StreamInv.granted (hs : StreamInv s) (rest : List Event) : StreamInv (granted rest s) := hs.of_eq rfl rfl rfl

theorem streamInv_of_exec {i : Instr} {t : State} (hs : StreamInv s) (h : exec i s = .next t) : StreamInv t := by
  obtain ⟨u, st, v, heff, rfl⟩ := exists_effect_of_exec h
  exact (heff.keeps_streamInv hs).of_eq rfl rfl rfl

theorem mode_of_exec {i : Instr} {t : State} (h : exec i s = .next t) (hopen : ∀ m, i ≠ .bsOpen m) (hclose : i ≠ .bsClose)
    (hreset : i ≠ .sreset) : t.bs.mode = s.bs.mode := by
  obtain ⟨u, st, v, heff, rfl⟩ := exists_effect_of_exec h
  by_contra hne
  obtain ⟨m, hm, -⟩ | ⟨hi, -⟩ := heff.mode hne
  · exact hopen m hm
  · exact hi.elim hclose hreset

/-! ### Writing (R78) -/

/-- The bits a write stream holds or has brought to FILE: those of the bytes produced, then the pending ones. -/
def writtenBits (s : State) : List Bool := unpack (produced s) ++ lowBits s.bs.nbits s.bs.acc

/-- An accepted bit is one bit more behind those written, whether or not it completes a byte or fills the buffer (R78). -/
theorem StreamInv.writtenBits_writeBit (hs : StreamInv s) (hmode : s.bs.mode = .write) (b : Bool) :
    writtenBits (Machine.writeBit b s) = writtenBits s ++ [b] := by
  have hnbits := (hs.write hmode).nbits
  have hpush := lowBits_pushBit s.bs.acc b (Nat.lt_succ_of_le hnbits)
  rw [writtenBits, writtenBits, produced_writeBit b (hs.cur_lt_of_write hmode), List.append_assoc, ← hpush]
  rcases Nat.lt_or_eq_of_le hnbits with hlt | heighth
  · rw [writeBit_of_lt b hlt, if_neg (by omega), List.append_nil]
    rfl
  · rw [writeBit_of_eighth b heighth, if_pos (by omega), unpack_append, unpack_cons, heighth]
    simp [emptyAcc]

/-- From `s` to `t` the commands of a write stream wrote the bits `w`: each was answered, `rest` is left to do. -/
structure Wrote (w : List Bool) (rest : List Event) (s t : State) : Prop where
  inv : StreamInv t
  mode : t.bs.mode = .write
  bits : writtenBits t = writtenBits s ++ w
  pending : t.pending = rest
  responses : t.responses = (w.map okBit).reverse ++ s.responses

theorem Wrote.cons {b : Bool} {w : List Bool} {rest rest' : List Event} {s t u : State} (hb : Wrote [b] rest' s t)
    (hw : Wrote w rest t u) : Wrote (b :: w) rest s u where
  inv := hw.inv
  mode := hw.mode
  bits := by rw [hw.bits, hb.bits, List.append_assoc, List.singleton_append]
  pending := hw.pending
  responses := by
    rw [hw.responses, hb.responses]
    simp

theorem bitOperand_bitByte (b : Bool) : bitOperand (bitByte b) = some b := by cases b <;> rfl

theorem run_bsWbit_one {b : Bool} {rest : List Event} (hs : StreamInv s) (hmode : s.bs.mode = .write)
    (hpend : s.pending = present (.bsWbit (bitByte b)) :: rest) :
    ∃ t, (∀ n, core.run (n + 1) s = core.run n t) ∧ Wrote [b] rest s t := by
  have hbit := bitOperand_bitByte b
  have hexec : exec (.bsWbit (bitByte b)) (granted rest s) = _ := execBsWbit_of_write hbit hmode
  have heff : Effect (granted rest s) (.bsWbit (bitByte b)) _ := .bsWbit hbit hmode
  exact ⟨_, run_present hpend hexec, streamInv_of_exec (hs.granted rest) hexec, (writeBit_mode b _).trans hmode,
    (hs.granted rest).writtenBits_writeBit hmode b, heff.frame.pending, congrArg _ heff.responses_eq⟩

/-- A run of BS_WBIT writes its bits in order. -/
theorem run_bsWbit (w : List Bool) (rest : List Event) (n : Nat) (hs : StreamInv s) (hmode : s.bs.mode = .write)
    (hpend : s.pending = w.map (fun b => present (.bsWbit (bitByte b))) ++ rest) :
    ∃ t, core.run (w.length + n) s = core.run n t ∧ Wrote w rest s t := by
  induction w generalizing s with
  | nil => exact ⟨s, by rw [List.length_nil, Nat.zero_add], hs, hmode, (List.append_nil _).symm, hpend, rfl⟩
  | cons b w ih =>
    obtain ⟨t, hfirst, hone⟩ := run_bsWbit_one hs hmode hpend
    obtain ⟨u, hrun, hmany⟩ := ih hone.inv hone.mode hone.pending
    refine ⟨u, ?_, hone.cons hmany⟩
    rw [List.length_cons, Nat.add_right_comm, hfirst, hrun]

/-! ### Closing (R77, R83) -/

theorem lowBits_padByte {b : Stream} (h : b.nbits ≤ 7) :
    lowBits 8 (padByte b) = lowBits b.nbits b.acc ++ List.replicate (8 - b.nbits) false := by
  have hpad := lowBits_shiftLeft b.acc (n := b.nbits) (k := 8 - b.nbits) (by omega)
  rwa [show b.nbits + (8 - b.nbits) = 8 by omega] at hpad

/-- The padding is the pending bits and fewer than eight zeros, none when no bit is pending (R45). -/
theorem unpack_padding {b : Stream} (h : b.nbits ≤ 7) :
    ∃ k, k < 8 ∧ unpack (padding b) = lowBits b.nbits b.acc ++ List.replicate k false := by
  rcases Nat.eq_zero_or_pos b.nbits with h0 | hpos
  · exact ⟨0, by decide, by rw [padding_of_boundary h0, h0]; rfl⟩
  · refine ⟨8 - b.nbits, by omega, ?_⟩
    rw [padding_of_pending hpos h, unpack_cons, unpack_nil, List.append_nil, lowBits_padByte h]

/-- What FILE holds after a write close of a stream that had `base` before the bits `w` (R83). -/
theorem StreamInv.produced_append_padding (hs : StreamInv s) (hmode : s.bs.mode = .write) {base : List Byte} {w : List Bool}
    (hbits : writtenBits s = unpack base ++ w) : produced s ++ padding s.bs = base ++ pack w := by
  obtain ⟨k, hk, hpad⟩ := unpack_padding (hs.write hmode).nbits
  have hclosed : unpack (produced s ++ padding s.bs) = unpack base ++ (w ++ List.replicate k false) := by
    rw [unpack_append, hpad, ← List.append_assoc, ← List.append_assoc, ← hbits]
    rfl
  have hbytes : 8 * base.length + (w.length + k) = 8 * (produced s ++ padding s.bs).length := by
    rw [← unpack_length (produced s ++ padding s.bs), hclosed, List.length_append, List.length_append, unpack_length,
      List.length_replicate]
  have hzeros : k = 8 * ((w.length + 7) / 8) - w.length := by omega
  apply unpack_injective
  rw [hclosed, unpack_append, unpack_pack, padBits, hzeros]

/-- A write close answers BS_TOTAL, the length of FILE, which then holds `base` and the packed bits (R77, R83). -/
theorem run_bsClose {base : List Byte} {w : List Bool} {rest : List Event} (hs : StreamInv s) (hmode : s.bs.mode = .write)
    (hbits : writtenBits s = unpack base ++ w) (hpend : s.pending = present .bsClose :: rest) :
    ∃ t, (∀ n, core.run (n + 1) s = core.run n t) ∧ StreamInv t ∧ t.bs.mode = .closed ∧ t.file.data = base ++ pack w ∧
      t.pending = rest ∧ t.responses = ⟨.ok, BitVec.ofNat 64 (base ++ pack w).length⟩ :: s.responses := by
  have hdata := hs.produced_append_padding hmode hbits
  have htotal := hs.total_add_padding hmode
  have hexec : exec .bsClose (granted rest s) = _ := execBsClose_of_write hmode
  refine ⟨_, run_present hpend hexec, streamInv_of_exec (hs.granted rest) hexec, rfl, hdata, rfl, ?_⟩
  rw [← hdata]
  exact congrArg (fun v => Response.mk .ok v :: s.responses) htotal

/-- Before its first bit command a write stream has all its bits in FILE (R28(c)). -/
theorem StreamInv.writtenBits_of_header (hs : StreamInv s) (hmode : s.bs.mode = .write) (hphase : s.bs.bitPhase = false) :
    writtenBits s = unpack s.file.data := by
  obtain ⟨hnbits, hcur⟩ := (hs.write hmode).header hphase
  rw [writtenBits, hnbits, produced, hcur, List.take_zero, List.append_nil, lowBits_zero, List.append_nil]

/-- Settles O51: the run of bits, then the close; BS_TOTAL counts the bytes of FILE before and after. -/
theorem writtenBitsArePacked : Obligations.WrittenBitsArePacked := by
  intro s w hs hmode hphase hpend
  obtain ⟨t, hrun, hwrote⟩ := run_bsWbit w [present .bsClose] 1 hs hmode hpend
  have hbits : writtenBits t = unpack s.file.data ++ w := by rw [hwrote.bits, hs.writtenBits_of_header hmode hphase]
  obtain ⟨u, hclose, -, hclosed, hdata, -, hresp⟩ := run_bsClose hwrote.inv hwrote.mode hbits hwrote.pending
  have htotal : s.bs.total = BitVec.ofNat 64 s.file.data.length := by
    obtain ⟨-, hcur⟩ := (hs.write hmode).header hphase
    rw [(hs.write hmode).total, hcur, Nat.add_zero]
  refine ⟨u, hrun.trans (hclose 0), hclosed, hdata, pack_length w, ?_⟩
  rw [hresp, hwrote.responses, htotal, List.length_append, BitVec.ofNat_add]
  rfl

/-! ### Reading (R79, R84, R85) -/

/-- The bits a read stream has left: the unread ones of BS_ACC, its highest, then those of the unread bytes. -/
def unreadBits (s : State) : List Bool := (lowBits 8 s.bs.acc).take s.bs.nbits ++ unpack (unreadBytes s)

theorem lowBits_eight_cons (a : Byte) : lowBits 8 a = a.msb :: lowBits 7 a := by
  rw [BitVec.msb_eq_getLsbD_last]
  rfl

/-- Shifting BS_ACC left takes its highest bit off its unread bits (R79). -/
theorem take_lowBits_shiftLeft (a : Byte) {n : Nat} (hpos : 0 < n) (hn : n ≤ 8) :
    (lowBits 8 a).take n = a.msb :: (lowBits 8 (a <<< 1)).take (n - 1) := by
  obtain ⟨k, rfl⟩ : ∃ k, n = k + 1 := ⟨n - 1, by omega⟩
  rw [lowBits_eight_cons, List.take_succ_cons, lowBits_shiftLeft (n := 7) (k := 1) a (by decide), Nat.add_sub_cancel,
    List.take_append_of_le_length (by rw [lowBits_length]; omega)]

/-- What BS_RBIT answers with these bits left: the first of them, EOD without one (R79). -/
def bitResponse : List Bool → Response
  | [] => ⟨.eod, 0⟩
  | b :: _ => okBit b

/-- A bit shifted out of BS_ACC is the first of those left. -/
theorem unreadBits_takeBit (hpos : 0 < s.bs.nbits) (hmax : s.bs.nbits ≤ 8) :
    unreadBits s = s.bs.acc.msb :: unreadBits (takeBit s) := by
  rw [unreadBits, take_lowBits_shiftLeft _ hpos hmax]
  rfl

/-- BS_RBIT answers the first of the bits left, which leaves the others; with none left EOD, which leaves none (R79). -/
theorem StreamInv.execBsRbit_bits (hs : StreamInv s) (hmode : s.bs.mode = .read) :
    ∃ t, execBsRbit s = .next t ∧ unreadBits t = (unreadBits s).tail ∧
      t.responses = bitResponse (unreadBits s) :: s.responses := by
  rcases Nat.eq_zero_or_pos s.bs.nbits with hnbits | hpos
  · have hleft : unreadBits s = unpack (unreadBytes s) := by
      rw [unreadBits, hnbits]
      rfl
    rw [hleft]
    cases hun : unreadBytes s with
    | nil =>
      obtain ⟨-, hrest⟩ := (hs.prefetch hmode).end_of_unreadBytes_nil hun
      refine ⟨_, hs.execBsRbit_of_end hmode hnbits hun, ?_, rfl⟩
      have hstill : unreadBytes (respond .eod 0 { s with bs := { s.bs with bitPhase := true, cur := 0, avail := 0 } }) = [] := hrest
      rw [unreadBits, hstill]
      exact congrArg (List.take · _ ++ []) hnbits
    | cons v rest =>
      obtain ⟨-, -, hrest⟩ := (hs.prefetch hmode).enterBitPhase.fetchByte_outcome hs.param
      obtain ⟨-, -, -, -, -, -, -, -, -, -, -, -, -, -, hresp, -⟩ := fetchByte_frame (enterBitPhase s)
      rw [show unreadBytes (enterBitPhase s) = v :: rest from hun, List.tail_cons] at hrest
      have hloaded : unreadBits (loadByte v (fetchByte (enterBitPhase s)).2) = unpack (v :: rest) := by
        rw [unpack_cons, ← hrest]
        exact congrArg (· ++ _) (List.take_of_length_le (lowBits_length 8 v).le)
      have hbit := unreadBits_takeBit (s := loadByte v (fetchByte (enterBitPhase s)).2) (Nat.succ_pos 7) (le_refl 8)
      refine ⟨_, hs.execBsRbit_of_unread hmode hnbits hun, ?_, ?_⟩
      · rw [← hloaded, hbit]
        rfl
      · rw [← hloaded, hbit, topBit_msb]
        exact congrArg _ hresp
  · have hbit := unreadBits_takeBit hpos ((hs.read hmode).nbits.trans (by decide))
    refine ⟨_, execBsRbit_of_shift hmode (Nat.ne_of_gt hpos), ?_, ?_⟩
    · rw [hbit]
      rfl
    · rw [hbit, topBit_msb]
      rfl

/-- From `s` to `t` one BS_RBIT answered the first of the bits left in `s`, or EOD. -/
structure ReadOne (rest : List Event) (s t : State) : Prop where
  inv : StreamInv t
  mode : t.bs.mode = .read
  bits : unreadBits t = (unreadBits s).tail
  data : t.file.data = s.file.data
  pending : t.pending = rest
  responses : t.responses = bitResponse (unreadBits s) :: s.responses

theorem run_bsRbit_one {rest : List Event} (hs : StreamInv s) (hmode : s.bs.mode = .read)
    (hpend : s.pending = present .bsRbit :: rest) :
    ∃ t, (∀ n, core.run (n + 1) s = core.run n t) ∧ ReadOne rest s t := by
  obtain ⟨t, hexec, hbits, hresp⟩ := (hs.granted rest).execBsRbit_bits hmode
  have hframe := frame_of_exec (i := .bsRbit) hexec
  exact ⟨t, run_present hpend hexec, streamInv_of_exec (i := .bsRbit) (hs.granted rest) hexec,
    (mode_of_exec (i := .bsRbit) hexec nofun nofun nofun).trans hmode, hbits, hframe.data rfl, hframe.pending, hresp⟩

/-- The responses to `k` more BS_RBIT than there are bits left, the newest first: the bits, then EOD (R79, R84). -/
def readResponses (k : Nat) (l : List Bool) : List Response := List.replicate k ⟨.eod, 0⟩ ++ (l.map okBit).reverse

theorem readResponses_nil_succ (k : Nat) (r : List Response) :
    readResponses (k + 1) [] ++ r = readResponses k [] ++ bitResponse [] :: r := by
  simp [readResponses, bitResponse, List.replicate_succ']

theorem readResponses_cons (k : Nat) (b : Bool) (l : List Bool) (r : List Response) :
    readResponses k (b :: l) ++ r = readResponses k l ++ bitResponse (b :: l) :: r := by
  simp [readResponses, bitResponse]

/-- A run of BS_RBIT answers every bit left in order, and EOD from then on. -/
theorem run_bsRbit (l : List Bool) (k : Nat) (hs : StreamInv s) (hmode : s.bs.mode = .read) (hbits : unreadBits s = l)
    (hpend : s.pending = List.replicate (l.length + k) (present .bsRbit)) :
    ∃ t, core.run (l.length + k) s = .next t ∧ t.file.data = s.file.data ∧
      t.responses = readResponses k l ++ s.responses := by
  induction l generalizing s with
  | nil =>
    rw [List.length_nil, Nat.zero_add] at hpend ⊢
    induction k generalizing s with
    | zero => exact ⟨s, rfl, rfl, rfl⟩
    | succ k ih =>
      obtain ⟨t, hfirst, hone⟩ := run_bsRbit_one hs hmode hpend
      obtain ⟨u, hrun, hdata, hresp⟩ := ih hone.inv hone.mode (by rw [hone.bits, hbits]; rfl) hone.pending
      refine ⟨u, (hfirst k).trans hrun, hdata.trans hone.data, ?_⟩
      rw [hresp, hone.responses, hbits, readResponses_nil_succ]
  | cons b l ih =>
    rw [List.length_cons, Nat.add_right_comm] at hpend ⊢
    obtain ⟨t, hfirst, hone⟩ := run_bsRbit_one hs hmode hpend
    obtain ⟨u, hrun, hdata, hresp⟩ := ih hone.inv hone.mode (by rw [hone.bits, hbits]; rfl) hone.pending
    refine ⟨u, (hfirst _).trans hrun, hdata.trans hone.data, ?_⟩
    rw [hresp, hone.responses, hbits, readResponses_cons]

/-- Settles O52: on a byte boundary the bits left are those of the unread bytes. -/
theorem everyBitIsReadThenEod : Obligations.EveryBitIsReadThenEod := by
  intro s d k hs hmode hnbits hun hpend
  have hbits : unreadBits s = unpack d := by
    rw [unreadBits, hnbits, hun]
    rfl
  rw [← unpack_length] at hpend ⊢
  obtain ⟨t, hrun, -, hresp⟩ := run_bsRbit (unpack d) k hs hmode hbits hpend
  exact ⟨t, hrun, hresp⟩

/-! ### Open, write, close, open, read (R84) -/

/-- A granted write open starts with FILE empty and nothing written (R76). -/
theorem run_bsOpen_write {rest : List Event} (hs : StreamInv s) (hmode : s.bs.mode = .closed)
    (hpend : s.pending = present (.bsOpen 1) :: rest) :
    ∃ t, (∀ n, core.run (n + 1) s = core.run n t) ∧ StreamInv t ∧ t.bs.mode = .write ∧ writtenBits t = [] ∧
      t.pending = rest ∧ t.responses = ⟨.ok, 0⟩ :: s.responses := by
  have hexec : exec (.bsOpen 1) (granted rest s) = _ :=
    execBsOpen_of_granted (s := granted rest s) (m := 1) (mode := .write) rfl hmode rfl
  exact ⟨_, run_present hpend hexec, streamInv_of_exec (hs.granted rest) hexec, rfl, rfl, rfl, rfl⟩

/-- A granted read open starts with every bit of FILE unread (R76). -/
theorem run_bsOpen_read {rest : List Event} (hs : StreamInv s) (hmode : s.bs.mode = .closed)
    (hpend : s.pending = present (.bsOpen 0) :: rest) :
    ∃ t, (∀ n, core.run (n + 1) s = core.run n t) ∧ StreamInv t ∧ t.bs.mode = .read ∧
      unreadBits t = unpack s.file.data ∧ t.file.data = s.file.data ∧ t.pending = rest ∧
      t.responses = ⟨.ok, 0⟩ :: s.responses := by
  have hexec : exec (.bsOpen 0) (granted rest s) = _ :=
    execBsOpen_of_granted (s := granted rest s) (m := 0) (mode := .read) rfl hmode rfl
  exact ⟨_, run_present hpend hexec, streamInv_of_exec (hs.granted rest) hexec, rfl, rfl, rfl, rfl, rfl⟩

/-- Settles O53: the write run leaves FILE = pack(w), whose bits are w and the padding, and the read run answers them. -/
theorem writeThenReadRoundTrip : Obligations.WriteThenReadRoundTrip := by
  intro s w k hs hmode hpend
  have hlen : (unpack (pack w)).length = 8 * ((w.length + 7) / 8) := by rw [unpack_length, pack_length]
  rw [← hlen, List.cons_append, List.cons_append, List.append_assoc] at hpend
  obtain ⟨s₁, hopen, hs₁, hmode₁, hbits₁, hpend₁, hresp₁⟩ := run_bsOpen_write hs hmode hpend
  obtain ⟨s₂, hwrite, hwrote⟩ := run_bsWbit w _ ((unpack (pack w)).length + k + 2) hs₁ hmode₁ hpend₁
  have hbits₂ : writtenBits s₂ = unpack [] ++ w := by rw [hwrote.bits, hbits₁, unpack_nil]
  obtain ⟨s₃, hclose, hs₃, hmode₃, hdata₃, hpend₃, hresp₃⟩ := run_bsClose hwrote.inv hwrote.mode hbits₂ hwrote.pending
  obtain ⟨s₄, hreopen, hs₄, hmode₄, hbits₄, hdata₄, hpend₄, hresp₄⟩ := run_bsOpen_read hs₃ hmode₃ hpend₃
  rw [List.nil_append] at hdata₃
  obtain ⟨t, hread, hdata, hresp⟩ := run_bsRbit (unpack (pack w)) k hs₄ hmode₄ (by rw [hbits₄, hdata₃]) hpend₄
  refine ⟨t, s₄.responses, ?_, by rw [hdata, hdata₄, hdata₃], ?_, ?_⟩
  · have hcount : w.length + 3 + ((unpack (pack w)).length + k) = w.length + ((unpack (pack w)).length + k + 2) + 1 := by
      omega
    rw [← hlen, hcount, hopen, hwrite, hclose, hreopen, hread]
  · rw [hresp, readResponses, unpack_pack, padBits]
  · rw [hresp₄, hresp₃, hwrote.responses, hresp₁]
    simp only [List.length_cons, List.length_append, List.length_reverse, List.length_map]
    omega

end Sys2Proof.Machine
end

section
/-! The heap array as R101's and R102's loops make it (41_priority_queue.md R100 to R102): the model's sift loops are the
relations `SiftUp` and `SiftDown`, and the depth of the array bounds their turns. -/

namespace Sys2Proof.Machine

open Sys2Proof.Claims

/-- The order of R100, spelled out. -/
theorem keyLt_iff_lex (a b : Tree) :
    keyLt a b = true ↔
      a.count.toNat < b.count.toNat ∨ (a.count.toNat = b.count.toNat ∧ a.ksym.toNat < b.ksym.toNat) := by
  simp only [keyLt, Bool.or_eq_true, Bool.and_eq_true, decide_eq_true_eq, BitVec.lt_def, BitVec.toNat_eq]

/-! ### One comparison and one swap, inside the array and at its end -/

theorem slotLt_eq_keyLt {q : List Tree} {i j : Nat} {a b : Tree} (ha : q[i]? = some a) (hb : q[j]? = some b) :
    slotLt q i j = keyLt a b := by
  simp only [slotLt, ha, hb]

theorem slotLt_of_length_le {q : List Tree} {i : Nat} (j : Nat) (h : q.length ≤ i) : slotLt q i j = false := by
  rw [← Bool.not_eq_true, slotLt_iff]
  omega

theorem swapSlots_eq_set {q : List Tree} {i j : Nat} {a b : Tree} (ha : q[i]? = some a) (hb : q[j]? = some b) :
    swapSlots q i j = (q.set i b).set j a := by
  simp only [swapSlots, ha, hb]

/-! ### Sift-up (R101) -/

@[simp] theorem siftUp_zero (fuel : Nat) (q : List Tree) : siftUp fuel 0 q = q := by
  cases fuel <;> rfl

theorem siftUp_succ {i : Nat} (fuel : Nat) (q : List Tree) (hi : 0 < i) :
    siftUp (fuel + 1) i q =
      if slotLt q i ((i - 1) / 2) then siftUp fuel ((i - 1) / 2) (swapSlots q i ((i - 1) / 2)) else q := by
  rw [siftUp, if_neg hi.ne']

/-- The model's loop is R101's; slot `i` lies at most `n` levels below the root, and each turn goes up one level. -/
theorem siftUp_follows (fuel i n : Nat) (q : List Tree) (hfuel : i ≤ fuel) (hi : i < q.length)
    (hdepth : i + 1 < 2 ^ (n + 1)) : ∃ m, m ≤ n ∧ SiftUp m q i (siftUp fuel i q) := by
  induction fuel generalizing i n q with
  | zero =>
    obtain rfl : i = 0 := by omega
    exact ⟨0, n.zero_le, .top⟩
  | succ fuel ih =>
    obtain rfl | hpos := i.eq_zero_or_pos
    · rw [siftUp_zero]
      exact ⟨0, n.zero_le, .top⟩
    cases n with
    | zero => omega
    | succ n =>
      have ha := List.getElem?_eq_getElem hi
      have hparent : (i - 1) / 2 < q.length := by omega
      have hb := List.getElem?_eq_getElem hparent
      rw [siftUp_succ fuel q hpos, slotLt_eq_keyLt ha hb]
      split
      next hlt =>
        have hup : (i - 1) / 2 + 1 < 2 ^ (n + 1) := by rw [pow_succ] at hdepth; omega
        obtain ⟨m, hm, hsift⟩ := ih _ n (swapSlots q i ((i - 1) / 2)) (by omega) (by simpa using hparent) hup
        rw [swapSlots_eq_set ha hb] at hsift ⊢
        exact ⟨m + 1, by omega, .swap hpos ha hb hlt hsift⟩
      next hge => exact ⟨1, by omega, .stay hpos ha hb (Bool.eq_false_of_not_eq_true hge)⟩

/-- `enqueue` of a queue below capacity (R101): the node appended and sifted up, in at most 8 turns. -/
theorem enqueue_follows {q : Queue} (t : Tree) (h : q.slots.length < 256) :
    ∃ q' n, q.enqueue t = ⟨q', q.ovf⟩ ∧ n ≤ 8 ∧ SiftUp n (q.slots ++ [t]) q.slots.length q' := by
  obtain ⟨n, hn, hsift⟩ :=
    siftUp_follows q.slots.length q.slots.length 8 (q.slots ++ [t]) le_rfl (by simp) (by omega)
  refine ⟨_, n, ?_, hn, hsift⟩
  rw [Queue.enqueue, (full_eq_false_iff q).mpr h]
  rfl

/-- `enqueue` of a queue at capacity (R101, R15): the node is dropped. -/
theorem enqueue_at_capacity {q : Queue} (t : Tree) (h : q.slots.length = 256) : q.enqueue t = ⟨q.slots, true⟩ :=
  enqueue_of_full t ((full_iff q).mpr h.ge)

/-! ### Sift-down (R102) -/

/-- The child the model compares with is the one R102 names, where there is a child. -/
theorem isSmallerChild_smallerChild {q : List Tree} {i : Nat} (h : 2 * i + 1 < q.length) :
    IsSmallerChild q i (smallerChild q i) := by
  have hl := List.getElem?_eq_getElem h
  unfold smallerChild
  split
  next hlt =>
    have hr := List.getElem?_eq_getElem ((slotLt_iff q _ _).mp hlt).1
    exact .inr ⟨rfl, _, _, hl, hr, slotLt_eq_keyLt hr hl ▸ hlt⟩
  next hge => exact .inl ⟨rfl, _, hl, fun r hr => slotLt_eq_keyLt hr hl ▸ Bool.eq_false_of_not_eq_true hge⟩

theorem lt_length_of_isSmallerChild {q : List Tree} {i c : Nat} (h : IsSmallerChild q i c) : c < q.length := by
  obtain ⟨rfl, l, hl, -⟩ | ⟨rfl, l, r, -, hr, -⟩ := h
  · exact (List.getElem?_eq_some_iff.mp hl).1
  · exact (List.getElem?_eq_some_iff.mp hr).1

/-- The model's loop is R102's; at most `n` levels of the array lie at and below slot `i`, and each turn goes down one. -/
theorem siftDown_follows (fuel i n : Nat) (q : List Tree) (hfuel : q.length ≤ fuel + i) (hi : i < q.length)
    (hdepth : q.length < (i + 1) * 2 ^ n) : ∃ m, m ≤ n ∧ SiftDown m q i (siftDown fuel i q) := by
  induction fuel generalizing i n q with
  | zero => omega
  | succ fuel ih =>
    cases n with
    | zero => omega
    | succ n =>
      have hcases := smallerChild_cases q i
      rw [siftDown]
      obtain hbottom | hchild := le_or_gt q.length (2 * i + 1)
      · rw [slotLt_of_length_le i (by omega)]
        exact ⟨1, by omega, .bottom hbottom⟩
      have hsmaller := isSmallerChild_smallerChild hchild
      have hc := lt_length_of_isSmallerChild hsmaller
      have ha := List.getElem?_eq_getElem hi
      have hb := List.getElem?_eq_getElem hc
      rw [slotLt_eq_keyLt hb ha]
      split
      next hlt =>
        have hdown : q.length < (smallerChild q i + 1) * 2 ^ n :=
          calc q.length < 2 * (i + 1) * 2 ^ n := by rw [pow_succ] at hdepth; linarith
            _ ≤ (smallerChild q i + 1) * 2 ^ n := Nat.mul_le_mul_right _ (by omega)
        obtain ⟨m, hm, hsift⟩ := ih (smallerChild q i) n (swapSlots q i (smallerChild q i)) (by simp; omega)
          (by simpa using hc) (by simpa using hdown)
        rw [swapSlots_eq_set ha hb] at hsift ⊢
        exact ⟨m + 1, by omega, .swap hsmaller ha hb hlt hsift⟩
      next hge => exact ⟨1, by omega, .stay hsmaller ha hb (Bool.eq_false_of_not_eq_true hge)⟩

@[simp] theorem refill_nil : refill [] = [] := rfl

theorem refill_append_singleton (init : List Tree) (last : Tree) :
    refill (init ++ [last]) = siftDown (init.length + 1) 0 (last :: init) := by
  simp [refill]

/-- What the model leaves of the array below its root is what R102 leaves of it, in at most 8 turns. -/
theorem refilled_refill {rest : List Tree} (h : rest.length < 256) : Refilled rest (refill rest) := by
  refine ⟨fun hnil => by rw [hnil, refill_nil], ?_⟩
  rintro init last rfl
  rw [refill_append_singleton]
  rw [List.length_append, List.length_singleton] at h
  exact siftDown_follows _ 0 8 (last :: init) (by simp) (by simp) (by simpa using h)

/-- Settles O59: each sift loop of the model is the rule's loop, and the array below capacity is eight levels deep. -/
theorem enqueueAndDequeueFollowTheirLoops : Obligations.EnqueueAndDequeueFollowTheirLoops := by
  refine ⟨keyLt_iff_lex, fun q t => ⟨enqueue_at_capacity t, enqueue_follows t⟩,
    fun q hlen => ⟨dequeue_of_nil, fun m rest hslots => ?_⟩⟩
  rw [hslots, List.length_cons] at hlen
  exact ⟨refill rest, dequeue_of_cons hslots, refilled_refill hlen⟩

end Sys2Proof.Machine
end

section
/-! The heap order (41_priority_queue.md R108, R109): enqueue and dequeue keep it, and with different keys it fixes the
order of the dequeues. -/

namespace Sys2Proof.Machine

open Sys2Proof.Claims

theorem dequeue_heap {q : Queue} (hq : heapOrdered q.slots) : heapOrdered q.dequeue.2.slots := by
  cases hslots : q.slots with
  | nil => rwa [dequeue_of_nil hslots]
  | cons m rest =>
    rw [dequeue_of_cons hslots]
    exact refill_heap (hslots ▸ hq)

theorem keyLt_self (t : Tree) : keyLt t t = false := (keyLt_eq_false_iff t t).mpr le_rfl

/-- Settles O17: the sift loops restore the heap order, and each element's key is at least its parent's. -/
theorem enqueueAndDequeueKeepTheHeap : Obligations.EnqueueAndDequeueKeepTheHeap := by
  refine fun q hq => ⟨fun t => enqueue_heap t hq, dequeue_heap hq, fun m rest hslots => ?_⟩
  rw [hslots] at hq ⊢
  exact List.forall_mem_cons.mpr ⟨keyLt_self m, heap_root_least hq⟩

/-! ### The order of the dequeues (R108) -/

/-- Two nodes have different keys, said as R100's order says it. -/
def KeysDiffer (a b : Tree) : Prop := keyLt a b = true ∨ keyLt b a = true

theorem KeysDiffer.symm {a b : Tree} (h : KeysDiffer a b) : KeysDiffer b a := Or.symm h

theorem keysDiffer_iff (a b : Tree) : KeysDiffer a b ↔ keyNat a ≠ keyNat b := by
  rw [KeysDiffer, keyLt_iff, keyLt_iff, Nat.lt_or_gt]

theorem drain_of_cons (n : Nat) {q : Queue} {m : Tree} {rest : List Tree} (h : q.slots = m :: rest) :
    drain (n + 1) q = m :: drain n { q with slots := refill rest } := by
  rw [drain, dequeue_of_cons h]

/-- Dequeuing until the queue is empty gives its elements. -/
theorem drain_perm (n : Nat) (q : Queue) (hlen : q.slots.length = n) : (drain n q).Perm q.slots := by
  induction n generalizing q with
  | zero => rw [List.length_eq_zero_iff.mp hlen]; exact .nil
  | succ n ih =>
    obtain ⟨m, rest, hslots⟩ := List.exists_cons_of_length_eq_add_one hlen
    rw [drain_of_cons n hslots, hslots]
    rw [hslots, List.length_cons] at hlen
    exact ((ih _ (by simp; omega)).trans (refill_perm rest)).cons m

/-- The root of a heap with different keys has the one least key, and what is left is such a heap again. -/
theorem drain_increasing (n : Nat) (q : Queue) (hlen : q.slots.length = n) (hheap : heapOrdered q.slots)
    (hkeys : q.slots.Pairwise KeysDiffer) : (drain n q).Pairwise (fun a b => keyLt a b = true) := by
  induction n generalizing q with
  | zero => exact .nil
  | succ n ih =>
    obtain ⟨m, rest, hslots⟩ := List.exists_cons_of_length_eq_add_one hlen
    rw [drain_of_cons n hslots]
    rw [hslots] at hlen hheap hkeys
    obtain ⟨hm, hrest⟩ := List.pairwise_cons.mp hkeys
    have hlen' : (refill rest).length = n := by simpa using hlen
    refine List.pairwise_cons.mpr ⟨fun x hx => ?_, ih _ hlen' (refill_heap hheap)
      ((refill_perm rest).symm.pairwise hrest KeysDiffer.symm)⟩
    have hmem : x ∈ rest := (refill_perm rest).mem_iff.mp ((drain_perm n _ hlen').mem_iff.mp hx)
    exact (hm x hmem).resolve_right (by simp [heap_root_least hheap x hmem])

/-- A list in strictly increasing key order is the only one of its elements. -/
theorem eq_of_perm_of_increasing {l l' : List Tree} (hp : l.Perm l') (hl : l.Pairwise (fun a b => keyLt a b = true))
    (hl' : l'.Pairwise (fun a b => keyLt a b = true)) : l = l' := by
  refine hp.eq_of_pairwise (fun a b _ _ hab hba => ?_) hl hl'
  rw [keyLt_iff] at hab hba
  omega

/-! ### Different symbols give different keys -/

theorem ksymInternal_eq_or (l r : Tree) : ksymInternal l r = l.ksym ∨ ksymInternal l r = r.ksym := by
  unfold ksymInternal
  split <;> simp

/-- The key symbol of a tree is the symbol of one of its leaves (R13). -/
theorem ksym_mem_symbols {t : Tree} (h : t.wf = true) : t.ksym ∈ t.leaves.map Prod.fst := by
  induction t with
  | leaf s c => simp
  | node c k l r ihl ihr =>
    simp only [Tree.wf, Bool.and_eq_true, decide_eq_true_eq] at h
    obtain ⟨⟨⟨-, rfl⟩, hl⟩, hr⟩ := h
    rw [ksym_node, leaves_node, List.map_append, List.mem_append]
    obtain heq | heq := ksymInternal_eq_or l r
    · exact .inl (heq ▸ ihl hl)
    · exact .inr (heq ▸ ihr hr)

theorem keysDiffer_of_ksym_ne {a b : Tree} (h : a.ksym ≠ b.ksym) : KeysDiffer a b :=
  (keysDiffer_iff a b).mpr fun heq => h (keyNat_inj heq).2

theorem keysDiffer_of_symbols_nodup {l : List Tree} (hwf : ∀ t ∈ l, t.wf = true)
    (hsyms : ((l.flatMap Tree.leaves).map Prod.fst).Nodup) : l.Pairwise KeysDiffer := by
  rw [List.map_flatMap, List.nodup_flatMap] at hsyms
  refine hsyms.2.imp_of_mem fun {a b} ha hb hdisjoint => keysDiffer_of_ksym_ne fun heq => ?_
  exact hdisjoint (ksym_mem_symbols (hwf a ha)) (heq ▸ ksym_mem_symbols (hwf b hb))

/-- Settles O18: every heap layout drains to its elements in strictly increasing key order, and there is one such list. -/
theorem dequeuesComeInKeyOrder : Obligations.DequeuesComeInKeyOrder := by
  refine ⟨fun q hheap hkeys => ?_, fun l => keysDiffer_of_symbols_nodup⟩
  have hperm := drain_perm _ q rfl
  have hincr := drain_increasing _ q rfl hheap hkeys
  refine ⟨hperm, hincr, fun q' hheap' hp => ?_⟩
  have hincr' := drain_increasing _ q' rfl hheap' (hp.symm.pairwise hkeys KeysDiffer.symm)
  exact eq_of_perm_of_increasing ((drain_perm _ q' rfl).trans (hp.trans hperm.symm)) hincr' hincr

end Sys2Proof.Machine
end

section
/-! The priority-queue commands (41_priority_queue.md R103 to R107), from what enqueue, dequeue and a heap slot give. -/

namespace Sys2Proof.Machine

open Sys2Proof.Claims

variable {s : State}

/-! ### PQ_ENQ (R104) -/

theorem exec_pqEnq_of_enqueue {sym : Symbol} {c : Count} {q : Queue} (h : s.pq.enqueue (.leaf sym c) = q) :
    exec (.pqEnq sym c) s = .next (respond .ok (queueLen q) { s with pq := q }) := by
  subst h; rfl

/-- Settles O14: the command enqueues the leaf and answers the new QN. -/
theorem pqEnqResults : Obligations.PqEnqResults := by
  refine fun s sym c => ⟨fun hlen => ?_, fun hlen => ?_⟩
  · have hfull := (full_eq_false_iff s.pq).mpr hlen
    have hperm := enqueue_perm (.leaf sym c) hfull
    have hheap := enqueue_heap (q := s.pq) (.leaf sym c)
    obtain ⟨q, n, henq, hn, hsift⟩ := enqueue_follows (.leaf sym c) hlen
    rw [henq] at hperm hheap
    refine ⟨q, ?_, ⟨n, hn, hsift⟩, hperm, hheap⟩
    rw [exec_pqEnq_of_enqueue henq, queueLen, hperm.length_eq, List.length_cons]
  · rw [exec_pqEnq_of_enqueue (enqueue_at_capacity _ hlen), queueLen, hlen]
    rfl

/-! ### PQ_DEQ (R105) -/

theorem exec_pqDeq_of_nil (h : s.pq.slots = []) : exec .pqDeq s = .next (respond .null 0 { s with root := none }) := by
  show execPqDeq s = _
  rw [execPqDeq, dequeue_of_nil h]
  rfl

theorem exec_pqDeq_of_cons {m : Tree} {rest : List Tree} (h : s.pq.slots = m :: rest) :
    exec .pqDeq s = .next (respond .ok m.count { s with root := some m, pq := ⟨refill rest, s.pq.ovf⟩ }) := by
  show execPqDeq s = _
  rw [execPqDeq, dequeue_of_cons h]
  rfl

/-- Settles O15: the command takes the root of the heap and refills the array. -/
theorem pqDeqResults : Obligations.PqDeqResults := by
  refine fun s => ⟨exec_pqDeq_of_nil, fun m rest hslots hlen => ?_⟩
  rw [hslots] at hlen ⊢
  refine ⟨refill rest, exec_pqDeq_of_cons hslots, refilled_refill hlen, refill_perm rest,
    fun hheap => ⟨fun x hx => ?_, refill_heap hheap⟩⟩
  exact heap_root_least hheap x ((refill_perm rest).mem_iff.mp hx)

/-! ### PQ_PEEKC and PQ_PEEKK (R106, R107) -/

theorem exec_pqPeekc_of_slot {idx : Byte} {t : Tree} (h : slotOperand s.pq idx = some t) :
    exec (.pqPeekc idx) s = .next (respond .ok t.count s) := by
  show execPqPeekc idx s = _
  rw [execPqPeekc, h]
  rfl

theorem exec_pqPeekc_of_none {idx : Byte} (h : slotOperand s.pq idx = none) :
    exec (.pqPeekc idx) s = .next (respond .eArg 0 s) := by
  show execPqPeekc idx s = _
  rw [execPqPeekc, h]
  rfl

theorem exec_pqPeekk_of_slot {idx : Byte} {t : Tree} (h : slotOperand s.pq idx = some t) :
    exec (.pqPeekk idx) s = .next (respond .ok (tagAndKey t) s) := by
  show execPqPeekk idx s = _
  rw [execPqPeekk, h]
  rfl

theorem exec_pqPeekk_of_none {idx : Byte} (h : slotOperand s.pq idx = none) :
    exec (.pqPeekk idx) s = .next (respond .eArg 0 s) := by
  show execPqPeekk idx s = _
  rw [execPqPeekk, h]
  rfl

/-- The tag and the key symbol fit RESULT: nothing is lost in 64 bits. -/
theorem tagAndKey_toNat (t : Tree) : (tagAndKey t).toNat = t.ksym.toNat + 256 * (1 - t.isLeaf.toNat) := by
  have hksym := t.ksym.isLt
  rw [tagAndKey, BitVec.toNat_ofNat, Nat.mod_eq_of_lt (by omega)]

/-- Settles O16: a slot below QN is read as it stands; at QN and above there is none. -/
theorem pqClearAndPeekResults : Obligations.PqClearAndPeekResults := by
  refine fun s idx => ⟨rfl, fun h => ?_, fun h => ?_⟩
  · have hslot : slotOperand s.pq idx = some s.pq.slots[idx.toNat] := List.getElem?_eq_getElem h
    refine ⟨exec_pqPeekc_of_slot hslot, _, exec_pqPeekk_of_slot hslot, ?_⟩
    rw [tagAndKey_toNat]
    cases s.pq.slots[idx.toNat] <;> rfl
  · have hslot : slotOperand s.pq idx = none := List.getElem?_eq_none h
    exact ⟨exec_pqPeekc_of_none hslot, exec_pqPeekk_of_none hslot⟩

end Sys2Proof.Machine
end

section
/-! The merge (42_huffman_tree.md R120, R130(c)): the queue a list of leaves makes, one pass in terms of the two dequeues, and
why the merged tree depends on the leaves alone when their symbols differ. -/

namespace Sys2Proof.Machine

open Sys2Proof.Claims

/-! ### The queue a list of leaves makes -/

/-- A leaf of a list as a node of the queue. -/
def leafNode (x : Symbol × Count) : Tree := .leaf x.1 x.2

theorem queueOfLeaves_append_singleton (l : List (Symbol × Count)) (x : Symbol × Count) :
    queueOfLeaves (l ++ [x]) = (queueOfLeaves l).enqueue (leafNode x) := List.foldl_append

theorem queueOfLeaves_heap (l : List (Symbol × Count)) : heapOrdered (queueOfLeaves l).slots := by
  induction l using List.reverseRecOn with
  | nil => exact (queueInv_of_slots_nil rfl).heap
  | append_singleton l x ih =>
    rw [queueOfLeaves_append_singleton]
    exact enqueue_heap _ ih

/-- Up to 256 leaves are all kept and Q_OVF stays 0. -/
theorem queueOfLeaves_elements {l : List (Symbol × Count)} (h : l.length ≤ 256) :
    (queueOfLeaves l).slots.Perm (l.map leafNode) ∧ (queueOfLeaves l).ovf = false := by
  induction l using List.reverseRecOn with
  | nil => exact ⟨.nil, rfl⟩
  | append_singleton l x ih =>
    rw [List.length_append, List.length_singleton] at h
    obtain ⟨hperm, hovf⟩ := ih (by omega)
    have hroom : (queueOfLeaves l).full = false := by
      rw [full_eq_false_iff, hperm.length_eq, List.length_map]
      exact h
    rw [queueOfLeaves_append_singleton, enqueue_ovf, hovf, hroom, List.map_append]
    exact ⟨(enqueue_perm _ hroom).trans ((hperm.cons _).trans (List.perm_append_singleton _ _).symm), rfl⟩

@[simp] theorem leavesOf_map_leafNode (l : List (Symbol × Count)) : leavesOf (l.map leafNode) = l := by
  rw [leavesOf, List.flatMap_map]
  exact List.flatMap_singleton' l

/-! ### One pass as its two dequeues and its enqueue -/

theorem mergePass_of_dequeue {q q1 q2 : Queue} {l r : Tree} (hl : q.dequeue = (some l, q1)) (hr : q1.dequeue = (some r, q2)) :
    mergePass q = q2.enqueue (mkInternal l r) := by
  rw [mergePass, hl]
  dsimp only
  rw [hr]

/-- A dequeue of a queue that is not empty. -/
theorem exists_dequeue {q : Queue} {n : Nat} (h : q.slots.length = n + 1) :
    ∃ m q', q.dequeue = (some m, q') ∧ q.slots.Perm (m :: q'.slots) ∧ q'.slots.length = n ∧ q'.ovf = q.ovf := by
  obtain ⟨m, rest, hslots⟩ := List.exists_cons_of_length_eq_add_one h
  refine ⟨m, _, dequeue_of_cons hslots, hslots ▸ (refill_perm rest).symm.cons m, ?_, rfl⟩
  rw [hslots, List.length_cons] at h
  rw [refill_length]
  omega

theorem drain_of_dequeue (n : Nat) {q q1 : Queue} {m : Tree} (h : q.dequeue = (some m, q1)) :
    drain (n + 1) q = m :: drain n q1 := by
  rw [drain.eq_def]
  dsimp only
  rw [h]

/-- With more than one element the loop goes round once (R120). -/
theorem mergeLoop_succ_of_lt (fuel : Nat) {q : Queue} (h : 1 < q.slots.length) :
    mergeLoop (fuel + 1) q = mergeLoop fuel (mergePass q) := if_pos h

theorem mergeLoop_of_length_le_one (fuel : Nat) {q : Queue} (h : q.slots.length ≤ 1) : mergeLoop fuel q = q := by
  cases fuel with
  | zero => rfl
  | succ fuel => exact if_neg (by omega)

/-- The sentinel joins a lone node alone (R120, R131). -/
theorem addSentinel_of_singleton {q : Queue} {t : Tree} (h : q.slots = [t]) :
    addSentinel q = q.enqueue (.leaf (sentinelSym t.ksym) 0) := by
  rw [addSentinel, h]

theorem addSentinel_of_length_ne_one {q : Queue} (h : q.slots.length ≠ 1) : addSentinel q = q := by
  obtain ⟨t, ht, -⟩ | ⟨-, heq⟩ := (addSentinel_spec q).2
  · exact absurd (congrArg List.length ht) h
  · exact heq

theorem merge_of_length_ne_one {q : Queue} (h : q.slots.length ≠ 1) : q.merge = (mergeLoop q.slots.length q).dequeue := by
  rw [Queue.merge, addSentinel_of_length_ne_one h]

/-! ### Different symbols make the merge independent of the heap's layout (R130(c)) -/

/-- A heap of well-formed trees whose leaves have pairwise different symbols. -/
structure DistinctHeap (q : Queue) : Prop where
  heap : heapOrdered q.slots
  wf : ∀ t ∈ q.slots, t.wf = true
  symbols : ((leavesOf q.slots).map Prod.fst).Nodup

section
variable {q q' : Queue}

theorem DistinctHeap.keysDiffer (h : DistinctHeap q) : q.slots.Pairwise KeysDiffer :=
  keysDiffer_of_symbols_nodup h.wf h.symbols

theorem length_le_leavesOf_length (l : List Tree) : l.length ≤ (leavesOf l).length := by
  induction l with
  | nil => exact Nat.zero_le _
  | cons t l ih =>
    have hpos := leaves_length_pos t
    rw [leavesOf, List.flatMap_cons, List.length_append, List.length_cons]
    rw [leavesOf] at ih
    omega

/-- There are 256 symbols (R4). -/
theorem length_le_of_symbols_nodup {l : List Symbol} (h : l.Nodup) : l.length ≤ 256 :=
  h.length_le_card.trans_eq (FinEnum.card_eq_fintypeCard.symm.trans (FinEnum.card_bitVec 8))

theorem DistinctHeap.length_le (h : DistinctHeap q) : q.slots.length ≤ 256 :=
  (length_le_leavesOf_length q.slots).trans (by simpa using length_le_of_symbols_nodup h.symbols)

theorem DistinctHeap.mergePass (h : DistinctHeap q) (hlen : 1 < q.slots.length) : DistinctHeap (mergePass q) where
  heap := mergePass_heap h.heap
  wf := by
    obtain ⟨l, r, rest, hperm, hpass, -⟩ := mergePass_spec hlen h.length_le
    have hwf : ∀ t ∈ l :: r :: rest, t.wf = true := fun t ht => h.wf t (hperm.mem_iff.mpr ht)
    obtain ⟨hl, hr, hrest⟩ : l.wf = true ∧ r.wf = true ∧ ∀ t ∈ rest, t.wf = true := by simpa using hwf
    intro t ht
    obtain rfl | hmem := List.mem_cons.mp (hpass.mem_iff.mp ht)
    · rw [mkInternal_wf, hl, hr]
      rfl
    · exact hrest t hmem
  symbols := (((mergePass_leaves hlen h.length_le).1.map Prod.fst).nodup_iff).mpr h.symbols

/-- Any other heap layout of the same trees is such a heap too. -/
theorem DistinctHeap.of_perm (h : DistinctHeap q) (hheap : heapOrdered q'.slots) (hperm : q.slots.Perm q'.slots) :
    DistinctHeap q' where
  heap := hheap
  wf t ht := h.wf t (hperm.mem_iff.mpr ht)
  symbols := ((leavesOf_perm hperm).map Prod.fst).nodup_iff.mp h.symbols

theorem DistinctHeap.dequeue (h : DistinctHeap q) {m : Tree} {q1 : Queue} (hdeq : q.dequeue = (some m, q1))
    (hperm : q.slots.Perm (m :: q1.slots)) : DistinctHeap q1 where
  heap := by simpa [hdeq] using dequeue_heap h.heap
  wf t ht := h.wf t (hperm.mem_iff.mpr (List.mem_cons_of_mem m ht))
  symbols := by
    have hsyms := ((leavesOf_perm hperm).map Prod.fst).nodup_iff.mp h.symbols
    rw [leavesOf, List.flatMap_cons, List.map_append] at hsyms
    exact hsyms.of_append_right

/-- Two layouts of one such heap dequeue the same node (R108) and leave two layouts of one heap. -/
theorem DistinctHeap.exists_dequeue_of_perm (h : DistinctHeap q) (h' : DistinctHeap q') (hperm : q.slots.Perm q'.slots)
    {n : Nat} (hlen : q.slots.length = n + 1) :
    ∃ m q1 q1', q.dequeue = (some m, q1) ∧ q'.dequeue = (some m, q1') ∧ DistinctHeap q1 ∧ DistinctHeap q1' ∧
      q1.slots.Perm q1'.slots ∧ q1.slots.length = n := by
  have hlen' : q'.slots.length = n + 1 := hperm.length_eq.symm.trans hlen
  obtain ⟨m, q1, hdeq, hm, hlen1, -⟩ := exists_dequeue hlen
  obtain ⟨m', q1', hdeq', hm', -, -⟩ := exists_dequeue hlen'
  obtain ⟨-, -, hunique⟩ := dequeuesComeInKeyOrder.1 q h.heap h.keysDiffer
  have hdrain := hunique q' h'.heap hperm.symm
  obtain rfl : m' = m := by
    rw [hlen, hlen', drain_of_dequeue n hdeq, drain_of_dequeue n hdeq'] at hdrain
    exact (List.cons.inj hdrain).1
  exact ⟨m', q1, q1', hdeq, hdeq', h.dequeue hdeq hm, h'.dequeue hdeq' hm',
    (hm.symm.trans (hperm.trans hm')).cons_inv, hlen1⟩

theorem DistinctHeap.mergePass_perm (h : DistinctHeap q) (h' : DistinctHeap q') (hperm : q.slots.Perm q'.slots)
    (hlen : 1 < q.slots.length) : (Machine.mergePass q).slots.Perm (Machine.mergePass q').slots := by
  obtain ⟨n, hn⟩ : ∃ n, q.slots.length = n + 2 := ⟨q.slots.length - 2, by omega⟩
  have hmax := h.length_le
  obtain ⟨l, q1, q1', hl, hl', h1, h1', hperm1, hlen1⟩ := h.exists_dequeue_of_perm h' hperm hn
  obtain ⟨r, q2, q2', hr, hr', -, -, hperm2, hlen2⟩ := h1.exists_dequeue_of_perm h1' hperm1 hlen1
  rw [mergePass_of_dequeue hl hr, mergePass_of_dequeue hl' hr']
  have hroom : q2.full = false := (full_eq_false_iff q2).mpr (by omega)
  have hroom' : q2'.full = false := (full_eq_false_iff q2').mpr (by rw [← hperm2.length_eq]; omega)
  exact (enqueue_perm _ hroom).trans ((hperm2.cons _).trans (enqueue_perm _ hroom').symm)

theorem DistinctHeap.mergeLoop_perm (fuel : Nat) (h : DistinctHeap q) (h' : DistinctHeap q')
    (hperm : q.slots.Perm q'.slots) : (mergeLoop fuel q).slots.Perm (mergeLoop fuel q').slots := by
  induction fuel generalizing q q' with
  | zero => exact hperm
  | succ fuel ih =>
    obtain hle | hlt := le_or_gt q.slots.length 1
    · rwa [mergeLoop_of_length_le_one _ hle, mergeLoop_of_length_le_one _ (hperm.length_eq ▸ hle)]
    · have hlt' : 1 < q'.slots.length := hperm.length_eq ▸ hlt
      rw [mergeLoop_succ_of_lt fuel hlt, mergeLoop_succ_of_lt fuel hlt']
      exact ih (h.mergePass hlt) (h'.mergePass hlt') (h.mergePass_perm h' hperm hlt)

/-- The loop ends on at most one node, so on the same one; a lone node, which the sentinel would join, is left aside. -/
theorem DistinctHeap.merge_eq_of_perm (h : DistinctHeap q) (h' : DistinctHeap q') (hperm : q.slots.Perm q'.slots)
    (hlen : q.slots.length ≠ 1) : q.merge.1 = q'.merge.1 := by
  by_cases hnil : q.slots = []
  · rw [merge_of_nil hnil, merge_of_nil (hnil ▸ hperm).nil_eq.symm]
  · have hnil' : q'.slots ≠ [] := fun hc => hnil (hc ▸ hperm).eq_nil
    have hloop := h.mergeLoop_perm q.slots.length h' hperm
    rw [merge_of_length_ne_one hlen, merge_of_length_ne_one (hperm.length_eq ▸ hlen)]
    obtain ⟨t, ht, -⟩ := mergeLoop_spec hnil h.length_le
    obtain ⟨t', ht', -⟩ := mergeLoop_spec hnil' h'.length_le
    rw [ht, hperm.length_eq, ht', List.singleton_perm_singleton] at hloop
    rw [ht, ht', hloop]
    rfl

end

theorem distinctHeap_queueOfLeaves {l : List (Symbol × Count)} (h : (l.map Prod.fst).Nodup) :
    DistinctHeap (queueOfLeaves l) ∧ (queueOfLeaves l).slots.Perm (l.map leafNode) := by
  have hperm := (queueOfLeaves_elements (by simpa using length_le_of_symbols_nodup h)).1
  refine ⟨⟨queueOfLeaves_heap l, fun t ht => ?_, ?_⟩, hperm⟩
  · obtain ⟨x, -, rfl⟩ := List.mem_map.mp (hperm.mem_iff.mp ht)
    rfl
  · rwa [((leavesOf_perm hperm).map Prod.fst).nodup_iff, leavesOf_map_leafNode]

/-- Settles O24: both orders make layouts of one heap. -/
theorem mergeDoesNotDependOnEnqueueOrder : Obligations.MergeDoesNotDependOnEnqueueOrder := by
  intro l l' hnodup hperm
  by_cases hlen : l.length = 1
  · obtain ⟨x, rfl⟩ := List.length_eq_one_iff.mp hlen
    rw [List.singleton_perm.mp hperm]
  obtain ⟨h, hslots⟩ := distinctHeap_queueOfLeaves hnodup
  obtain ⟨h', hslots'⟩ := distinctHeap_queueOfLeaves ((hperm.map Prod.fst).nodup_iff.mp hnodup)
  exact h.merge_eq_of_perm h' (hslots.trans ((hperm.map leafNode).trans hslots'.symm))
    (by rwa [hslots.length_eq, List.length_map])

end Sys2Proof.Machine
end

section
/-! The frequency table (42_huffman_tree.md R115 to R119): what a scan leaves in each counter and in their sum, and the queue
HT_LEAVES makes of the counters that are not 0. -/

namespace Sys2Proof.Machine

open Sys2Proof.Claims

/-! ### FREQ_CLR, FREQ_ADD, FREQ_RD (R115, R116, R118) -/

theorem freqAt_freqBump_self (f : Vector Count 256) (x : Symbol) : freqAt (freqBump f x) x = freqAt f x + 1 := by
  rw [freqAt_freqBump, if_pos rfl]

/-- Settles O12: reading a counter of the cleared table and of the raised one. -/
theorem freqClearAddReadResults : Obligations.FreqClearAddReadResults := by
  refine fun s y => ⟨⟨freqZero, rfl, freqAt_freqZero⟩,
    ⟨freqBump s.freq y, ?_, fun x => freqAt_freqBump s.freq x y⟩, rfl⟩
  exact congrArg (fun v => Host.Outcome.next (respond .ok v _)) (freqAt_freqBump_self s.freq y)

/-! ### FREQ_SCAN (R117) -/

theorem freqScan_append_singleton (d : List Byte) (b : Byte) : freqScan (d ++ [b]) = freqBump (freqScan d) b :=
  List.foldl_append

theorem freqAt_freqScan (d : List Byte) (x : Symbol) : freqAt (freqScan d) x = BitVec.ofNat 64 (d.count x) := by
  induction d using List.reverseRecOn with
  | nil => exact freqAt_freqZero x
  | append_singleton d b ih =>
    rw [freqScan_append_singleton, freqAt_freqBump, List.count_append]
    obtain rfl | hne := eq_or_ne x b
    · rw [if_pos rfl, ih, List.count_singleton_self, BitVec.ofNat_add]
      rfl
    · rw [if_neg hne, ih, List.count_singleton, if_neg (by simpa using hne.symm), Nat.add_zero]

/-- One increment raises the sum of the counters by one, modulo 2^64. -/
theorem sum_freqBump (f : Vector Count 256) (x : Symbol) : (freqBump f x).toList.sum = f.toList.sum + 1 := by
  have hx : x.toNat < f.toList.length := by
    rw [Vector.length_toList]
    exact x.isLt
  have hset : (freqBump f x).toList = f.toList.set x.toNat (f.toList[x.toNat] + 1) := by
    simp [freqBump, freqSet, freqAt, Vector.toList_set]
  rw [hset, List.sum_set', dif_pos hx, neg_add_cancel_left]

theorem sum_freqScan (d : List Byte) : (freqScan d).toList.sum = BitVec.ofNat 64 d.length := by
  induction d using List.reverseRecOn with
  | nil =>
    show (Vector.replicate 256 (0 : Count)).toList.sum = 0
    rw [Vector.toList_replicate, List.sum_replicate, smul_zero]
  | append_singleton d b ih =>
    rw [freqScan_append_singleton, sum_freqBump, ih, List.length_append, BitVec.ofNat_add]
    rfl

theorem execFreqScan_of_granted {s : State} (h : s.envInpGrant = true) :
    execFreqScan s = answer (BitVec.ofNat 64 s.inp.length) { s with freq := freqScan s.inp } := if_pos h

/-- Settles O13: with the grant the table is the scan's; without it the check fails. -/
theorem freqScanCountsTheBytes : Obligations.FreqScanCountsTheBytes := fun s =>
  ⟨fun h => ⟨freqScan s.inp, execFreqScan_of_granted h, freqAt_freqScan s.inp, sum_freqScan s.inp⟩,
    execFreqScan_of_refused⟩

/-! ### HT_LEAVES (R119) -/

/-- The leaf of a counter that is not 0. -/
def leafOf (f : Vector Count 256) (x : Symbol) : Option (Symbol × Count) :=
  if freqAt f x = 0 then none else some (x, freqAt f x)

/-- The leaves of the counters that are not 0, in ascending order of their symbols. -/
def nonzeroLeaves (f : Vector Count 256) : List (Symbol × Count) := allSymbols.filterMap (leafOf f)

theorem enqueueLeaf_eq (f : Vector Count 256) (q : Queue) (x : Symbol) :
    enqueueLeaf f q x = (leafOf f x).elim q (fun y => q.enqueue (leafNode y)) := by
  unfold enqueueLeaf leafOf
  split <;> rfl

theorem leavesQueue_eq_queueOfLeaves (f : Vector Count 256) : leavesQueue f = queueOfLeaves (nonzeroLeaves f) := by
  rw [leavesQueue, queueOfLeaves, nonzeroLeaves, List.foldl_filterMap]
  congr 1
  funext q x
  rw [enqueueLeaf_eq]
  cases leafOf f x <;> rfl

theorem nonzeroLeaves_length_le (f : Vector Count 256) : (nonzeroLeaves f).length ≤ 256 :=
  (List.length_filterMap_le _ _).trans_eq allSymbols_length

theorem leavesQueue_elements (f : Vector Count 256) :
    (leavesQueue f).slots.Perm ((nonzeroLeaves f).map leafNode) ∧ (leavesQueue f).ovf = false := by
  rw [leavesQueue_eq_queueOfLeaves]
  exact queueOfLeaves_elements (nonzeroLeaves_length_le f)

theorem nonzeroLeaves_map_leafNode (f : Vector Count 256) : (nonzeroLeaves f).map leafNode =
    allSymbols.filterMap (fun x => if freqAt f x = 0 then none else some (.leaf x (freqAt f x))) := by
  rw [nonzeroLeaves, List.map_filterMap]
  congr 1
  funext x
  unfold leafOf
  split <;> rfl

/-- Settles O19: HT_LEAVES enqueues the leaves of the counters that are not 0, of which there are at most 256. -/
theorem htLeavesResults : Obligations.HtLeavesResults := by
  intro s
  obtain ⟨hperm, hovf⟩ := leavesQueue_elements s.freq
  refine ⟨(leavesQueue s.freq).slots, ?_, nonzeroLeaves_map_leafNode s.freq ▸ hperm,
    congrArg Queue.slots (leavesQueue_eq_queueOfLeaves s.freq), leavesQueue_heap s.freq⟩
  rw [← hovf]
  rfl

end Sys2Proof.Machine
end

section
/-! The merge commands (42_huffman_tree.md R120 to R122, R131): the loop of R120 equation by equation, the degenerate queue of
one leaf, and HT_BUILD as its three commands. -/

namespace Sys2Proof.Machine

open Sys2Proof.Claims

/-! ### The loop of R120 -/

theorem full_of_singleton {q : Queue} {u : Tree} (h : q.slots = [u]) : q.full = false := by
  rw [full_eq_false_iff, h, List.length_singleton]
  decide

theorem merge_of_singleton {q : Queue} {u : Tree} (h : q.slots = [u]) :
    q.merge = (q.enqueue (.leaf (sentinelSym u.ksym) 0)).merge := by
  have hlen : (q.enqueue (.leaf (sentinelSym u.ksym) 0)).slots.length = 2 := by
    rw [enqueue_length _ (full_of_singleton h), h]
    rfl
  rw [merge_of_length_ne_one (q := q.enqueue _) (by omega), Queue.merge, addSentinel_of_singleton h]

theorem enqueue_of_nil {q : Queue} (t : Tree) (h : q.slots = []) : q.enqueue t = ⟨[t], q.ovf⟩ := by
  obtain ⟨slots, ovf⟩ := q
  subst h
  rfl

section
variable {q q1 q2 : Queue} {l r : Tree}

theorem merge_eq_mergeLoop_mergePass (hlen : 2 ≤ q.slots.length) :
    q.merge = (mergeLoop (q.slots.length - 1) (mergePass q)).dequeue := by
  obtain ⟨n, hn⟩ : ∃ n, q.slots.length = n + 1 := ⟨q.slots.length - 1, by omega⟩
  rw [merge_of_length_ne_one (by omega), hn, mergeLoop_succ_of_lt n (by omega), Nat.add_sub_cancel]

/-- Two nodes are combined, and the loop ends. -/
theorem merge_of_two (hl : q.dequeue = (some l, q1)) (hr : q1.dequeue = (some r, q2)) (hlen : q.slots.length = 2)
    (hempty : q2.slots = []) : q.merge = (some (mkInternal l r), ⟨[], q2.ovf⟩) := by
  rw [merge_eq_mergeLoop_mergePass hlen.ge, mergePass_of_dequeue hl hr, enqueue_of_nil _ hempty,
    mergeLoop_of_length_le_one _ (List.length_singleton).le]
  rfl

/-- Of three or more the two least are combined, and the merge goes on. -/
theorem merge_of_three_le (hl : q.dequeue = (some l, q1)) (hr : q1.dequeue = (some r, q2)) (hlen : 3 ≤ q.slots.length)
    (hmax : q.slots.length ≤ 256) : q.merge = (q2.enqueue (mkInternal l r)).merge := by
  have hpass := mergePass_length (by omega) hmax
  rw [merge_eq_mergeLoop_mergePass (by omega), ← mergePass_of_dequeue hl hr, merge_of_length_ne_one (by omega), ← hpass,
    Nat.add_sub_cancel]

end

/-- Settles O20: the empty queue, the sentinel, the last pass, any pass before it. -/
theorem mergeFollowsItsLoop : Obligations.MergeFollowsItsLoop := by
  refine fun q hmax => ⟨merge_of_nil, fun u => merge_of_singleton, fun hlen => ?_⟩
  obtain ⟨n, hn⟩ : ∃ n, q.slots.length = n + 2 := ⟨q.slots.length - 2, by omega⟩
  obtain ⟨l, q1, hl, -, hlen1, hovf1⟩ := exists_dequeue hn
  obtain ⟨r, q2, hr, -, hlen2, hovf2⟩ := exists_dequeue hlen1
  refine ⟨l, q1, r, q2, hl, hr, fun htwo => ?_, fun hthree => merge_of_three_le hl hr hthree hmax⟩
  rw [merge_of_two hl hr htwo (List.eq_nil_of_length_eq_zero (by omega)), hovf2, hovf1]
  rfl

/-! ### HT_MERGE (R121) -/

section
variable {s : State}

theorem exec_htMerge_of_none {q : Queue} (h : s.pq.merge = (none, q)) :
    exec .htMerge s = .next (respond .null 0 { s with root := none, pq := q }) := by
  simp only [exec, execHtMerge, h]
  rfl

theorem exec_htMerge_of_some {q : Queue} {t : Tree} (h : s.pq.merge = (some t, q)) :
    exec .htMerge s = .next (respond .ok t.count { s with root := some t, pq := q }) := by
  simp only [exec, execHtMerge, h]
  rfl

/-- Settles O21: the merged tree is over the leaves the loop starts from, which the sentinel joins for a lone node. -/
theorem htMergeResults : Obligations.HtMergeResults := by
  refine fun s hmax hwf => ⟨fun hnil => exec_htMerge_of_none (merge_of_nil hnil), fun u hone => ?_, fun htwo => ?_⟩
  · obtain ⟨t, ht, hleaves, hcount⟩ := merge_of_ne_nil (by simp [hone]) hmax
    have hperm := enqueue_perm (.leaf (sentinelSym u.ksym) 0) (full_of_singleton hone)
    rw [hone, ← addSentinel_of_singleton hone] at hperm
    have hu : t.count = u.count := by
      rw [hcount, countSum_perm hperm]
      simp [countSum]
    refine ⟨t, ?_, merge_wf hmax hwf (congrArg Prod.fst ht), hu, hleaves.trans ?_⟩
    · rw [exec_htMerge_of_some ht, hu]
    · simpa [leavesOf, sentinelSym, sentinelOf] using leavesOf_perm hperm
  · obtain ⟨t, ht, hleaves, hcount⟩ := merge_of_ne_nil (q := s.pq) (List.ne_nil_of_length_pos (by omega)) hmax
    rw [addSentinel_of_length_ne_one (by omega)] at hleaves hcount
    exact ⟨t, exec_htMerge_of_some ht, merge_wf hmax hwf (congrArg Prod.fst ht), hcount, hleaves⟩

/-! ### The degenerate case (R131) -/

theorem sentinelSym_of_ne {x : Symbol} (h : x ≠ 0) : sentinelSym x = 0 := if_neg h

theorem sentinelSym_ne (x : Symbol) : sentinelSym x ≠ x := by
  obtain rfl | hx := eq_or_ne x 0
  · decide
  · rw [sentinelSym_of_ne hx]
    exact hx.symm

/-- The sentinel's key is below the lone leaf's unless the leaf is `Leaf(0, 0)`. -/
theorem keyLt_sentinel {x : Symbol} {c : Count} (h : x ≠ 0 ∨ c ≠ 0) :
    keyLt (.leaf (sentinelSym x) 0) (.leaf x c) = true := by
  rw [keyLt_iff_lex]
  obtain rfl | hc := eq_or_ne c 0
  · have hx : x ≠ 0 := h.resolve_right (not_not.mpr rfl)
    refine .inr ⟨rfl, ?_⟩
    rw [sentinelSym_of_ne hx]
    exact (BitVec.pos_iff_ne_zero x).mpr hx
  · exact .inl ((BitVec.pos_iff_ne_zero c).mpr hc)

/-- The key symbol of the merged pair is 0: one of the two symbols is. -/
theorem mkInternal_sentinel (x : Symbol) (c : Count) :
    mkInternal (.leaf (sentinelSym x) 0) (.leaf x c) = .node c 0 (.leaf (sentinelSym x) 0) (.leaf x c) := by
  have hksym : ksymInternal (.leaf (sentinelSym x) 0) (.leaf x c) = 0 := by
    obtain rfl | hx := eq_or_ne x 0
    · rfl
    · rw [sentinelSym_of_ne hx]
      exact if_pos (Nat.zero_le x.toNat)
  rw [mkInternal, hksym, count_leaf, count_leaf, zero_add]

/-- The second node of a queue moves up past the first when its key is smaller. -/
theorem enqueue_of_singleton {q : Queue} {a : Tree} (t : Tree) (h : q.slots = [a]) :
    q.enqueue t = ⟨if keyLt t a then [t, a] else [a, t], q.ovf⟩ := by
  obtain ⟨slots, ovf⟩ := q
  subst h
  have hlt : slotLt [a, t] 1 0 = keyLt t a := rfl
  have hroom : (Queue.mk [a] ovf).full = false := rfl
  have hswap : swapSlots [a, t] 1 0 = [t, a] := rfl
  rw [Queue.enqueue, hroom]
  show Queue.mk (siftUp 1 1 [a, t]) ovf = _
  rw [siftUp_succ 0 _ Nat.one_pos, hlt, hswap]
  rfl

theorem merge_of_pair {q : Queue} {a b : Tree} (h : q.slots = [a, b]) : q.merge = (some (mkInternal a b), ⟨[], q.ovf⟩) :=
  merge_of_two (q2 := ⟨[], q.ovf⟩) (dequeue_of_cons h) rfl (by rw [h]; rfl) rfl

theorem merge_of_lone_leaf {q : Queue} {x : Symbol} {c : Count} (h : q.slots = [.leaf x c]) (hkey : x ≠ 0 ∨ c ≠ 0) :
    q.merge = (some (.node c 0 (.leaf (sentinelSym x) 0) (.leaf x c)), ⟨[], q.ovf⟩) := by
  rw [merge_of_singleton h, enqueue_of_singleton _ h, ksym_leaf, if_pos (keyLt_sentinel hkey),
    merge_of_pair rfl, mkInternal_sentinel]

/-- Settles O22: which of the two leaves is dequeued first, and the first step of the two paths. -/
theorem degenerateMergePutsTheSentinelLeft : Obligations.DegenerateMergePutsTheSentinelLeft := by
  refine fun s x c hone => ⟨fun hkey => exec_htMerge_of_some (merge_of_lone_leaf hone hkey), ?_, ?_, ?_⟩
  · rintro rfl rfl
    have hmerge : s.pq.merge = (some (.node 0 0 (.leaf 0 0) (.leaf 1 0)), ⟨[], s.pq.ovf⟩) := by
      rw [merge_of_singleton hone, enqueue_of_singleton _ hone]
      exact merge_of_pair (q := ⟨[.leaf 0 0, .leaf 1 0], s.pq.ovf⟩) rfl
    exact exec_htMerge_of_some hmerge
  · simp [Tree.path, show sentinelOf x ≠ x from sentinelSym_ne x]
  · simp [Tree.path]

/-! ### HT_BUILD (R122) -/

/-- No tree results exactly from a queue with no element. -/
theorem merge_eq_none_iff {q : Queue} (hmax : q.slots.length ≤ 256) : q.merge.1 = none ↔ q.slots = [] := by
  refine ⟨fun h => ?_, fun h => by rw [merge_of_nil h]⟩
  by_contra hne
  obtain ⟨t, ht, -⟩ := merge_of_ne_nil hne hmax
  rw [ht] at h
  cases h

theorem leavesQueue_eq_nil_iff (f : Vector Count 256) : (leavesQueue f).slots = [] ↔ ∀ x, freqAt f x = 0 := by
  have hperm := (leavesQueue_elements f).1
  rw [← List.length_eq_zero_iff, hperm.length_eq, List.length_map, List.length_eq_zero_iff, nonzeroLeaves,
    List.filterMap_eq_nil_iff]
  simp [leafOf, mem_allSymbols]

/-- Below 2^64 bytes no counter wraps round to 0. -/
theorem freqScan_eq_zero_iff {d : List Byte} (h : d.length < 2 ^ 64) : (∀ x, freqAt (freqScan d) x = 0) ↔ d = [] := by
  refine ⟨fun hzero => List.eq_nil_iff_forall_not_mem.mpr fun x hx => ?_, ?_⟩
  · have hpos := List.count_pos_iff.mpr hx
    have hle := List.count_le_length (l := d) (a := x)
    have hx := congrArg BitVec.toNat (hzero x)
    rw [freqAt_freqScan, BitVec.toNat_ofNat, Nat.mod_eq_of_lt (by omega)] at hx
    exact hpos.ne' hx
  · rintro rfl
    exact freqAt_freqZero

theorem exec_htBuild_of_none {q : Queue} (hgrant : s.envInpGrant = true)
    (h : (leavesQueue (freqScan s.inp)).merge = (none, q)) :
    exec .htBuild s = .next (respond .null 0 { s with freq := freqScan s.inp, root := none, pq := q }) := by
  simp only [exec, execHtBuild, if_pos hgrant, h]
  rfl

theorem exec_htBuild_of_some {q : Queue} {t : Tree} (hgrant : s.envInpGrant = true)
    (h : (leavesQueue (freqScan s.inp)).merge = (some t, q)) :
    exec .htBuild s =
      .next (respond .ok (BitVec.ofNat 64 s.inp.length) { s with freq := freqScan s.inp, root := some t, pq := q }) := by
  simp only [exec, execHtBuild, if_pos hgrant, h]
  rfl

/-- The state after FREQ_SCAN with the grant. -/
def scanned (s : State) : State := respond .ok (BitVec.ofNat 64 s.inp.length) { s with freq := freqScan s.inp }

/-- The state after HT_LEAVES. -/
def queued (s : State) : State := respond .ok (queueLen (leavesQueue s.freq)) { s with pq := leavesQueue s.freq }

theorem exec_htLeaves_eq (s : State) : exec .htLeaves s = .next (queued s) := rfl

theorem queued_scanned_pq (s : State) : (queued (scanned s)).pq = leavesQueue (freqScan s.inp) := by
  simp [queued, scanned]

/-- Settles O23: both ways end with the merge of the scanned leaves, and a tree results when some byte was counted. -/
theorem htBuildIsScanLeavesMerge : Obligations.HtBuildIsScanLeavesMerge := by
  refine fun s => ⟨execHtBuild_of_refused, fun hgrant => ?_⟩
  have hscan : exec .freqScan s = .next (scanned s) := execFreqScan_of_granted hgrant
  have hroot (hlen : s.inp.length < 2 ^ 64) : (leavesQueue (freqScan s.inp)).merge.1 = none ↔ s.inp = [] := by
    rw [merge_eq_none_iff (queueInv_leavesQueue _).bounded, leavesQueue_eq_nil_iff, freqScan_eq_zero_iff hlen]
  rcases hmerge : (leavesQueue (freqScan s.inp)).merge with ⟨r, q⟩
  rw [hmerge] at hroot
  cases r with
  | none =>
    exact ⟨_, _, _, hscan, exec_htLeaves_eq _, exec_htMerge_of_none (queued_scanned_pq s ▸ hmerge),
      exec_htBuild_of_none hgrant hmerge, hroot⟩
  | some t =>
    exact ⟨_, _, _, hscan, exec_htLeaves_eq _, exec_htMerge_of_some (queued_scanned_pq s ▸ hmerge),
      exec_htBuild_of_some hgrant hmerge, hroot⟩

end

end Sys2Proof.Machine
end

section
/-! Codes and the CODE register (42_huffman_tree.md R123 to R132): `path` against `walk`, and the commands that use them. -/

namespace Sys2Proof.Machine

/-! ### `path` and `walk` (R123) -/

theorem path_leaf (s sym : Symbol) (c : Count) : (Tree.leaf s c).path sym = if s = sym then some [] else none := rfl

/-- The left subtree is searched first. -/
theorem path_node (c : Count) (k sym : Symbol) (l r : Tree) : (Tree.node c k l r).path sym =
    ((l.path sym).map (true :: ·)).or ((r.path sym).map (false :: ·)) := by
  rw [Tree.path]
  cases l.path sym <;> cases r.path sym <;> rfl

theorem path_eq_none_iff (t : Tree) (sym : Symbol) : t.path sym = none ↔ ∀ x ∈ t.leaves, x.1 ≠ sym := by
  induction t with
  | leaf s c => simp [path_leaf]
  | node c k l r ihl ihr =>
    rw [path_node, Option.or_eq_none_iff, Option.map_eq_none_iff, Option.map_eq_none_iff, ihl, ihr, leaves_node,
      List.forall_mem_append]

theorem find?_leaves_eq_none_iff (t : Tree) (sym : Symbol) :
    t.leaves.find? (fun x => x.1 == sym) = none ↔ t.path sym = none := by
  rw [path_eq_none_iff]
  simp

/-- The path ends on the first leaf that carries the symbol. -/
theorem walk_path {t : Tree} {sym : Symbol} {p : List Bool} (h : t.path sym = some p) :
    ∃ c, t.walk p = some (.leaf sym c) ∧ t.leaves.find? (fun x => x.1 == sym) = some (sym, c) := by
  induction t generalizing p with
  | leaf s c =>
    rw [path_leaf, Option.ite_none_right_eq_some] at h
    obtain ⟨rfl, ⟨⟩⟩ := h
    exact ⟨c, rfl, by simp⟩
  | node c k l r ihl ihr =>
    rw [leaves_node, List.find?_append]
    rw [path_node] at h
    cases hl : l.path sym with
    | some p' =>
      rw [hl] at h
      cases h
      obtain ⟨c, hwalk, hfind⟩ := ihl hl
      exact ⟨c, hwalk, by rw [hfind]; rfl⟩
    | none =>
      rw [hl, Option.map_none, Option.none_or, Option.map_eq_some_iff] at h
      obtain ⟨p', hr, rfl⟩ := h
      obtain ⟨c, hwalk, hfind⟩ := ihr hr
      exact ⟨c, hwalk, by rw [(find?_leaves_eq_none_iff l sym).mpr hl, hfind]; rfl⟩

/-- Settles O27: `path` is NONE when neither subtree has the symbol, and follows the search order otherwise. -/
theorem pathLeadsToTheFirstLeaf : Obligations.PathLeadsToTheFirstLeaf :=
  fun t sym => ⟨path_eq_none_iff t sym, fun _ => walk_path⟩

/-- Settles O25: a walk that goes on past a leaf fails, so one path extends another only if both end on the same leaf. -/
theorem codesArePrefixFree : Obligations.CodesArePrefixFree := by
  rintro t a b p q hp hq hne ⟨more, rfl⟩
  obtain ⟨c, hwalk, -⟩ := walk_path hp
  obtain ⟨c', hwalk', -⟩ := walk_path hq
  rw [walk_append, hwalk, Option.bind_some] at hwalk'
  cases more with
  | nil =>
    cases hwalk'
    exact hne rfl
  | cons _ _ => cases hwalk'

section
variable {s : State} {t : Tree} {sym : Symbol} {p : List Bool}

/-! ### HT_CODE (R124) -/

theorem exec_htCode_of_null (sym : Symbol) (hroot : s.root = none) : exec (.htCode sym) s = .next (respond .null 0 s) := by
  simp only [exec, execHtCode, hroot]
  rfl

theorem exec_htCode_of_notFound (hroot : s.root = some t) (hpath : t.path sym = none) :
    exec (.htCode sym) s = .next (respond .eNotFound 0 s) := by
  simp only [exec, execHtCode, hroot, hpath]
  rfl

theorem exec_htCode_of_path (hroot : s.root = some t) (hpath : t.path sym = some p) :
    exec (.htCode sym) s = .next (respond .ok (BitVec.ofNat 64 p.length) { s with code := Code.ofBits p }) := by
  simp only [exec, execHtCode, hroot, hpath]
  rfl

theorem getLsbD_ofBits (hlen : p.length ≤ 256) {j : Nat} (hj : j < p.length) :
    (Code.ofBits p).bits.getLsbD (p.length - 1 - j) = p[j] := by
  have hbits := List.getElem_of_eq (toBits_ofBits p hlen) (i := j) (by simpa using hj)
  simpa [Code.toBits] using hbits

/-- Settles O28: the bits of CODE are the path's, and no others. -/
theorem htCodeLoadsThePath : Obligations.HtCodeLoadsThePath := by
  refine fun s sym => ⟨exec_htCode_of_null sym, fun t => exec_htCode_of_notFound, fun t p hroot hpath hlen =>
    ⟨(Code.ofBits p).bits, ?_, fun j => getLsbD_ofBits hlen, ?_⟩⟩
  · rw [exec_htCode_of_path hroot hpath, ← ofBits_len p]
  · simpa using (codeInv_ofBits p hlen).2

/-- HT_MERGE of a heap of leaves leaves the invariant of ROOT (R26, R27). -/
theorem rootInv_of_exec_htMerge {s' : State} (hqueue : QueueInv s.pq) (hexec : exec .htMerge s = .next s') :
    RootInv s'.root := by
  rcases hmerge : s.pq.merge with ⟨_ | t, q⟩
  · cases (exec_htMerge_of_none hmerge).symm.trans hexec
    exact (hqueue.merge hmerge).1
  · cases (exec_htMerge_of_some hmerge).symm.trans hexec
    exact (hqueue.merge hmerge).1

/-- Settles O26: every step of a path leaves a leaf aside, and a merge of leaves has at most 256 of them. -/
theorem mergedCodesFitTheRegister : Obligations.MergedCodesFitTheRegister := by
  refine ⟨fun _ _ _ => path_length_lt, fun s s' t sym p hqueue hexec hroot hpath => ?_⟩
  obtain ⟨-, hleaves⟩ := rootInv_of_exec_htMerge hqueue hexec t hroot
  have hlen := path_length_lt hpath
  exact ⟨by omega, _, exec_htCode_of_path hroot hpath⟩

/-! ### HT_FIND (R125) -/

theorem exec_htFind_of_null (hroot : s.root = none) : exec .htFind s = .next (respond .null 0 s) := by
  simp only [exec, execHtFind, hroot]
  rfl

theorem exec_htFind_of_leaf {c : Count} (hroot : s.root = some t) (hwalk : t.walk s.code.toBits = some (.leaf sym c)) :
    exec .htFind s = .next (respond .ok (BitVec.ofNat 64 sym.toNat) s) := by
  simp only [exec, execHtFind, hroot, hwalk, BitVec.ofNat_toNat]
  rfl

theorem exec_htFind_of_node {c : Count} {k : Symbol} {l r : Tree} (hroot : s.root = some t)
    (hwalk : t.walk s.code.toBits = some (.node c k l r)) : exec .htFind s = .next (respond .eNotFound 0 s) := by
  simp only [exec, execHtFind, hroot, hwalk]
  rfl

theorem exec_htFind_of_fail (hroot : s.root = some t) (hwalk : t.walk s.code.toBits = none) :
    exec .htFind s = .next (respond .eNotFound 0 s) := by
  simp only [exec, execHtFind, hroot, hwalk]
  rfl

/-- Settles O29: the bits are those HT_FIND reads, and the walk along them ends in one of three ways. -/
theorem htFindWalksTheCode : Obligations.HtFindWalksTheCode := by
  rintro s _ rfl
  exact ⟨exec_htFind_of_null, fun t sym c => exec_htFind_of_leaf, fun t c k l r => exec_htFind_of_node,
    fun t => exec_htFind_of_fail⟩

/-- Settles O30: CODE reads back as the path, which leads to a leaf with the symbol. -/
theorem htFindUndoesHtCode : Obligations.HtFindUndoesHtCode := by
  intro s t sym hinv hroot hmem
  have hsome : t.path sym ≠ none := by
    rw [Ne, path_eq_none_iff]
    push Not
    exact hmem
  obtain ⟨p, hpath⟩ := Option.ne_none_iff_exists'.mp hsome
  obtain ⟨c, hwalk, -⟩ := walk_path hpath
  obtain ⟨-, hmax⟩ := hinv t hroot
  have hlen := path_length_lt hpath
  refine ⟨_, exec_htCode_of_path hroot hpath, exec_htFind_of_leaf (t := t) (c := c) hroot ?_⟩
  rwa [respond_code, toBits_ofBits p (by omega)]

/-! ### HT_SIZE and HT_FREE (R126, R127) -/

/-- Every Internal node has two children, so there is one fewer of them than of the leaves. -/
theorem size_add_one (t : Tree) : t.size + 1 = 2 * t.leaves.length := by
  induction t with
  | leaf => rfl
  | node c k l r ihl ihr =>
    rw [Tree.size, leaves_node, List.length_append]
    omega

theorem exec_htSize_of_size {n : Nat} (h : rootSize s.root = n) :
    exec .htSize s = .next (respond .ok (BitVec.ofNat 64 n) s) := by
  subst h
  rfl

/-- Settles O31: a tree of k leaves has k - 1 Internal nodes. -/
theorem htSizeAndFreeResults : Obligations.HtSizeAndFreeResults := by
  refine fun s => ⟨fun hroot => exec_htSize_of_size (by rw [hroot]; rfl), fun t hroot => exec_htSize_of_size ?_,
    fun t hinv hroot => ?_, rfl⟩
  · rw [hroot, ← size_add_one]
    rfl
  · obtain ⟨-, hmax⟩ := hinv t hroot
    omega

/-! ### CODE_CLR and CODE_PUSH (R128, R129) -/

theorem execCodePush_of_full (b : Byte) (h : s.code.len = 256) : execCodePush b s = refuse .eArg s := by
  unfold execCodePush
  cases bitOperand b with
  | none => rfl
  | some bit => exact if_pos h

theorem execCodePush_of_room {b : Byte} {bit : Bool} (hb : bitOperand b = some bit) (h : s.code.len < 256) :
    execCodePush b s = answer (BitVec.ofNat 64 (s.code.len + 1)) { s with code := s.code.push bit } := by
  rw [execCodePush, hb]
  exact if_neg h.ne

/-- Settles O32: the checks of CODE_PUSH, then the pushed bit, which loses none below 256 bits. -/
theorem codeClearAndPushResults : Obligations.CodeClearAndPushResults := by
  rintro s b ⟨-, hbits⟩
  refine ⟨rfl, execCodePush_of_operand, execCodePush_of_full b, fun hb hlen => ?_⟩
  obtain ⟨bit, hbit, hvalue⟩ := bitOperand_of_le_one hb
  refine ⟨(s.code.push bit).bits, execCodePush_of_room hbit hlen, ?_⟩
  have hmax : 2 ^ s.code.len ≤ 2 ^ 255 := Nat.pow_le_pow_right (by decide) (by omega)
  rw [push_bits_toNat _ _ (hbits.trans_le hmax), hvalue]

end

end Sys2Proof.Machine
end

section
/-! The text of a tree block (43_tree_codec.md R140 to R143, R147): the decimal spelling, what a record and a block are made
of, and TC_WTREE. -/

namespace Sys2Proof.Machine

open Sys2Proof.Claims

/-! ### The decimal spelling (R147) -/

theorem isDigit_iff (c : Byte) : isDigit c = true ↔ 0x30 ≤ c.toNat ∧ c.toNat ≤ 0x39 := by simp [isDigit]

theorem dec_of_lt {n : Nat} (h : n < 10) : dec n = [digitByte n] := by rw [dec_eq, if_pos h]

theorem dec_of_le {n : Nat} (h : 10 ≤ n) : dec n = dec (n / 10) ++ [digitByte (n % 10)] := by
  rw [dec_eq, if_neg h.not_gt]

/-- Induction along the recursion of `dec`. -/
theorem dec_induction {P : Nat → Prop} (digit : ∀ n < 10, P n) (number : ∀ n, 10 ≤ n → P (n / 10) → P n) (n : Nat) : P n := by
  induction n using Nat.strong_induction_on with
  | _ n ih =>
    obtain h | h := lt_or_ge n 10
    · exact digit n h
    · exact number n h (ih (n / 10) (by omega))

theorem digitsVal_dec (n : Nat) : digitsVal 0 (dec n) = n := by
  induction n using dec_induction with
  | digit n h => rw [dec_of_lt h, digitsVal_cons, digitsVal_nil, digitVal_digitByte h, Nat.zero_mul, Nat.zero_add]
  | number n h ih =>
    rw [dec_of_le h, digitsVal_append, ih, digitsVal_cons, digitsVal_nil, digitVal_digitByte (Nat.mod_lt n (by decide))]
    omega

theorem isDigit_of_mem_dec {n : Nat} : ∀ c ∈ dec n, isDigit c = true := by
  induction n using dec_induction with
  | digit n h =>
    rw [dec_of_lt h]
    exact List.forall_mem_singleton.mpr (isDigit_digitByte h)
  | number n h ih =>
    rw [dec_of_le h, List.forall_mem_append]
    exact ⟨ih, List.forall_mem_singleton.mpr (isDigit_digitByte (Nat.mod_lt n (by decide)))⟩

/-- No leading zero: the first digit is that of the leading quotient, which is not 0. -/
theorem head?_dec_ne_zero {n : Nat} (hn : n ≠ 0) : ∀ c, (dec n).head? = some c → c ≠ 0x30 := by
  induction n using dec_induction with
  | digit n h =>
    rw [dec_of_lt h]
    rintro _ ⟨⟩ hzero
    have hvalue : (0x30 : Byte).toNat = 0x30 + n := hzero ▸ digitByte_toNat h
    exact hn (Nat.left_eq_add.mp hvalue)
  | number n h ih =>
    rw [dec_of_le h, List.head?_append_of_ne_nil _ (dec_ne_nil _)]
    exact ih (by omega)

theorem dec_length_pos (n : Nat) : 1 ≤ (dec n).length := List.length_pos_of_ne_nil (dec_ne_nil n)

theorem dec_length_le {n : Nat} (k : Nat) (h : n < 10 ^ (k + 1)) : (dec n).length ≤ k + 1 := by
  induction n using dec_induction generalizing k with
  | digit n hn =>
    rw [dec_of_lt hn, List.length_singleton]
    exact Nat.le_add_left 1 k
  | number n hn ih =>
    cases k with
    | zero => omega
    | succ k =>
      rw [dec_of_le hn, List.length_append, List.length_singleton]
      exact Nat.succ_le_succ (ih k (Nat.div_lt_of_lt_mul (by rwa [← Nat.pow_succ'])))

theorem dec_length_le_of_count {n : Nat} (h : n < 2 ^ 64) : (dec n).length ≤ 20 := dec_length_le 19 (h.trans (by decide))

theorem dec_length_le_of_symbol {n : Nat} (h : n < 256) : (dec n).length ≤ 3 := dec_length_le 2 (h.trans (by decide))

/-- Settles O41: the two equations of `dec`, what its digits spell, and how many there are. -/
theorem decSpellsTheNumber : Obligations.DecSpellsTheNumber := fun n =>
  ⟨dec_of_lt, dec_of_le, digitsVal_dec n, fun c hc => (isDigit_iff c).mp (isDigit_of_mem_dec c hc), head?_dec_ne_zero, rfl,
    dec_length_pos n, dec_length_le_of_count, dec_length_le_of_symbol⟩

/-! ### Records and blocks (R140, R142) -/

theorem serRecord_length_bounds (x : Symbol × Count) : 4 ≤ (serRecord x).length ∧ (serRecord x).length ≤ 25 := by
  have hcount := dec_length_pos x.2.toNat
  have hcount' := dec_length_le_of_count x.2.isLt
  have hsym := dec_length_pos x.1.toNat
  have hsym' := dec_length_le_of_symbol x.1.isLt
  simp only [serRecord, List.length_append, List.length_singleton]
  omega

theorem records_length_bounds (l : List (Symbol × Count)) :
    4 * l.length ≤ (l.flatMap serRecord).length ∧ (l.flatMap serRecord).length ≤ 25 * l.length := by
  induction l with
  | nil => exact ⟨Nat.le_refl 0, Nat.le_refl 0⟩
  | cons x l ih =>
    have hx := serRecord_length_bounds x
    rw [List.flatMap_cons, List.length_append, List.length_cons]
    omega

theorem ser_some (t : Tree) : ser (some t) = blockText t.leaves := rfl

theorem ser_length (t : Tree) : (ser (some t)).length = 2 + (t.leaves.flatMap serRecord).length := by
  simp only [ser, List.length_append, List.length_singleton]
  omega

/-- Settles O42: each leaf's record is 4 to 25 bytes long. -/
theorem serializedTreeAndItsLength : Obligations.SerializedTreeAndItsLength := by
  refine ⟨rfl, fun t => ⟨ser_some t, ?_⟩⟩
  have hrecords := records_length_bounds t.leaves
  rw [ser_length]
  omega

/-! ### TC_WTREE (R143) -/

theorem execTcWtree_of_header {s : State} (h : headerCheck .write s = none) :
    execTcWtree s = answer (BitVec.ofNat 64 (ser s.root).length) (appendHeader (ser s.root) s) := by
  rw [execTcWtree, h]
  rfl

/-- Settles O43: the two checks, then the header append. -/
theorem tcWtreeAppendsTheBlock : Obligations.TcWtreeAppendsTheBlock := by
  intro s text htext
  refine ⟨fun hmode => execTcWtree_of_check (headerCheck_of_mode hmode),
    fun hmode hphase => execTcWtree_of_check (headerCheck_of_phase hmode hphase), fun hmode hphase => ?_⟩
  obtain rfl : text = ser s.root := by
    rw [htext]
    cases s.root <;> rfl
  exact execTcWtree_of_header ((headerCheck_eq_none_iff .write s).mpr ⟨hmode, hphase⟩)

end Sys2Proof.Machine
end

section
/-! The parser of TC_RTREE (43_tree_codec.md R144): which text each of its points stands behind, how a byte moves it, and so
which inputs it accepts. -/

namespace Sys2Proof.Machine

open Sys2Proof.Claims

/-! ### Numerals and records (R140) -/

/-- A numeral of R140 below a bound, and the number it spells. -/
structure Spells (bound : Nat) (d : List Byte) (n : Nat) : Prop where
  below : numeralBelow bound d = true
  value : numVal d = n

section
variable {bound n : Nat} {d : List Byte} {c : Byte}

theorem numVal_append_singleton (d : List Byte) (c : Byte) : numVal (d ++ [c]) = numVal d * 10 + digitVal c :=
  digitsVal_append 0 d [c]

theorem numeralBelow_iff :
    numeralBelow bound d = true ↔ d ≠ [] ∧ (∀ c ∈ d, isDigit c = true) ∧ digitsVal 0 d < bound := by
  have hdigits : d.all isDec = true ↔ ∀ c ∈ d, isDigit c = true := List.all_eq_true
  rw [numeralBelow, Bool.and_eq_true, Bool.and_eq_true, hdigits, decide_eq_true_iff, Bool.not_eq_true',
    List.isEmpty_eq_false_iff, and_assoc]
  rfl

theorem spells_dec (h : n < bound) : Spells bound (dec n) n where
  below := numeralBelow_iff.mpr ⟨dec_ne_nil n, isDigit_of_mem_dec, (digitsVal_dec n).trans_lt h⟩
  value := digitsVal_dec n

theorem digitVal_lt (hc : isDigit c = true) : digitVal c < 10 := by
  obtain ⟨-, hmax⟩ := (isDigit_iff c).mp hc
  rw [digitVal]
  omega

theorem spells_singleton (hc : isDigit c = true) (hbound : 10 ≤ bound) : Spells bound [c] (digitVal c) := by
  have hvalue : digitsVal 0 [c] = digitVal c := by rw [digitsVal_cons, digitsVal_nil, Nat.zero_mul, Nat.zero_add]
  refine ⟨numeralBelow_iff.mpr ⟨List.cons_ne_nil c [], List.forall_mem_singleton.mpr hc, ?_⟩, hvalue⟩
  rw [hvalue]
  exact (digitVal_lt hc).trans_le hbound

theorem Spells.append_digit (h : Spells bound d n) (hc : isDigit c = true) (hn : n * 10 + digitVal c < bound) :
    Spells bound (d ++ [c]) (n * 10 + digitVal c) := by
  obtain ⟨hd, rfl⟩ := h
  obtain ⟨-, hdigits, -⟩ := numeralBelow_iff.mp hd
  have hvalue := numVal_append_singleton d c
  refine ⟨numeralBelow_iff.mpr ⟨List.append_ne_nil_of_right_ne_nil d (List.cons_ne_nil c []), ?_, ?_⟩, hvalue⟩
  · exact List.forall_mem_append.mpr ⟨hdigits, List.forall_mem_singleton.mpr hc⟩
  · exact hvalue.trans_lt hn

end

/-- The record R142 writes for a leaf. -/
def recordOf (x : Symbol × Count) : RecordText := ⟨dec x.2.toNat, dec x.1.toNat⟩

theorem recordOf_good (x : Symbol × Count) : (recordOf x).good = true := by
  have hcount : Spells (2 ^ 64) (dec x.2.toNat) x.2.toNat := spells_dec x.2.isLt
  have hsymbol : Spells 256 (dec x.1.toNat) x.1.toNat := spells_dec x.1.isLt
  rw [RecordText.good, Bool.and_eq_true]
  exact ⟨hcount.below, hsymbol.below⟩

theorem recordOf_leaf (x : Symbol × Count) : (recordOf x).leaf = x := by
  have hcount : numVal (dec x.2.toNat) = x.2.toNat := digitsVal_dec _
  have hsymbol : numVal (dec x.1.toNat) = x.1.toNat := digitsVal_dec _
  rw [RecordText.leaf, recordOf, hcount, hsymbol, BitVec.ofNat_toNat, BitVec.ofNat_toNat, BitVec.setWidth_eq,
    BitVec.setWidth_eq]

theorem map_leaf_recordOf (l : List (Symbol × Count)) : (l.map recordOf).map RecordText.leaf = l := by
  have hleaf : RecordText.leaf ∘ recordOf = id := funext recordOf_leaf
  rw [List.map_map, hleaf, List.map_id]

theorem openBlock_recordOf (l : List (Symbol × Count)) : openBlock (l.map recordOf) ++ [hash] = blockText l := by
  rw [openBlock, List.flatMap_map]
  rfl

theorem openBlock_append_singleton (l : List RecordText) (r : RecordText) :
    openBlock (l ++ [r]) = openBlock l ++ r.text := by
  rw [openBlock, openBlock, List.flatMap_append, List.flatMap_singleton, List.append_assoc]

/-! ### Where the parser stands -/

/-- The parser, at a point inside a block, has read `u` of the record it is in. -/
inductive StandsAt : ParsePoint → List Byte → Prop
  | record : StandsAt .record []
  | count {d : List Byte} {n : Nat} (hd : Spells (2 ^ 64) d n) : StandsAt (.count n) d
  | symFirst {d : List Byte} {n : Nat} (hd : Spells (2 ^ 64) d n) : StandsAt (.symFirst n) (d ++ [space])
  | symRest {d e : List Byte} {n k : Nat} (hd : Spells (2 ^ 64) d n) (he : Spells 256 e k) :
      StandsAt (.symRest n k) (d ++ [space] ++ e)

section
variable {p p' : ParsePoint} {u : List Byte} {c : Byte}

theorem unfinished_iff : Unfinished u ↔ ∃ p, StandsAt p u := by
  constructor
  · rintro (rfl | hu | ⟨d, e, rfl, hd, rfl | he⟩)
    · exact ⟨_, .record⟩
    · exact ⟨_, .count ⟨hu, rfl⟩⟩
    · rw [List.append_nil]
      exact ⟨_, .symFirst ⟨hd, rfl⟩⟩
    · exact ⟨_, .symRest ⟨hd, rfl⟩ ⟨he, rfl⟩⟩
  · rintro ⟨p, h⟩
    cases h with
    | record => exact .inl rfl
    | count hd => exact .inr (.inl hd.below)
    | @symFirst d _ hd => exact .inr (.inr ⟨d, [], (List.append_nil _).symm, hd.below, .inl rfl⟩)
    | symRest hd he => exact .inr (.inr ⟨_, _, rfl, hd.below, .inr he.below⟩)

theorem parseByte_record_bad_iff : parseByte .record c = .bad ↔ isDigit c = false ∧ c ≠ hash := by
  rw [parseByte]
  split_ifs <;> simp_all

theorem parseByte_count_bad_iff (n : Nat) : parseByte (.count n) c = .bad ↔
    isDigit c = false ∧ c ≠ space ∨ isDigit c = true ∧ 2 ^ 64 ≤ n * 10 + digitVal c := by
  rw [parseByte]
  split_ifs <;> simp_all

theorem parseByte_symFirst_bad_iff (n : Nat) : parseByte (.symFirst n) c = .bad ↔ isDigit c = false := by
  rw [parseByte]
  split_ifs <;> simp_all

theorem parseByte_symRest_bad_iff (n k : Nat) : parseByte (.symRest n k) c = .bad ↔
    isDigit c = false ∧ c ≠ comma ∨ isDigit c = true ∧ 256 ≤ k * 10 + digitVal c := by
  rw [parseByte]
  split_ifs <;> simp_all <;> omega

/-- At each of its points the parser goes wrong on exactly the bytes R144 names. -/
theorem offends_iff : Offends u c ↔ ∃ p, StandsAt p u ∧ parseByte p c = .bad := by
  constructor
  · rintro (⟨rfl, hc⟩ | ⟨hu, hc⟩ | ⟨d, rfl, hd, hc⟩ | ⟨d, e, rfl, hd, he, hc⟩)
    · exact ⟨_, .record, parseByte_record_bad_iff.mpr hc⟩
    · rw [numVal_append_singleton] at hc
      exact ⟨_, .count ⟨hu, rfl⟩, (parseByte_count_bad_iff _).mpr hc⟩
    · exact ⟨_, .symFirst ⟨hd, rfl⟩, (parseByte_symFirst_bad_iff _).mpr hc⟩
    · rw [numVal_append_singleton] at hc
      exact ⟨_, .symRest ⟨hd, rfl⟩ ⟨he, rfl⟩, (parseByte_symRest_bad_iff _ _).mpr hc⟩
  · rintro ⟨p, h, hbad⟩
    cases h with
    | record => exact .inl ⟨rfl, parseByte_record_bad_iff.mp hbad⟩
    | @count d _ hd =>
      obtain ⟨hd, rfl⟩ := hd
      rw [parseByte_count_bad_iff, ← numVal_append_singleton] at hbad
      exact .inr (.inl ⟨hd, hbad⟩)
    | @symFirst d _ hd => exact .inr (.inr (.inl ⟨d, rfl, hd.below, (parseByte_symFirst_bad_iff _).mp hbad⟩))
    | @symRest d e _ _ hd he =>
      obtain ⟨he, rfl⟩ := he
      rw [parseByte_symRest_bad_iff, ← numVal_append_singleton] at hbad
      exact .inr (.inr (.inr ⟨d, e, rfl, hd.below, he, hbad⟩))

theorem StandsAt.more (h : StandsAt p u) (hmove : parseByte p c = .more p') : StandsAt p' (u ++ [c]) := by
  cases h with
  | record =>
    rw [parseByte] at hmove
    split_ifs at hmove with hhash hc
    obtain rfl := ParseMove.more.inj hmove
    exact .count (spells_singleton hc (by decide))
  | count hd =>
    rw [parseByte] at hmove
    split_ifs at hmove with hc hlt hspace
    · obtain rfl := ParseMove.more.inj hmove
      exact .count (hd.append_digit hc hlt)
    · obtain rfl := ParseMove.more.inj hmove
      exact hspace ▸ .symFirst hd
  | symFirst hd =>
    rw [parseByte] at hmove
    split_ifs at hmove with hc
    obtain rfl := ParseMove.more.inj hmove
    exact .symRest hd (spells_singleton hc (by decide))
  | symRest hd he =>
    rw [parseByte] at hmove
    split_ifs at hmove with hc hlt hcomma
    obtain rfl := ParseMove.more.inj hmove
    rw [List.append_assoc]
    exact .symRest hd (he.append_digit hc (Nat.lt_succ_of_le hlt))

/-- A leaf comes of the comma that ends a record that parses. -/
theorem StandsAt.leaf {s n : Nat} (h : StandsAt p u) (hmove : parseByte p c = .leaf s n) :
    ∃ r : RecordText, r.good = true ∧ u ++ [c] = r.text := by
  cases h with
  | record => rw [parseByte] at hmove; split_ifs at hmove
  | count hd => rw [parseByte] at hmove; split_ifs at hmove
  | symFirst hd => rw [parseByte] at hmove; split_ifs at hmove
  | @symRest d e _ _ hd he =>
    rw [parseByte] at hmove
    split_ifs at hmove with hc hlt hcomma
    refine ⟨⟨d, e⟩, ?_, by rw [hcomma]; rfl⟩
    rw [RecordText.good, Bool.and_eq_true]
    exact ⟨hd.below, he.below⟩

theorem StandsAt.good (h : StandsAt p u) (hmove : parseByte p c = .good) : u = [] ∧ c = hash := by
  cases h with
  | record =>
    rw [parseByte] at hmove
    split_ifs at hmove with hhash
    exact ⟨rfl, hhash⟩
  | count hd => rw [parseByte] at hmove; split_ifs at hmove
  | symFirst hd => rw [parseByte] at hmove; split_ifs at hmove
  | symRest hd he => rw [parseByte] at hmove; split_ifs at hmove

end

/-! ### What the parser makes of a block, of an offending byte and of a cut block -/

theorem Spells.digits {bound n : Nat} {d : List Byte} (h : Spells bound d n) :
    d ≠ [] ∧ (∀ c ∈ d, isDigit c = true) ∧ digitsVal 0 d < bound ∧ digitsVal 0 d = n := by
  obtain ⟨hne, hdigits, hlt⟩ := numeralBelow_iff.mp h.below
  exact ⟨hne, hdigits, hlt, h.value⟩

/-- A record begun takes the parser to its point. -/
theorem StandsAt.parse_eq {p : ParsePoint} {u : List Byte} (h : StandsAt p u) (k : Nat) (q : Queue) (rest : List Byte) :
    parse .record k q (u ++ rest) = parse p (k + u.length) q rest := by
  cases h with
  | record => rfl
  | count hd =>
    obtain ⟨hne, hdigits, hlt, rfl⟩ := hd.digits
    exact parse_count k q _ rest hne hdigits hlt
  | symFirst hd =>
    obtain ⟨hne, hdigits, hlt, rfl⟩ := hd.digits
    rw [parse_count_space k q _ rest hne hdigits hlt, List.length_append, List.length_singleton]
  | symRest hd he =>
    obtain ⟨hne, hdigits, hlt, rfl⟩ := hd.digits
    obtain ⟨hne', hdigits', hlt', rfl⟩ := he.digits
    rw [List.append_assoc, parse_count_space k q _ _ hne hdigits hlt,
      parse_symbol _ _ q _ rest hne' hdigits' (Nat.le_of_lt_succ hlt'), List.length_append, List.length_append,
      List.length_singleton, Nat.add_assoc]

section
variable {l : List RecordText} {p : ParsePoint} {u : List Byte} {c : Byte}

theorem good_append_singleton_iff {r : RecordText} :
    (∀ x ∈ l ++ [r], RecordText.good x = true) ↔ (∀ x ∈ l, RecordText.good x = true) ∧ r.good = true := by
  rw [List.forall_mem_append, List.forall_mem_singleton]

/-- Records that parse are read one after another, each leaf enqueued. -/
theorem parse_openBlock (hl : ∀ r ∈ l, RecordText.good r = true) (rest : List Byte) :
    parse .opening 0 Queue.fresh (openBlock l ++ rest) =
      parse .record (openBlock l).length (queueOfLeaves (l.map RecordText.leaf)) rest := by
  induction l using List.reverseRecOn generalizing rest with
  | nil => rfl
  | append_singleton l r ih =>
    obtain ⟨hl, hr⟩ := good_append_singleton_iff.mp hl
    rw [RecordText.good, Bool.and_eq_true, numeralBelow_iff, numeralBelow_iff] at hr
    obtain ⟨⟨hd, hd', hdv⟩, he, he', hev⟩ := hr
    rw [openBlock_append_singleton, List.append_assoc, ih hl, List.map_append, List.map_singleton,
      queueOfLeaves_append_singleton, List.length_append]
    exact parse_record _ _ _ _ _ hd hd' hdv he he' (Nat.le_of_lt_succ hev)

variable (hl : ∀ r ∈ l, RecordText.good r = true)
include hl

theorem parse_openBlock_append (h : StandsAt p u) (rest : List Byte) :
    parse .opening 0 Queue.fresh (openBlock l ++ u ++ rest) =
      parse p (openBlock l ++ u).length (queueOfLeaves (l.map RecordText.leaf)) rest := by
  rw [List.append_assoc, parse_openBlock hl, h.parse_eq, List.length_append]

theorem parse_block (rest : List Byte) : parse .opening 0 Queue.fresh (openBlock l ++ [hash] ++ rest) =
    ⟨true, (openBlock l).length + 1, queueOfLeaves (l.map RecordText.leaf)⟩ := by
  rw [List.append_assoc, parse_openBlock hl]
  rfl

theorem parse_offending (h : Offends u c) (rest : List Byte) :
    parse .opening 0 Queue.fresh (openBlock l ++ u ++ [c] ++ rest) =
      ⟨false, (openBlock l ++ u).length + 1, queueOfLeaves (l.map RecordText.leaf)⟩ := by
  obtain ⟨p, hp, hbad⟩ := offends_iff.mp h
  rw [List.append_assoc _ [c], parse_openBlock_append hl hp, List.singleton_append, parse, hbad]

theorem parse_unfinished (h : Unfinished u) : parse .opening 0 Queue.fresh (openBlock l ++ u) =
    ⟨false, (openBlock l ++ u).length, queueOfLeaves (l.map RecordText.leaf)⟩ := by
  obtain ⟨p, hp⟩ := unfinished_iff.mp h
  rw [← List.append_nil (openBlock l ++ u), parse_openBlock_append hl hp, List.append_nil, parse]

end

theorem parse_without_hash {c : Byte} (h : c ≠ hash) (rest : List Byte) :
    parse .opening 0 Queue.fresh (c :: rest) = ⟨false, 1, Queue.fresh⟩ := by
  have hmove : parseByte .opening c = .bad := if_neg h
  rw [parse, hmove]

/-! ### Every input is of one of these kinds -/

/-- The input begins with a well-formed block (R140). -/
def BeginsWithBlock (d : List Byte) : Prop :=
  ∃ l rest, (∀ r ∈ l, RecordText.good r = true) ∧ d = openBlock l ++ [hash] ++ rest

/-- The kinds of malformed input (R144): no leading `#`, an offending byte after records that parse, a block cut short. -/
def Malformed (d : List Byte) : Prop :=
  d = [] ∨ (∃ c rest, d = c :: rest ∧ c ≠ hash) ∨
  (∃ l p c rest, (∀ r ∈ l, RecordText.good r = true) ∧ Offends p c ∧ d = openBlock l ++ p ++ [c] ++ rest) ∨
  (∃ l p, (∀ r ∈ l, RecordText.good r = true) ∧ Unfinished p ∧ d = openBlock l ++ p)

section
variable {d : List Byte}

theorem BeginsWithBlock.good (h : BeginsWithBlock d) : (parse .opening 0 Queue.fresh d).good = true := by
  obtain ⟨l, rest, hl, rfl⟩ := h
  rw [parse_block hl]

theorem Malformed.bad (h : Malformed d) : (parse .opening 0 Queue.fresh d).good = false := by
  obtain rfl | ⟨c, rest, rfl, hc⟩ | ⟨l, p, c, rest, hl, hoff, rfl⟩ | ⟨l, p, hl, hun, rfl⟩ := h
  · rfl
  · rw [parse_without_hash hc]
  · rw [parse_offending hl hoff]
  · rw [parse_unfinished hl hun]

/-- Wherever the parser stands inside a block, what follows completes a block, offends or ends too early. -/
theorem beginsWithBlock_or_malformed_of_standsAt {l : List RecordText} {p : ParsePoint} {u : List Byte}
    (hl : ∀ r ∈ l, RecordText.good r = true) (h : StandsAt p u) (d : List Byte) :
    BeginsWithBlock (openBlock l ++ u ++ d) ∨ Malformed (openBlock l ++ u ++ d) := by
  induction d generalizing l p u with
  | nil =>
    rw [List.append_nil]
    exact .inr (.inr (.inr (.inr ⟨l, u, hl, unfinished_iff.mpr ⟨p, h⟩, rfl⟩)))
  | cons c d ih =>
    rw [← List.singleton_append, ← List.append_assoc]
    cases hmove : parseByte p c with
    | more p' =>
      rw [List.append_assoc (openBlock l)]
      exact ih hl (h.more hmove)
    | leaf s n =>
      obtain ⟨r, hr, htext⟩ := h.leaf hmove
      rw [List.append_assoc (openBlock l), htext, ← openBlock_append_singleton, ← List.append_nil (openBlock (l ++ [r]))]
      exact ih (good_append_singleton_iff.mpr ⟨hl, hr⟩) .record
    | good =>
      obtain ⟨rfl, rfl⟩ := h.good hmove
      exact .inl ⟨l, d, hl, by rw [List.append_nil]⟩
    | bad => exact .inr (.inr (.inr (.inl ⟨l, u, c, d, hl, offends_iff.mpr ⟨p, h, hmove⟩, rfl⟩)))

theorem beginsWithBlock_or_malformed (d : List Byte) : BeginsWithBlock d ∨ Malformed d := by
  cases d with
  | nil => exact .inr (.inl rfl)
  | cons c d =>
    obtain rfl | hc := eq_or_ne c hash
    · exact beginsWithBlock_or_malformed_of_standsAt (l := []) nofun .record d
    · exact .inr (.inr (.inl ⟨c, d, rfl, hc⟩))

end

/-- Settles O60: the two kinds cover every input, and the parser answers differently on them. -/
theorem everyInputParsesOrOffends : Obligations.EveryInputParsesOrOffends := by
  refine fun d => ⟨⟨BeginsWithBlock.good, fun hgood => ?_⟩, fun hbad => ?_, Malformed.bad⟩
  · refine (beginsWithBlock_or_malformed d).resolve_right fun h => ?_
    exact Bool.false_ne_true (h.bad.symm.trans hgood)
  · refine (beginsWithBlock_or_malformed d).resolve_left fun h => ?_
    exact Bool.false_ne_true (hbad.symm.trans h.good)

end Sys2Proof.Machine
end

section
/-! TC_RTREE (43_tree_codec.md R145, R146): what the queue of a block's leaves holds, the command on a block and on malformed
input, and the round trip of a merged tree. -/

namespace Sys2Proof.Machine

open Sys2Proof.Claims

/-! ### The queue of a block's leaves -/

/-- The queue keeps the first 256 leaves, and Q_OVF records that one was dropped (R101). -/
theorem queueOfLeaves_length_and_ovf (l : List (Symbol × Count)) :
    (queueOfLeaves l).slots.length = min l.length 256 ∧ (queueOfLeaves l).ovf = decide (256 < l.length) := by
  induction l using List.reverseRecOn with
  | nil => exact ⟨rfl, rfl⟩
  | append_singleton l x ih =>
    obtain ⟨hlen, hovf⟩ := ih
    rw [queueOfLeaves_append_singleton, enqueue_ovf, hovf, List.length_append, List.length_singleton]
    cases hfull : (queueOfLeaves l).full with
    | true =>
      have hmax := (full_iff _).mp hfull
      rw [enqueue_of_full _ hfull, Bool.or_true]
      exact ⟨by dsimp only [Queue.dropped]; omega, (decide_eq_true (by omega)).symm⟩
    | false =>
      have hroom := (full_eq_false_iff _).mp hfull
      rw [enqueue_length _ hfull, Bool.or_false, decide_eq_decide]
      omega

/-- A block with records merges to a tree (R120); the queue is left empty with Q_OVF as the records set it. -/
theorem exists_merge_queueOfLeaves {l : List (Symbol × Count)} (h : l ≠ []) :
    ∃ t, (queueOfLeaves l).merge = (some t, ⟨[], decide (256 < l.length)⟩) := by
  obtain ⟨hlen, hovf⟩ := queueOfLeaves_length_and_ovf l
  have hpos := List.length_pos_of_ne_nil h
  obtain ⟨t, ht, -⟩ := merge_of_ne_nil (q := queueOfLeaves l) (List.ne_nil_of_length_pos (by omega)) (by omega)
  exact ⟨t, hovf ▸ ht⟩

/-! ### The command after its checks (R145) -/

section
variable {s : State} {k : Nat} {q q' : Queue}

theorem execTcRtree_of_bad (hcheck : headerCheck .read s = none) (hparse : parsedBlock s = ⟨false, k, q⟩) :
    execTcRtree s = .next (badBlock k q.ovf s) := by
  rw [parsedBlock] at hparse
  simp only [execTcRtree, hcheck, hparse]
  rfl

theorem execTcRtree_of_null (hcheck : headerCheck .read s = none) (hparse : parsedBlock s = ⟨true, k, q⟩)
    (hmerge : q.merge = (none, q')) :
    execTcRtree s = refuse .null (consumeHeader k { s with root := none, pq := q' }) := by
  rw [parsedBlock] at hparse
  simp only [execTcRtree, hcheck, hparse, afterParse, addTotal_pq, fileAdvance_pq, hmerge]
  rfl

theorem execTcRtree_of_tree {t : Tree} (hcheck : headerCheck .read s = none) (hparse : parsedBlock s = ⟨true, k, q⟩)
    (hmerge : q.merge = (some t, q')) :
    execTcRtree s = answer (BitVec.ofNat 64 k) (consumeHeader k { s with root := some t, pq := q' }) := by
  rw [parsedBlock] at hparse
  simp only [execTcRtree, hcheck, hparse, afterParse, addTotal_pq, fileAdvance_pq, hmerge, addTotal_total, fileAdvance_bs,
    add_sub_cancel_left]
  rfl

/-- A good parse does not end in E_FORMAT. -/
theorem parsedBlock_bad_of_eFormat (hcheck : headerCheck .read s = none) {t : State} {r : Response}
    (hexec : execTcRtree s = .next t) (hr : t.responses = r :: s.responses) (hstatus : r.status = .eFormat) :
    (parsedBlock s).good = false := by
  by_contra hgood
  have hparse : parsedBlock s = ⟨true, (parsedBlock s).taken, (parsedBlock s).pq⟩ := by
    rw [← Bool.eq_true_of_not_eq_false hgood]
  obtain ⟨_ | u, q, hmerge⟩ : ∃ r q, (parsedBlock s).pq.merge = (r, q) := ⟨_, _, rfl⟩
  · rw [execTcRtree_of_null hcheck hparse hmerge] at hexec
    obtain rfl := Host.Outcome.next.inj hexec
    obtain rfl := (List.cons.inj hr).1
    cases hstatus
  · rw [execTcRtree_of_tree hcheck hparse hmerge] at hexec
    obtain rfl := Host.Outcome.next.inj hexec
    obtain rfl := (List.cons.inj hr).1
    cases hstatus

end

/-! ### Well-formed and malformed input -/

/-- TC_RTREE of a block with records (R145). -/
theorem exec_tcRtree_of_block {s : State} {l : List RecordText} {rest : List Byte} {t : Tree}
    (hcheck : headerCheck .read s = none) (hl : ∀ r ∈ l, RecordText.good r = true)
    (hrest : fileRest s = openBlock l ++ [hash] ++ rest) (hne : l ≠ [])
    (hmerge : (queueOfLeaves (l.map RecordText.leaf)).merge.1 = some t) :
    exec .tcRtree s = answer (BitVec.ofNat 64 ((openBlock l).length + 1))
      (consumeHeader ((openBlock l).length + 1) { s with root := some t, pq := ⟨[], decide (256 < l.length)⟩ }) := by
  have hparse : parsedBlock s = _ := (congrArg _ hrest).trans (parse_block hl rest)
  obtain ⟨u, hu⟩ := exists_merge_queueOfLeaves (mt List.map_eq_nil_iff.mp hne)
  rw [hu] at hmerge
  obtain rfl := Option.some.inj hmerge
  rw [List.length_map] at hu
  exact execTcRtree_of_tree hcheck hparse hu

/-- Settles O44: the blocks R142 writes are well-formed; a block without records merges nothing. -/
theorem tcRtreeReadsAWellFormedBlock : Obligations.TcRtreeReadsAWellFormedBlock := by
  refine ⟨fun l => ⟨l.map recordOf, List.forall_mem_map.mpr fun x _ => recordOf_good x, map_leaf_recordOf l,
    openBlock_recordOf l⟩, fun s l rest hmode hphase hl hrest => ?_⟩
  have hcheck := (headerCheck_eq_none_iff .read s).mpr ⟨hmode, hphase⟩
  refine ⟨?_, fun hne => ?_⟩
  · rintro rfl
    have hparse : parsedBlock s = _ := (congrArg _ hrest).trans (parse_block hl rest)
    exact execTcRtree_of_null hcheck hparse (merge_of_nil rfl)
  · obtain ⟨t, ht⟩ := exists_merge_queueOfLeaves (mt List.map_eq_nil_iff.mp hne)
    exact ⟨t, congrArg Prod.fst ht, exec_tcRtree_of_block hcheck hl hrest hne (congrArg Prod.fst ht)⟩

/-- The parser either reaches the end of its input or would have done the same on any longer one. -/
theorem parse_append_cases (p : ParsePoint) (k : Nat) (q : Queue) (d : List Byte) :
    (∃ q', parse p k q d = ⟨false, k + d.length, q'⟩) ∨ ∀ e, parse p k q (d ++ e) = parse p k q d := by
  induction d generalizing p k q with
  | nil => exact .inl ⟨q, rfl⟩
  | cons c d ih =>
    simp only [List.cons_append, parse]
    cases parseByte p c with
    | more p' => simpa [Nat.add_assoc, Nat.add_comm 1] using ih p' (k + 1) q
    | leaf s n => simpa [Nat.add_assoc, Nat.add_comm 1] using ih .record (k + 1) _
    | good => exact .inr fun _ => rfl
    | bad => exact .inr fun _ => rfl

/-- A block cut short ends the parse at the end of the input. -/
theorem parse_of_cut_block {l : List RecordText} {d more : List Byte} (hl : ∀ r ∈ l, RecordText.good r = true)
    (hmore : more ≠ []) (h : d ++ more = openBlock l ++ [hash]) :
    ∃ q, parse .opening 0 Queue.fresh d = ⟨false, d.length, q⟩ := by
  obtain ⟨q, hq⟩ | hsame := parse_append_cases .opening 0 Queue.fresh d
  · exact ⟨q, by rw [hq, Nat.zero_add]⟩
  · have hlen := congrArg List.length h
    have hmax := (parse_taken .opening 0 Queue.fresh d).2
    have hpos := List.length_pos_of_ne_nil hmore
    rw [← hsame more, h, ← List.append_nil (openBlock l ++ [hash]), parse_block hl] at hmax
    rw [List.length_append, List.length_append, List.length_singleton] at hlen
    dsimp only at hmax
    omega

/-- Settles O45: each kind of malformed input by what the parser makes of it; E_FORMAT comes of a bad parse only. -/
theorem tcRtreeRejectsMalformedBlocks : Obligations.TcRtreeRejectsMalformedBlocks := by
  intro s hmode hphase
  have hcheck := (headerCheck_eq_none_iff .read s).mpr ⟨hmode, hphase⟩
  have hovf (l : List RecordText) : (queueOfLeaves (l.map RecordText.leaf)).ovf = decide (256 < l.length) := by
    rw [(queueOfLeaves_length_and_ovf _).2, List.length_map]
  refine ⟨fun hrest => ?_, fun c rest hrest hc => ?_, fun l p c rest hl hoff hrest => ?_, fun l p hl hun hrest => ?_,
    fun l more hl hmore hrest => ?_, fun t r hexec hr hstatus => ?_⟩
  · exact execTcRtree_of_bad hcheck (congrArg (parse .opening 0 Queue.fresh) hrest)
  · exact execTcRtree_of_bad hcheck ((congrArg _ hrest).trans (parse_without_hash hc rest))
  · rw [← hovf l]
    exact execTcRtree_of_bad hcheck ((congrArg _ hrest).trans (parse_offending hl hoff rest))
  · rw [← hovf l]
    exact execTcRtree_of_bad hcheck ((congrArg _ hrest).trans (parse_unfinished hl hun))
  · obtain ⟨q, hq⟩ := parse_of_cut_block hl hmore hrest
    rw [hq]
    exact execTcRtree_of_bad hcheck hq
  · have hbad := parsedBlock_bad_of_eFormat hcheck hexec hr hstatus
    have hparse : parsedBlock s = ⟨false, (parsedBlock s).taken, (parsedBlock s).pq⟩ := by rw [← hbad]
    exact Host.Outcome.next.inj (hexec.symm.trans (execTcRtree_of_bad hcheck hparse))

/-! ### The round trip (R146) -/

/-- The sentinel of a lone leaf might as well have been enqueued as a leaf (R120). -/
theorem exists_leaves_of_merge {l : List (Symbol × Count)} (hnodup : (l.map Prod.fst).Nodup) :
    ∃ l' : List (Symbol × Count), (l'.map Prod.fst).Nodup ∧ l'.length ≠ 1 ∧
      (queueOfLeaves l').merge = (queueOfLeaves l).merge := by
  by_cases hone : l.length = 1
  · obtain ⟨x, rfl⟩ := List.length_eq_one_iff.mp hone
    refine ⟨[x, (sentinelSym x.1, 0)], by simpa using (sentinelSym_ne x.1).symm, by simp, ?_⟩
    exact (merge_of_singleton (q := queueOfLeaves [x]) (u := leafNode x) rfl).symm
  · exact ⟨l, hnodup, hone, rfl⟩

/-- A merged tree is the merge of its own leaves too: they are the leaves that were enqueued, in another order (R130(c)). -/
theorem merge_leaves_of_merge {l : List (Symbol × Count)} {t : Tree} (hnodup : (l.map Prod.fst).Nodup)
    (hmerge : (queueOfLeaves l).merge.1 = some t) :
    t.leaves.length ≤ 256 ∧ (queueOfLeaves t.leaves).merge.1 = some t := by
  obtain ⟨l', hnodup', hone, heq⟩ := exists_leaves_of_merge hnodup
  rw [← heq] at hmerge
  have hmax : l'.length ≤ 256 := by simpa using length_le_of_symbols_nodup hnodup'
  obtain ⟨hslots, -⟩ := queueOfLeaves_elements hmax
  have hlen : (queueOfLeaves l').slots.length = l'.length := by rw [hslots.length_eq, List.length_map]
  have hne : (queueOfLeaves l').slots ≠ [] := fun hnil => by simp [merge_of_nil hnil] at hmerge
  obtain ⟨u, hu, hleaves, -⟩ := merge_of_ne_nil hne (hlen.trans_le hmax)
  rw [hu] at hmerge
  obtain rfl := Option.some.inj hmerge
  have hperm : u.leaves.Perm l' := by
    rw [addSentinel_of_length_ne_one (hlen.trans_ne hone)] at hleaves
    simpa using hleaves.trans (leavesOf_perm hslots)
  refine ⟨hperm.length_eq.trans_le hmax, ?_⟩
  rw [← mergeDoesNotDependOnEnqueueOrder l' u.leaves hnodup' hperm.symm, hu]

/-- Settles O46: the block of a merged tree is a block of records, whose merge is the tree. -/
theorem serializeThenDeserializeIsIdentity : Obligations.SerializeThenDeserializeIsIdentity := by
  intro s l t rest hnodup hmerge hmode hphase hrest
  have hcheck := (headerCheck_eq_none_iff .read s).mpr ⟨hmode, hphase⟩
  obtain ⟨hmax, ht⟩ := merge_leaves_of_merge hnodup hmerge
  have htext : openBlock (t.leaves.map recordOf) ++ [hash] = ser (some t) := openBlock_recordOf t.leaves
  have hexec := exec_tcRtree_of_block (l := t.leaves.map recordOf) (rest := rest) (t := t) hcheck
    (List.forall_mem_map.mpr fun x _ => recordOf_good x) (by rw [htext]; exact hrest)
    (mt List.map_eq_nil_iff.mp (List.ne_nil_of_length_pos (leaves_length_pos t))) (by rwa [map_leaf_recordOf])
  rw [List.length_map, decide_eq_false hmax.not_gt, ← List.length_singleton (a := hash), ← List.length_append, htext] at hexec
  exact hexec

end Sys2Proof.Machine
end

section
/-! The system commands (44_system.md R155 to R157): what NOP and SRESET leave, and the fields of each view RDSR answers
(10_state.md R34). -/

namespace Sys2Proof.Machine

/-- Settles O10: NOP only answers, and SRESET answers over the cleared block. -/
theorem nopAndSresetResults : Obligations.NopAndSresetResults := fun _ => ⟨rfl, rfl⟩

/-! ### RDSR (R156) -/

section
variable {s : State} {idx : Byte} {v : Wide}

theorem exec_rdsr_of_view (h : statusView s idx = some v) : exec (.rdsr idx) s = .next (respond .ok v s) := by
  simp only [exec, execRdsr, h, answer]

/-- A view and what is known of its value, as the statement has them. -/
theorem exists_rdsr_of_view {P : Wide → Prop} (h : statusView s idx = some v) (hv : P v) :
    ∃ v, exec (.rdsr idx) s = .next (respond .ok v s) ∧ P v :=
  ⟨v, exec_rdsr_of_view h, hv⟩

end

/-! ### The fields of the views (R34) -/

theorem Mode.code_le_two (m : Mode) : m.code ≤ 2 := by
  cases m <;> decide

theorem srBs_toNat {b : Stream} (h : b.nbits ≤ 8) :
    (srBs b).toNat = b.mode.code + 4 * b.nbits + 64 * b.acc.toNat + 16384 * b.bitPhase.toNat := by
  have hmode := b.mode.code_le_two
  have hacc := b.acc.isLt
  have hphase := b.bitPhase.toNat_le
  rw [srBs, BitVec.toNat_ofNat]
  omega

theorem srBsBuf_toNat (b : Stream) :
    (srBsBuf b).toNat = min b.cur (2 ^ 32 - 1) + 2 ^ 32 * min b.avail (2 ^ 32 - 1) := by
  rw [srBsBuf, sat32, sat32, BitVec.toNat_ofNat]
  omega

theorem srPq_toNat {q : Queue} (h : q.slots.length ≤ 256) : (srPq q).toNat = q.slots.length + 65536 * q.ovf.toNat := by
  have hovf := q.ovf.toNat_le
  rw [srPq, BitVec.toNat_ofNat]
  omega

theorem srTree_toNat (r : Option Tree) :
    (srTree r).toNat = match r with | none => 0 | some (.leaf _ _) => 3 | some (.node _ _ _ _) => 1 := by
  rcases r with _ | _ | _ <;> rfl

theorem srCodeLen_toNat {c : Code} (h : c.len ≤ 256) : (srCodeLen c).toNat = c.len := by
  rw [srCodeLen, BitVec.toNat_ofNat]
  omega

theorem srCodeBits_getLsbD (c : Code) (k : Nat) {j : Nat} (hj : j < 64) :
    (srCodeBits c k).getLsbD j = c.bits.getLsbD (64 * k + j) := by
  rw [srCodeBits, BitVec.getLsbD_extractLsb', decide_eq_true hj, Bool.true_and]

theorem srParam_toNat (n : Nat) : (srParam n).toNat = min n (2 ^ 64 - 1) := by
  rw [srParam, BitVec.toNat_ofNat]
  omega

/-- The four views of CODE_BITS stand at 7 to 10. -/
theorem statusView_codeBits (s : State) {k : Nat} (hk : k < 4) :
    statusView s (BitVec.ofNat 8 (7 + k)) = some (srCodeBits s.code k) := by
  match k with
  | 0 | 1 | 2 | 3 => rfl

/-- Settles O11: each index has the view of its row, whose fields lie side by side; from 12 on there is none. -/
theorem rdsrReturnsTheView : Obligations.RdsrReturnsTheView := by
  intro s hnbits hqueue hlen
  refine ⟨exec_rdsr_of_view rfl, ?bs, exec_rdsr_of_view rfl, ?buf, ?pq, ?tree, ?codeLen, ?codeBits, ?param, ?none⟩
  case bs =>
    refine exists_rdsr_of_view rfl ((srBs_toNat hnbits).trans ?_)
    cases s.bs.mode <;> rfl
  case buf => exact exists_rdsr_of_view rfl (srBsBuf_toNat s.bs)
  case pq => exact exists_rdsr_of_view rfl (srPq_toNat hqueue)
  case tree => exact exists_rdsr_of_view rfl (srTree_toNat s.root)
  case codeLen => exact exists_rdsr_of_view rfl (srCodeLen_toNat hlen)
  case codeBits =>
    intro k hk
    exact exists_rdsr_of_view (statusView_codeBits s hk) fun j hj => srCodeBits_getLsbD s.code k hj
  case param => exact exists_rdsr_of_view rfl (srParam_toNat s.bufBytes)
  case none => exact fun _ hidx => execRdsr_of_operand hidx

end Sys2Proof.Machine
end

section
/-! The failures (60_exceptions.md R163, R166): which status a command can answer, and the state each failure leaves. -/

namespace Sys2Proof.Machine

open Sys2Proof.Claims

/-- Settles O47: every command answers next, by a response its row of R163 allows. -/
theorem everyCommandAnswersAStatusOfItsRow : Obligations.EveryCommandAnswersAStatusOfItsRow := by
  intro i s
  obtain ⟨u, st, v, -, hexec⟩ := exec_completes i s
  obtain ⟨r, hr, hallowed⟩ := responses_of_exec hexec
  exact ⟨respond st v u, r, hexec, hr, hallowed.status, hallowed.result⟩

/-! ### The failures that change nothing (R164, R166) -/

/-- The statuses a command answers before it has written anything (R166). -/
def unchangingFailures : List Status := [.eIllegal, .eArg, .eMode, .ePhase, .eOpen, .eNotFound]

/-- The command has passed its checks and leaves `u`, with a status that is none of those. -/
def Passes (i : Instr) (s u : State) : Prop :=
  ∃ st v, exec i s = .next (respond st v u) ∧ st ∉ unchangingFailures

section
variable {i : Instr} {s t u : State} {r : Response} {st : Status} {v : Wide}

theorem Passes.answer (h : exec i s = answer v u) : Passes i s u := ⟨.ok, v, h, by decide⟩

theorem Passes.null (h : exec i s = refuse .null u) : Passes i s u := ⟨.null, 0, h, by decide⟩

theorem Passes.eod (h : exec i s = refuse .eod u) : Passes i s u := ⟨.eod, 0, h, by decide⟩

theorem Passes.eFormat (h : exec i s = refuse .eFormat u) : Passes i s u := ⟨.eFormat, 0, h, by decide⟩

theorem execCodePush_of_not_full {b : Byte} {bit : Bool} (hb : bitOperand b = some bit) (h : s.code.len ≠ Config.codeMax) :
    execCodePush b s = answer (BitVec.ofNat 64 (s.code.len + 1)) { s with code := s.code.push bit } := by
  rw [execCodePush, hb]
  exact if_neg h

/-- Past its checks BS_RU64 answers, or gives EOD when fewer than eight bytes remained (R81). -/
theorem passes_bsRu64 (hcheck : headerCheck .read s = none) :
    Passes .bsRu64 s (consumeHeader ((fileRest s).take 8).length s) := by
  have hexec := execBsRu64_of_header hcheck
  split at hexec
  · exact .eod hexec
  · exact .answer hexec

/-- Whatever a command writes, it writes once its checks have passed. -/
theorem Effect.eq_or_passes (h : Effect s i u) : u = s ∨ Passes i s u := by
  cases h with
  | unchanged => exact .inl rfl
  | bsWbitRefused => exact .inl rfl
  | bsRbitRefused => exact .inl rfl
  | freqClr => exact .inr (.answer rfl)
  | freqAdd => exact .inr (.answer rfl)
  | freqScan hgrant => exact .inr (.answer (execFreqScan_of_granted hgrant))
  | htLeaves => exact .inr (.answer rfl)
  | @htMerge r q hmerge =>
    cases r with
    | none => exact .inr (.null (exec_htMerge_of_none hmerge))
    | some t => exact .inr (.answer (exec_htMerge_of_some hmerge))
  | @htBuild r q hgrant hmerge =>
    cases r with
    | none => exact .inr (.null (exec_htBuild_of_none hgrant hmerge))
    | some t => exact .inr (.answer (exec_htBuild_of_some hgrant hmerge))
  | htCode hroot hpath => exact .inr (.answer (exec_htCode_of_path hroot hpath))
  | htFree => exact .inr (.answer rfl)
  | pqClr => exact .inr (.answer rfl)
  | pqEnq => exact .inr (.answer rfl)
  | @pqDeq r q hdeq =>
    cases r with
    | none => exact .inr (.null (by rw [exec, execPqDeq, hdeq]))
    | some m => exact .inr (.answer (by rw [exec, execPqDeq, hdeq]))
  | codeClr => exact .inr (.answer rfl)
  | codePush hbit hlen => exact .inr (.answer (execCodePush_of_not_full hbit hlen))
  | bsOpen hm hclosed hgrant => exact .inr (.answer (execBsOpen_of_granted hm hclosed hgrant))
  | bsCloseRead hmode => exact .inr (.answer (execBsClose_of_read hmode))
  | bsCloseWrite hmode => exact .inr (.answer (by rw [exec, execBsClose, hmode]))
  | bsWbit hbit hmode => exact .inr (.answer (execBsWbit_of_write hbit hmode))
  | bsRbitShift hmode hnbits => exact .inr (.answer (execBsRbit_of_shift hmode hnbits))
  | bsRbitEnd hmode hnbits hfetch =>
    exact .inr (.eod ((execBsRbit_of_fetch hmode hnbits).trans (congrArg answerFetched hfetch)))
  | bsRbitFetch hmode hnbits hfetch =>
    exact .inr (.answer ((execBsRbit_of_fetch hmode hnbits).trans (congrArg answerFetched hfetch)))
  | bsWu64 v hcheck => exact .inr (.answer (execBsWu64_of_header v hcheck))
  | bsRu64 hcheck => exact .inr (passes_bsRu64 hcheck)
  | tcWtree hcheck => exact .inr (.answer (execTcWtree_of_header hcheck))
  | @tcRtreeGood r q hcheck hgood hmerge =>
    have hparse : parsedBlock s = ⟨true, (parsedBlock s).taken, (parsedBlock s).pq⟩ := by rw [← hgood]
    cases r with
    | none => exact .inr (.null (execTcRtree_of_null hcheck hparse hmerge))
    | some t => exact .inr (.answer (execTcRtree_of_tree hcheck hparse hmerge))
  | tcRtreeBad hcheck hbad =>
    have hparse : parsedBlock s = ⟨false, (parsedBlock s).taken, (parsedBlock s).pq⟩ := by rw [← hbad]
    exact .inr (.eFormat (execTcRtree_of_bad hcheck hparse))
  | sreset => exact .inr (.answer rfl)

/-- The response that was given and the state it leaves, where it is known how the command ends. -/
theorem response_of_exec (h : exec i s = .next t) (hr : t.responses = r :: s.responses)
    (hexec : exec i s = .next (respond st v u)) : r.status = st ∧ t = respond st v u := by
  obtain rfl := Host.Outcome.next.inj (h.symm.trans hexec)
  exact ⟨congrArg Response.status (List.cons.inj hr).1.symm, rfl⟩

theorem unchanged_of_unchangingFailure (h : exec i s = .next t) (hr : t.responses = r :: s.responses)
    (hst : r.status ∈ unchangingFailures) : t = { s with responses := t.responses } := by
  obtain ⟨u, st, v, heff, rfl⟩ := exists_effect_of_exec h
  obtain rfl | ⟨st', v', hexec, hpass⟩ := heff.eq_or_passes
  · rfl
  · exact absurd ((response_of_exec h hr hexec).1 ▸ hst) hpass

/-! ### NULL and EOD (R166) -/

theorem unchanged_of_null_htCode {sym : Symbol} (h : exec (.htCode sym) s = .next t) (hr : t.responses = r :: s.responses)
    (hst : r.status = .null) : t = { s with responses := t.responses } := by
  obtain ⟨u, st, v, heff, rfl⟩ := exists_effect_of_exec h
  cases heff with
  | unchanged => rfl
  | htCode hroot hpath => cases hst.symm.trans (response_of_exec h hr (exec_htCode_of_path hroot hpath)).1

/-- HT_FIND writes nothing, whatever it answers. -/
theorem unchanged_of_htFind (h : exec .htFind s = .next t) : t = { s with responses := t.responses } := by
  obtain ⟨u, st, v, heff, rfl⟩ := exists_effect_of_exec h
  cases heff with
  | unchanged => rfl

theorem state_of_null_pqDeq (h : exec .pqDeq s = .next t) (hr : t.responses = r :: s.responses) (hst : r.status = .null) :
    s.pq.slots = [] ∧ t = { s with responses := t.responses, root := none } := by
  match hslots : s.pq.slots with
  | [] =>
    obtain ⟨-, rfl⟩ := response_of_exec h hr (exec_pqDeq_of_nil hslots)
    exact ⟨rfl, rfl⟩
  | m :: rest => cases hst.symm.trans (response_of_exec h hr (exec_pqDeq_of_cons hslots)).1

theorem state_of_null_htMerge (h : exec .htMerge s = .next t) (hr : t.responses = r :: s.responses)
    (hmax : s.pq.slots.length ≤ 256) (hst : r.status = .null) :
    s.pq.slots = [] ∧ t = { s with responses := t.responses, root := none } := by
  by_cases hnil : s.pq.slots = []
  · obtain ⟨-, rfl⟩ := response_of_exec h hr (exec_htMerge_of_none (merge_of_nil hnil))
    exact ⟨hnil, rfl⟩
  · obtain ⟨m, hm, -⟩ := merge_of_ne_nil hnil hmax
    cases hst.symm.trans (response_of_exec h hr (exec_htMerge_of_some hm)).1

/-- No tree comes of a scan that leaves every counter 0. -/
theorem merge_leavesQueue_eq_none {f : Vector Count 256} {q : Queue} (h : (leavesQueue f).merge = (none, q)) :
    q = ⟨[], false⟩ ∧ ∀ x, freqAt f x = 0 := by
  have hnil : (leavesQueue f).slots = [] :=
    (merge_eq_none_iff (queueInv_leavesQueue f).bounded).mp (congrArg Prod.fst h)
  rw [merge_of_nil hnil] at h
  refine ⟨?_, (leavesQueue_eq_nil_iff f).mp hnil⟩
  rw [← (Prod.mk.inj h).2, ← hnil, ← (leavesQueue_elements f).2]

theorem state_of_null_htBuild (h : exec .htBuild s = .next t) (hr : t.responses = r :: s.responses) (hst : r.status = .null) :
    t.pq = ⟨[], false⟩ ∧ (∀ x : Symbol, t.freq[x.toNat] = 0) ∧
      t = { s with responses := t.responses, root := none, pq := t.pq, freq := t.freq } := by
  obtain hgrant | hgrant := Bool.eq_false_or_eq_true s.envInpGrant
  · match hmerge : (leavesQueue (freqScan s.inp)).merge with
    | (none, q) =>
      obtain ⟨-, rfl⟩ := response_of_exec h hr (exec_htBuild_of_none hgrant hmerge)
      obtain ⟨hq, hzero⟩ := merge_leavesQueue_eq_none hmerge
      exact ⟨hq, hzero, rfl⟩
    | (some m, q) => cases hst.symm.trans (response_of_exec h hr (exec_htBuild_of_some hgrant hmerge)).1
  · cases hst.symm.trans (response_of_exec h hr (execHtBuild_of_refused hgrant)).1

theorem state_of_eod_bsRu64 (h : exec .bsRu64 s = .next t) (hr : t.responses = r :: s.responses) (hst : r.status = .eod) :
    ∃ k, k < 8 ∧ t = { s with
      responses := t.responses, file := ⟨s.file.data, s.file.rpos + k⟩
      bs := { s.bs with total := s.bs.total + BitVec.ofNat 64 k } } := by
  match hcheck : headerCheck .read s with
  | some e =>
    obtain rfl : r.status = e := (response_of_exec h hr (execBsRu64_of_check hcheck)).1
    obtain he | he := headerCheck_cases hcheck
    · cases hst.symm.trans he
    · cases hst.symm.trans he
  | none =>
    have hexec := execBsRu64_of_header hcheck
    split at hexec
    case isTrue hlen =>
      obtain ⟨-, rfl⟩ := response_of_exec h hr hexec
      exact ⟨_, hlen, rfl⟩
    case isFalse => cases hst.symm.trans (response_of_exec h hr hexec).1

end

/-- Settles O48: the checks come before any write; NULL and EOD by the one branch of their command that gives them. -/
theorem failuresLeaveTheStatedState : Obligations.FailuresLeaveTheStatedState := by
  refine fun i s t r h hr => ⟨unchanged_of_unchangingFailure h hr, ?_, ?_, ?_, ?_⟩
  · rintro sym (rfl | rfl) hst
    · exact unchanged_of_null_htCode h hr hst
    · exact unchanged_of_htFind h
  · rintro (rfl | rfl) hmax hst
    · exact state_of_null_pqDeq h hr hst
    · exact state_of_null_htMerge h hr hmax hst
  · rintro rfl hst
    exact state_of_null_htBuild h hr hst
  · rintro rfl hst
    exact state_of_eod_bsRu64 h hr hst

end Sys2Proof.Machine
end

section
/-! The values after a reset (70_reset_and_hazards.md R181, R183). `clearBlock` is what puts the registers at them, so a state
that it leaves alone holds them all: the state a reset event leaves and `State.reset` are two such states. -/

namespace Sys2Proof.Machine

@[simp] theorem clearBlock_hardReset (s : State) : clearBlock (hardReset s) = hardReset s := rfl

@[simp] theorem clearBlock_reset : clearBlock State.reset = State.reset := rfl

theorem srCodeBits_empty (k : Nat) : srCodeBits Code.empty k = 0 := BitVec.extractLsb'_zero

/-- The views numbered 1 to 10, SR_BS to SR_CODE_BITS3 (R34), show only registers that `clearBlock` clears. -/
theorem statusView_of_clearBlock_eq {s : State} (hclear : clearBlock s = s) (idx : Byte) (hlow : 1 ≤ idx.toNat)
    (hhigh : idx.toNat ≤ 10) : statusView s idx = some 0 := by
  rw [← hclear, statusView]
  split
  case h_1 | h_12 => omega
  case h_13 => grind
  case h_8 | h_9 | h_10 | h_11 => exact congrArg some (srCodeBits_empty _)
  all_goals rfl

/-- Settles O8: the event leaves the hard reset of the state without the event, which has each register as `clearBlock` has
it; FILE, INP, BUF_BYTES and the host's side are not among the fields it sets. -/
theorem hardwareResetLeavesTheResetValues : Obligations.HardwareResetLeavesTheResetValues := by
  intro s rest hpend
  have hviews := statusView_of_clearBlock_eq (clearBlock_hardReset { s with pending := rest })
  exact ⟨hardReset { s with pending := rest }, step_of_pending_cons hpend, rfl, rfl, rfl, rfl, rfl, rfl, rfl, rfl, rfl, rfl,
    rfl, rfl, rfl, hviews, rfl, rfl, rfl, rfl, rfl, rfl⟩

/-- Settles O9: each register of `State.reset` is written out in its definition, as `clearBlock` has it. -/
theorem resetStateHoldsTheResetValues : Obligations.ResetStateHoldsTheResetValues :=
  ⟨rfl, rfl, rfl, rfl, rfl, rfl, rfl, rfl, rfl, rfl, rfl, rfl, rfl, statusView_of_clearBlock_eq clearBlock_reset, rfl⟩

end Sys2Proof.Machine
end
